-- ==== Sys2Proof/Word.lean ====
section
/-!
DEFINITION. The widths of the block's values (R7, R51, R80, R81): bytes, 16-bit running values, 32-bit
command words and 9-bit line symbols. Everything is unsigned.
-/

namespace Sys2Proof

/-- A byte, the unit of every transfer on either line (R7, R51). -/
abbrev Byte := BitVec 8

/-- A word16: the running value of the checksum and the checksum itself (R7). -/
abbrev Word16 := BitVec 16

/-- A host command word, format H (R80). -/
abbrev CmdWord := BitVec 32

/-- A line symbol, format L: bit 8 is `eos`, bits 7 to 0 the byte (R81). -/
abbrev LineSymbol := BitVec 9

end Sys2Proof
end

