-- ==== Sys2Proof/Config.lean ====
section
/-!
DEFINITION. What an instantiation of the block fixes: the record of the constants of R5, the parameters an
instantiated block carries (R6: `SEQ_INIT`, `RX_CAP`), and, as constants without a body, every value the spec
leaves open (R6, R34; the rows U1, U2, U4 to U7 of 93_implementation_defined.md).
-/

namespace Sys2Proof

/-- The constants of R5 as fields of one record, as R5 asks. The record that holds the spec's values is
`Sys2Proof.constants`, in Machine/Constants.lean. -/
structure Constants where
  /-- `POLY` -/
  poly : Word16
  /-- `CRC_INIT`, the running value at the start of a frame -/
  crcInit : Word16
  /-- `CRC_WIDTH`, in bits -/
  crcWidth : Nat
  /-- `SYN`, first byte of the start marker -/
  syn : Byte
  /-- `DLE`, the escape byte -/
  dle : Byte
  /-- `STX`, third byte of the start marker -/
  stx : Byte
  /-- `ETX`, the terminator byte -/
  etx : Byte
  /-- `FCS_LEN`, in bytes -/
  fcsLen : Nat
  /-- `SEQ_WIDTH`, in bits -/
  seqWidth : Nat
  /-- `MAX_CHUNK`, in bytes -/
  maxChunk : Nat
  /-- `PAD_ALIGN`, in bytes -/
  padAlign : Nat
  /-- `MAX_PAYLOAD` (R6, decided in D12) -/
  maxPayload : Nat
  /-- `T_REQ` -/
  tReq : Byte
  /-- `T_LT` -/
  tLt : Byte
  /-- `T_LA` -/
  tLa : Byte
  /-- `T_DOCK` -/
  tDock : Byte
  /-- `T_DACK` -/
  tDack : Byte
  deriving DecidableEq, Repr

/-- The open parameters an instantiated block carries (R6). They stand in the state so that a statement about
every state is a statement about every value of them; no step changes them (R31). -/
structure Params where
  /-- `SEQ_INIT`: what a reset puts into `SEQ`. -/
  seqInit : Byte
  /-- `RX_CAP`: the capacity of `RX_BUF` in logical bytes; `none` is unbounded. -/
  rxCap : Option Nat
  deriving DecidableEq, Repr

/-- The open byte strings of the host's payloads (R6, U7), of any length and value (N9). They are arguments of a session,
so that a statement about every session is one about every value of them. -/
structure HostParams where
  /-- `ID_FIELDS`: what follows "newtdockdock" (R215). -/
  idFields : List Byte
  /-- `STIM_FIELDS`: what follows "newtdockstim" (R215). -/
  stimFields : List Byte
  deriving DecidableEq, Repr

/-- The host's own state names (R218). Which steps each covers is not in the source (N11). -/
inductive SessionState where
  | awaitingPeerRequest | negotiatingCapabilities | awaitingSessionStart | exchangingIdentity
  | awaitingTransferReady | transferringPackages | disconnecting | closed | failed
  deriving DecidableEq, Repr, Inhabited

namespace Config

/-- `SEQ_INIT` of the block whose power-on state is `State.reset`: OPEN (R6, D15, U4), so it has no body. Log
entry 2. -/
opaque seqInit : Byte

/-- FREE VALUE: what `CRC_TX` holds after the `n`-th reset (R34: unspecified). Log entry 1. -/
opaque crcTxAtReset (n : Nat) : Word16

/-- FREE VALUE: what `CRC_RX` holds after the `n`-th reset (R34: unspecified). Log entry 1. -/
opaque crcRxAtReset (n : Nat) : Word16

/-- FREE VALUE: what `RX_FCS_LO` holds after the `n`-th reset (R34: unspecified). Log entry 1. -/
opaque rxFcsLoAtReset (n : Nat) : Byte

/-- `HDR_SPLIT`: how a decoded body divides into header and payload; OPEN (R6, D10). Host level. -/
opaque hdrSplit (body : List Byte) : Option Nat

/-- `HDR_TYPE_INDEX`: which header byte is the frame-type tag; OPEN (R6, N7). Host level. -/
opaque hdrTypeIndex : Nat

/-- Where `HDR_SEQ_INDEX` stands among the positions other than `HDR_TYPE_INDEX`; OPEN. -/
opaque hdrSeqRank : Nat

/-- `HDR_SEQ_INDEX`: which header byte is the sequence number; OPEN (R6, N7), any position but that of the type tag,
since R212 puts two independent bytes there. Host level. Log entry 28. -/
def hdrSeqIndex : Nat := if hdrSeqRank < hdrTypeIndex then hdrSeqRank else hdrSeqRank + 1

/-- How many bytes a sequenced header has after its last known one, by number and payload; OPEN (N7). -/
opaque hdrExtra (number : Byte) (payload : List Byte) : Nat

/-- The bytes of a sequenced header other than type and number ("subtype", "flags"); OPEN (N7). -/
opaque hdrOther (number : Byte) (payload : List Byte) (position : Nat) : Byte

/-- How many bytes the header of the host's acknowledgement has after its type; OPEN (N7). -/
opaque ackExtra (body : List Byte) : Nat

/-- The bytes of that header other than its type; OPEN (R203, N7). -/
opaque ackOther (body : List Byte) (position : Nat) : Byte

/-- The header of the capability frame, its type tag included, by number; OPEN (N8). -/
opaque capHeader (number : Byte) : List Byte

/-- `CAP_BLOB`: the 24 bytes of the capability payload; OPEN (R6, N8). Host level. -/
opaque capBlob : Vector Byte 24

/-- The owner name in the peer's identity frame, where decoding succeeds; OPEN (R207, N10, U13). Host level. -/
opaque decodeOwnerName (body : List Byte) : Option (List Byte)

/-- Whether `bytes_sent` counts padding; OPEN (R214, N18, U17). Host level. -/
opaque paddingCounts : Bool

/-- The host's state name by step, 1 to 8 (R204 to R211), and by the entry of the script that is running, since step 3
is two entries and step 7 one per package; OPEN (R218, N11). Host level. Log entry 24. -/
opaque sessionStateIn (step entry : Nat) : SessionState

end Config

end Sys2Proof
end

