-- ==== Sys2Proof/Syntax.lean ====
section
/-!
DEFINITION. The operations of the block: one constructor of `Instr` per row of spec/opcode_table.json (six
commands of format H, R87; twelve receiver operations of format L, R88), the receiver states that select among
the latter (R25), and the two kinds of encoded input.
-/

namespace Sys2Proof

/-- `RX_STATE`: the position of the decoder in its three steps (R20, R25). -/
inductive RxState where
  /-- scanning, no byte of the start marker matched -/
  | hunt0
  /-- scanning, one byte matched -/
  | hunt1
  /-- scanning, two bytes matched -/
  | hunt2
  /-- reading logical bytes -/
  | body
  /-- one `DLE` read in the body -/
  | esc
  /-- waiting for the low checksum byte -/
  | fcs0
  /-- waiting for the high checksum byte -/
  | fcs1
  deriving DecidableEq, Repr

/-- The operations. An operand of a line operation is the byte of the symbol, where the row's pattern leaves it
free. -/
inductive Instr where
  /-- `CRC.UPD acc, data` (R113) -/
  | crcUpd (acc : Word16) (data : Byte)
  /-- `TX.SOF` (R131) -/
  | txSof
  /-- `TX.BYTE data` (R132) -/
  | txByte (data : Byte)
  /-- `TX.EOF` (R133) -/
  | txEof
  /-- `SEQ.RD` (R191) -/
  | seqRd
  /-- `SEQ.INC` (R192) -/
  | seqInc
  /-- `RX.EOS` (R162); the low eight bits of its symbol are ignored (R81) -/
  | rxEos
  /-- `RX.HUNT.SYN` (R151) -/
  | rxHuntSyn
  /-- `RX.HUNT.DLE` (R152) -/
  | rxHuntDle
  /-- `RX.HUNT.STX` (R153) -/
  | rxHuntStx
  /-- `RX.HUNT.MISS` (R154) -/
  | rxHuntMiss (b : Byte)
  /-- `RX.BODY.DLE` (R156) -/
  | rxBodyDle
  /-- `RX.BODY.DATA` (R155) -/
  | rxBodyData (b : Byte)
  /-- `RX.ESC.DLE` (R157) -/
  | rxEscDle
  /-- `RX.ESC.ETX` (R158) -/
  | rxEscEtx
  /-- `RX.ESC.BAD` (R159) -/
  | rxEscBad (b : Byte)
  /-- `RX.FCS.LO` (R160) -/
  | rxFcsLo (b : Byte)
  /-- `RX.FCS.HI` (R161) -/
  | rxFcsHi (b : Byte)
  deriving DecidableEq, Repr

/-- The rows of the opcode table by name, without operands. -/
inductive OpName where
  | crcUpd | txSof | txByte | txEof | seqRd | seqInc
  | rxEos | rxHuntSyn | rxHuntDle | rxHuntStx | rxHuntMiss | rxBodyDle | rxBodyData
  | rxEscDle | rxEscEtx | rxEscBad | rxFcsLo | rxFcsHi
  deriving DecidableEq, Repr

/-- The row an instruction belongs to. -/
def Instr.opName : Instr → OpName
  | .crcUpd _ _ => .crcUpd
  | .txSof => .txSof
  | .txByte _ => .txByte
  | .txEof => .txEof
  | .seqRd => .seqRd
  | .seqInc => .seqInc
  | .rxEos => .rxEos
  | .rxHuntSyn => .rxHuntSyn
  | .rxHuntDle => .rxHuntDle
  | .rxHuntStx => .rxHuntStx
  | .rxHuntMiss _ => .rxHuntMiss
  | .rxBodyDle => .rxBodyDle
  | .rxBodyData _ => .rxBodyData
  | .rxEscDle => .rxEscDle
  | .rxEscEtx => .rxEscEtx
  | .rxEscBad _ => .rxEscBad
  | .rxFcsLo _ => .rxFcsLo
  | .rxFcsHi _ => .rxFcsHi

/-- Format H, an operation the host issues; the other operations are selected by line symbols (R87, R88). -/
def Instr.isCommand : Instr → Bool
  | .crcUpd _ _ | .txSof | .txByte _ | .txEof | .seqRd | .seqInc => true
  | .rxEos | .rxHuntSyn | .rxHuntDle | .rxHuntStx | .rxHuntMiss _ | .rxBodyDle | .rxBodyData _
  | .rxEscDle | .rxEscEtx | .rxEscBad _ | .rxFcsLo _ | .rxFcsHi _ => false

/-- One encoded input of the block: a word on the command port (R80) or a symbol on the line (R81). A program in
the sense of R92 is a list of these, in the order the block is to execute them. -/
inductive Encoded where
  | command (w : CmdWord)
  | symbol (x : LineSymbol)
  deriving DecidableEq, Repr

end Sys2Proof
end

