-- ==== Sys2Proof/Machine/State.lean ====
section
/-!
DEFINITION. The state of one instance of the block (R20), the outcomes it reports (R91, R250), the reasons a step
can stop, and the state after reset (R34, R280).
-/

namespace Sys2Proof.Machine

/-- `TX_STATE` (R24). -/
inductive TxState where
  /-- no frame is open on the transmit side -/
  | txIdle
  /-- the start marker has been emitted and the end marker has not -/
  | txBody
  deriving DecidableEq, Repr

/-- The failure kinds of the receiver, the `K` of `raise K` (R254). -/
inductive Failure where
  /-- R251 -/
  | frameIncomplete
  /-- R252 -/
  | checksumMismatch
  /-- R253 -/
  | escapeViolation
  /-- R255 -/
  | rxOverrun
  deriving DecidableEq, Repr

/-- An outcome the block reports on `EVT` (R91, R250). -/
inductive Event where
  /-- a verified frame, with its undivided body -/
  | frameOk (bytes : List Byte)
  /-- a receiver failure; it carries nothing -/
  | failed (kind : Failure)
  /-- a host command the block cannot execute (R256) -/
  | cmdRefused
  deriving DecidableEq, Repr

/-- A value returned to the host as the result of a command (R80, R91). -/
inductive Reply where
  /-- of `CRC.UPD` -/
  | word16 (v : Word16)
  /-- of `SEQ.RD` -/
  | byte (v : Byte)
  deriving DecidableEq, Repr

/-- Whose input is taken next (R11, D28; the reset input is beside the command port, R280). -/
inductive Agent where
  /-- the host: the next word of the command port -/
  | host
  /-- the line: the next symbol of `RX_LINE` -/
  | line
  /-- the reset input -/
  | reset
  deriving DecidableEq, Repr

/-- The state tuple of R20, the interfaces' histories (R28), and the model's own fields: the pending command words,
the schedule, the replies, the reset count and the parameters. -/
structure State where
  /-- `TX_STATE` (R24) -/
  txState : TxState
  /-- `CRC_TX` (R21) -/
  crcTx : Word16
  /-- `RX_STATE` (R25) -/
  rxState : RxState
  /-- `CRC_RX` (R22) -/
  crcRx : Word16
  /-- `RX_BUF` (R26) -/
  rxBuf : List Byte
  /-- `RX_FCS_LO` (R27) -/
  rxFcsLo : Byte
  /-- `SEQ` (R23) -/
  seq : Byte
  /-- `TX_LINE`: every byte emitted since the last reset, oldest first (R28) -/
  txLine : List Byte
  /-- `RX_LINE`: the symbols not yet consumed, next one first (R28, R58) -/
  rxLine : List LineSymbol
  /-- `EVT`: every event since the last reset, oldest first (R28) -/
  evt : List Event
  /-- the values replied to the host since the last reset, oldest first (R80, R91). Log entry 4. -/
  replies : List Reply
  /-- command words the host has issued and the block has not taken yet, next one first (R61, R80). Log entry 3. -/
  cmdPort : List CmdWord
  /-- which input is taken at each of the next steps (R60, D28). Log entry 3. -/
  turns : List Agent
  /-- how many resets have happened; the free values of R34 are drawn with it. Log entry 1. -/
  resets : Nat
  /-- the parameters of R6, fixed when the block is instantiated (R31). Log entry 2. -/
  params : Params
  deriving DecidableEq, Repr

/-- Reasons for a step to fault. There are none: no input of the block has an effect that stops it (R88, R89, R254,
R291: "None of these is a fault of the block"). Safe. -/
inductive Fault where
  deriving DecidableEq, Repr

/-- Reasons for a step to be refused. -/
inductive Refusal where
  /-- An instruction of the opcode table without a meaning in the model, raised by its arm of `exec`; no arm raises
  it now. Safe: nothing can be proved of such an instruction. -/
  | notModelled (mnemonic : String)
  deriving DecidableEq, Repr

/-- The state right after the first reset, with nothing issued, nothing on the line and nothing scheduled, for a
block instantiated with given parameters (R34, R280). -/
def State.resetWith (p : Params) : State where
  txState := .txIdle
  crcTx := Config.crcTxAtReset 0
  rxState := .hunt0
  crcRx := Config.crcRxAtReset 0
  rxBuf := []
  rxFcsLo := Config.rxFcsLoAtReset 0
  seq := p.seqInit
  txLine := []
  rxLine := []
  evt := []
  replies := []
  cmdPort := []
  turns := []
  resets := 0
  params := p

/-- The state after reset of the block with the open `SEQ_INIT` and the spec's default `RX_CAP`, none (R6, R34). -/
def State.reset : State := State.resetWith ⟨Config.seqInit, none⟩

end Sys2Proof.Machine
end

