-- ==== Sys2Proof/Machine/Constants.lean ====
section
/-!
DEFINITION. The spec's values of the constants of R5 (and `MAX_PAYLOAD` of R6), and the two markers built from
them.
-/

namespace Sys2Proof

/-- The values of the table of R5. All are hardwired and read-only (R31). -/
def constants : Constants where
  poly := 0xA001#16
  crcInit := 0x0000#16
  crcWidth := 16
  syn := 0x16#8
  dle := 0x10#8
  stx := 0x02#8
  etx := 0x03#8
  fcsLen := 2
  seqWidth := 8
  maxChunk := 256
  padAlign := 4
  maxPayload := 256
  tReq := 0x01#8
  tLt := 0x02#8
  tLa := 0x03#8
  tDock := 0x04#8
  tDack := 0x05#8

/-- `START_MARKER` (R5). -/
def startMarker : List Byte := [constants.syn, constants.dle, constants.stx]

/-- `END_MARKER` (R5). -/
def endMarker : List Byte := [constants.dle, constants.etx]

end Sys2Proof
end

