-- ==== Sys2Proof/Machine/Operands.lean ====
section
/-!
DEFINITION. The operators of R8 on bytes and word16 values, and `inc8` (R190). These are all the operand forms the
block has: it has no addressing modes (R50) and no signed values (R7).
-/

namespace Sys2Proof.Machine

/-- `lo8(w) = w[7:0]` (R8). -/
def lo8 (w : Word16) : Byte := w.extractLsb' 0 8

/-- `hi8(w) = w[15:8]` (R8). -/
def hi8 (w : Word16) : Byte := w.extractLsb' 8 8

/-- `word(hi, lo) = hi * 256 + lo` (R8, R86). -/
def word (hi lo : Byte) : Word16 := BitVec.ofNat 16 (hi.toNat * 256 + lo.toNat)

/-- `zext_16(b)` (R8). -/
def zext16 (b : Byte) : Word16 := b.setWidth 16

/-- `inc8(s) = (s + 1) mod 256` (R190). -/
def inc8 (s : Byte) : Byte := BitVec.ofNat 8 ((s.toNat + 1) % 256)

/-- The bytes of a 32-bit value, most significant first: the host's payload fields (R54, R215). -/
def be32 (v : BitVec 32) : List Byte :=
  [v.extractLsb' 24 8, v.extractLsb' 16 8, v.extractLsb' 8 8, v.extractLsb' 0 8]

end Sys2Proof.Machine
end

