-- ==== Sys2Proof/Machine/CrcEngine.lean ====
section
/-!
DEFINITION. The checksum engine CE (40_crc_engine.md): pure functions, no state.
-/

namespace Sys2Proof.Machine

/-- `crc_bit(c, d)` (R110): the shift first, then the exclusive-or with `POLY`. -/
def crcBit (c : Word16) (d : Bool) : Word16 :=
  if (c.getLsbD 0 ^^ d) = true then (c >>> 1) ^^^ constants.poly else c >>> 1

/-- `crc_update(c, o)` (R111): bit 0 of the octet first, bit 7 last. -/
def crcUpdate (c : Word16) (o : Byte) : Word16 :=
  let c1 := crcBit c (o.getLsbD 0)
  let c2 := crcBit c1 (o.getLsbD 1)
  let c3 := crcBit c2 (o.getLsbD 2)
  let c4 := crcBit c3 (o.getLsbD 3)
  let c5 := crcBit c4 (o.getLsbD 4)
  let c6 := crcBit c5 (o.getLsbD 5)
  let c7 := crcBit c6 (o.getLsbD 6)
  crcBit c7 (o.getLsbD 7)

/-- `crc_bytes(c, xs)` (R112): bytes first to last. -/
def crcBytes (c : Word16) : List Byte → Word16
  | [] => c
  | x :: xs => crcBytes (crcUpdate c x) xs

/-- The checksum of a body: header, payload and the one terminator byte (R114). -/
def bodyFcs (xs : List Byte) : Word16 := crcBytes constants.crcInit (xs ++ [constants.etx])

/-- `fcs(h, p)` (R114). -/
def fcs (h p : List Byte) : Word16 := bodyFcs (h ++ p)

/-- One of the eight equal steps of the folded form (R115 (a)). -/
def foldStep (x : Word16) : Word16 :=
  if x.getLsbD 0 = true then (x >>> 1) ^^^ constants.poly else x >>> 1

/-- The byte-at-a-time form (R115 (a)): the octet is folded in beforehand, then eight equal steps. -/
def crcUpdateFolded (c : Word16) (o : Byte) : Word16 :=
  Nat.repeat foldStep 8 (c ^^^ zext16 o)

/-- `T[i]`, the table of R115 (b), printed as V-T in 95_test_vectors.md. -/
def crcTable (i : Byte) : Word16 := crcUpdate 0x0000#16 i

/-- The table form (R115 (b)). -/
def crcUpdateByTable (c : Word16) (o : Byte) : Word16 :=
  (c >>> 8) ^^^ crcTable (lo8 (c ^^^ zext16 o))

end Sys2Proof.Machine
end

