-- ==== Sys2Proof/Machine/WireFormat.lean ====
section
/-!
DEFINITION. Format W, the wire frame: byte stuffing (R130), `encode(h, p)` (R82, R136), its length (R84), and the
scan for the start marker (R150).
-/

namespace Sys2Proof.Machine

/-- `stuff(xs)` (R130): every logical escape byte is sent twice, every other byte once. -/
def stuff : List Byte → List Byte
  | [] => []
  | x :: xs => if x = constants.dle then constants.dle :: constants.dle :: stuff xs else x :: stuff xs

/-- The wire form of a body (R82): marker, stuffed body, end marker, checksum low byte first, unstuffed (R83). -/
def encodeBody (xs : List Byte) : List Byte :=
  startMarker ++ stuff xs ++ endMarker ++ [lo8 (bodyFcs xs), hi8 (bodyFcs xs)]

/-- `encode(h, p)` (R136): the header stuffed, then the payload stuffed. -/
def encodeFrame (h p : List Byte) : List Byte :=
  startMarker ++ stuff h ++ stuff p ++ endMarker ++ [lo8 (fcs h p), hi8 (fcs h p)]

/-- The wire length of R84. -/
def wireLength (h p : List Byte) : Nat :=
  startMarker.length + h.length + p.length + (h ++ p).count constants.dle + endMarker.length + constants.fcsLen

/-- The scan is in one of its three states (R25, R150). -/
def isHunt : RxState → Bool
  | .hunt0 | .hunt1 | .hunt2 => true
  | .body | .esc | .fcs0 | .fcs1 => false

/-- `hunt(s, b)` (R150), the next state of the scan. -/
def hunt (s : RxState) (b : Byte) : RxState :=
  if b = constants.syn then .hunt1
  else if s = .hunt1 ∧ b = constants.dle then .hunt2
  else if s = .hunt2 ∧ b = constants.stx then .body
  else .hunt0

end Sys2Proof.Machine
end

