-- ==== Sys2Proof/Machine/Flags.lean ====
section
/-!
DEFINITION. The block has no flags and stores no comparison (R30). What an operation tests is computed from the
state by the predicates below: the three R30 names, and the capacity check of R155 and R157.
-/

namespace Sys2Proof.Machine

/-- A frame is open on the transmit side: `TX_STATE = TX_BODY` (R30 (a)). -/
def State.txOpen (s : State) : Bool := s.txState == .txBody

/-- The receiver scans for a start marker (R30 (b)). -/
def State.hunting (s : State) : Bool := isHunt s.rxState

/-- The one-shot comparison of `RX.FCS.HI`, all 16 bits (R30 (c), R161). -/
def State.fcsMatches (s : State) (high : Byte) : Bool := word high s.rxFcsLo == s.crcRx

/-- "`RX_CAP` is a number and `len(RX_BUF) = RX_CAP`" (R155, R157). -/
def State.rxFull (s : State) : Bool := s.params.rxCap == some s.rxBuf.length

/-- The event code of R91 and R250. -/
def Event.code : Event → Nat
  | .frameOk _ => 0
  | .failed .frameIncomplete => 1
  | .failed .checksumMismatch => 2
  | .failed .escapeViolation => 3
  | .failed .rxOverrun => 4
  | .cmdRefused => 5

/-- The event comes from the receiver, not from the command port (R250). -/
def Event.fromReceiver : Event → Bool
  | .frameOk _ => true
  | .failed _ => true
  | .cmdRefused => false

end Sys2Proof.Machine
end

