-- ==== Sys2Proof/Machine/Ops.lean ====
section
/-!
DEFINITION. The primitives of R9 over the state: `emit`, `push`, `event`, `reply`, `refuse`, `raise`, and the reset
input (R280). There is no addressed memory (R50) and so no memory operation besides these. `raise` is the block's
taking of an exception (R254) and is written once here; there is no return from one (R257: "There is no return
operation"): the failure sequence itself leaves the receiver hunting.
-/

namespace Sys2Proof.Machine

/-- `emit(b)` for each byte in turn: appended to `TX_LINE`, contiguous and in order (R9, R57). -/
def emit (bs : List Byte) (s : State) : State := { s with txLine := s.txLine ++ bs }

/-- `push(b)`: appended to `RX_BUF` (R9). -/
def push (b : Byte) (s : State) : State := { s with rxBuf := s.rxBuf ++ [b] }

/-- `event(e)`: appended to `EVT` after every earlier event (R9, R254). -/
def event (e : Event) (s : State) : State := { s with evt := s.evt ++ [e] }

/-- `reply(v)`: returned to the host as the result of the command (R9, R91). -/
def reply (v : Reply) (s : State) : State := { s with replies := s.replies ++ [v] }

/-- `refuse`: `event(CmdRefused)` and no other state change (R9, R256). -/
def refuse (s : State) : State := event .cmdRefused s

/-- `raise K` (R254): the event, the attempted frame discarded, and the receiver at the state the rule names,
`HUNT0` for every rule but R159. Nothing is saved; `CRC_RX` and `RX_FCS_LO` keep their values. -/
def raise (k : Failure) (next : RxState) (s : State) : State :=
  { event (.failed k) s with rxBuf := [], rxState := next }

/-- The common part of R155 and R157: a logical byte arrives; it overruns a full buffer, or it is stored and
accumulated once and the receiver goes to the state the rule names. -/
def storeLogical (b : Byte) (next : RxState) (s : State) : State :=
  if s.rxFull then raise .rxOverrun .hunt0 s
  else { push b s with crcRx := crcUpdate s.crcRx b, rxState := next }

/-- The reset input (R34, R280). The histories count from it; the registers R34 leaves unspecified take free values
(log entry 1); inputs not taken yet are the environment's and stay (R281; log entry 5). -/
def resetInput (s : State) : State :=
  { s with
    txState := .txIdle
    crcTx := Config.crcTxAtReset (s.resets + 1)
    rxState := .hunt0
    crcRx := Config.crcRxAtReset (s.resets + 1)
    rxBuf := []
    rxFcsLo := Config.rxFcsLoAtReset (s.resets + 1)
    seq := s.params.seqInit
    txLine := []
    evt := []
    replies := []
    resets := s.resets + 1 }

end Sys2Proof.Machine
end

