-- ==== Sys2Proof/Machine/CrcCommand.lean ====
section
/-!
DEFINITION. The host command of the checksum engine, `CRC.UPD` (R113).
-/

namespace Sys2Proof.Machine

/-- `CRC.UPD acc, data` (R113): replies, reads no register and writes none. -/
def execCrcUpd (acc : Word16) (data : Byte) (s : State) : Host.Outcome State Fault Refusal :=
  .next (reply (.word16 (crcUpdate acc data)) s)

end Sys2Proof.Machine
end

