-- ==== Sys2Proof/Machine/FrameRx.lean ====
section
/-!
DEFINITION. The receive side FC-RX (42_frame_rx.md): the twelve operations a line symbol can select. Each is its
rule's pseudocode; which one a symbol selects is `decodeSymbol` (R88).
-/

namespace Sys2Proof.Machine

/-- `RX.HUNT.SYN` (R151). -/
def execRxHuntSyn (s : State) : Host.Outcome State Fault Refusal := .next { s with rxState := .hunt1 }

/-- `RX.HUNT.DLE` (R152). -/
def execRxHuntDle (s : State) : Host.Outcome State Fault Refusal := .next { s with rxState := .hunt2 }

/-- `RX.HUNT.STX` (R153): the marker is complete; a frame opens. -/
def execRxHuntStx (s : State) : Host.Outcome State Fault Refusal :=
  .next { s with rxBuf := [], crcRx := constants.crcInit, rxState := .body }

/-- `RX.HUNT.MISS` (R154): the byte is discarded. -/
def execRxHuntMiss (_b : Byte) (s : State) : Host.Outcome State Fault Refusal :=
  .next { s with rxState := .hunt0 }

/-- `RX.BODY.DATA` (R155): stored and accumulated; `RX_STATE` stays. A receiver left in `BODY` is a hang the block has
(R291 (c)): every byte is body data until `10 03`, `EOS`, `RxOverrun` or reset. Log entry 27, `body_swallows`. -/
def execRxBodyData (b : Byte) (s : State) : Host.Outcome State Fault Refusal :=
  .next (storeLogical b s.rxState s)

/-- `RX.BODY.DLE` (R156): the next symbol decides. -/
def execRxBodyDle (s : State) : Host.Outcome State Fault Refusal := .next { s with rxState := .esc }

/-- `RX.ESC.DLE` (R157): a doubled escape byte is one logical byte. -/
def execRxEscDle (s : State) : Host.Outcome State Fault Refusal :=
  .next (storeLogical constants.dle .body s)

/-- `RX.ESC.ETX` (R158): the terminator is accumulated and not stored. -/
def execRxEscEtx (s : State) : Host.Outcome State Fault Refusal :=
  .next { s with crcRx := crcUpdate s.crcRx constants.etx, rxState := .fcs0 }

/-- `RX.ESC.BAD` (R159): the byte is looked at again as a first marker byte. -/
def execRxEscBad (b : Byte) (s : State) : Host.Outcome State Fault Refusal :=
  .next (raise .escapeViolation (hunt .hunt0 b) s)

/-- `RX.FCS.LO` (R160): the low checksum byte, raw. -/
def execRxFcsLo (b : Byte) (s : State) : Host.Outcome State Fault Refusal :=
  .next { s with rxFcsLo := b, rxState := .fcs1 }

/-- `RX.FCS.HI` (R161): the verdict. -/
def execRxFcsHi (b : Byte) (s : State) : Host.Outcome State Fault Refusal :=
  .next (if s.fcsMatches b then { event (.frameOk s.rxBuf) s with rxBuf := [], rxState := .hunt0 }
    else raise .checksumMismatch .hunt0 s)

/-- `RX.EOS` (R162): in every receiver state. -/
def execRxEos (s : State) : Host.Outcome State Fault Refusal := .next (raise .frameIncomplete .hunt0 s)

end Sys2Proof.Machine
end

