-- ==== Sys2Proof/Machine/FrameTx.lean ====
section
/-!
DEFINITION. The transmit side FC-TX (41_frame_tx.md): the three commands that emit a frame.
-/

namespace Sys2Proof.Machine

/-- `TX.SOF` (R131): open a frame, refused when one is open. -/
def execTxSof (s : State) : Host.Outcome State Fault Refusal :=
  .next (if s.txOpen then refuse s
    else { emit startMarker s with crcTx := constants.crcInit, txState := .txBody })

/-- `TX.BYTE data` (R132): one logical byte, accumulated once, also when it is doubled on the wire. -/
def execTxByte (data : Byte) (s : State) : Host.Outcome State Fault Refusal :=
  .next (if s.txOpen then
      { emit (if data = constants.dle then [constants.dle, constants.dle] else [data]) s with
        crcTx := crcUpdate s.crcTx data }
    else refuse s)

/-- `TX.EOF` (R133): end marker and checksum, low byte first. -/
def execTxEof (s : State) : Host.Outcome State Fault Refusal :=
  let f := crcUpdate s.crcTx constants.etx
  .next (if s.txOpen then { emit (endMarker ++ [lo8 f, hi8 f]) s with crcTx := f, txState := .txIdle }
    else refuse s)

end Sys2Proof.Machine
end

