-- ==== Sys2Proof/Machine/SeqRegister.lean ====
section
/-!
DEFINITION. The sequence-number register SQ (43_seq_register.md).
-/

namespace Sys2Proof.Machine

/-- `SEQ.RD` (R191): replies `SEQ`, writes nothing. -/
def execSeqRd (s : State) : Host.Outcome State Fault Refusal := .next (reply (.byte s.seq) s)

/-- `SEQ.INC` (R192): no reply. -/
def execSeqInc (s : State) : Host.Outcome State Fault Refusal := .next { s with seq := inc8 s.seq }

end Sys2Proof.Machine
end

