-- ==== Sys2Proof/Machine/Dispatch.lean ====
section
/-! DEFINITION. One arm per row of the opcode table. -/

namespace Sys2Proof.Machine

def exec (i : Instr) (s : State) : Host.Outcome State Fault Refusal :=
  match i with
  | .crcUpd acc data => Sys2Proof.Machine.execCrcUpd acc data s
  | .txSof => Sys2Proof.Machine.execTxSof s
  | .txByte data => Sys2Proof.Machine.execTxByte data s
  | .txEof => Sys2Proof.Machine.execTxEof s
  | .seqRd => Sys2Proof.Machine.execSeqRd s
  | .seqInc => Sys2Proof.Machine.execSeqInc s
  | .rxEos => Sys2Proof.Machine.execRxEos s
  | .rxHuntSyn => Sys2Proof.Machine.execRxHuntSyn s
  | .rxHuntDle => Sys2Proof.Machine.execRxHuntDle s
  | .rxHuntStx => Sys2Proof.Machine.execRxHuntStx s
  | .rxHuntMiss b => Sys2Proof.Machine.execRxHuntMiss b s
  | .rxBodyDle => Sys2Proof.Machine.execRxBodyDle s
  | .rxBodyData b => Sys2Proof.Machine.execRxBodyData b s
  | .rxEscDle => Sys2Proof.Machine.execRxEscDle s
  | .rxEscEtx => Sys2Proof.Machine.execRxEscEtx s
  | .rxEscBad b => Sys2Proof.Machine.execRxEscBad b s
  | .rxFcsLo b => Sys2Proof.Machine.execRxFcsLo b s
  | .rxFcsHi b => Sys2Proof.Machine.execRxFcsHi b s

end Sys2Proof.Machine
end

