-- ==== Sys2Proof/WellFormed.lean ====
section
/-!
DEFINITION. Which terms of `Instr` some encoding selects. The three operations that take "any other byte" (R154,
R155, R159) exclude the bytes that a row above them takes in every state of theirs; every other operand value is
encodable.
-/

namespace Sys2Proof

/-- Some (receiver state, symbol) pair or some command word selects this term (R87, R88). -/
def Instr.wf : Instr → Bool
  | .crcUpd _ _ => true
  | .txSof => true
  | .txByte _ => true
  | .txEof => true
  | .seqRd => true
  | .seqInc => true
  | .rxEos => true
  | .rxHuntSyn => true
  | .rxHuntDle => true
  | .rxHuntStx => true
  | .rxHuntMiss b => b != constants.syn
  | .rxBodyDle => true
  | .rxBodyData b => b != constants.dle
  | .rxEscDle => true
  | .rxEscEtx => true
  | .rxEscBad b => b != constants.dle && b != constants.etx
  | .rxFcsLo _ => true
  | .rxFcsHi _ => true

end Sys2Proof
end

