-- ==== Sys2Proof/Decode.lean ====
section
/-!
DEFINITION. Formats H and L (R80, R81, R87, R88, R89): the fields, the decoder of command words, the decoder of
line symbols (which depends on `RX_STATE`), the encoder, the opcode table's rows as data, and the host's view
`decodeTableWord`.
-/

namespace Sys2Proof

/-! ### Fields of format H (R80) -/

/-- `op`, bits [31:28]. -/
def cmdOp (w : CmdWord) : BitVec 4 := w.extractLsb' 28 4

/-- `rsv`, bits [27:24]. -/
def cmdRsv (w : CmdWord) : BitVec 4 := w.extractLsb' 24 4

/-- `acc`, bits [23:8]. -/
def cmdAcc (w : CmdWord) : Word16 := w.extractLsb' 8 16

/-- `data`, bits [7:0]. -/
def cmdData (w : CmdWord) : Byte := w.extractLsb' 0 8

/-- A command word from its fields, `rsv` zero. -/
def cmdWord (op : BitVec 4) (acc : Word16) (data : Byte) : CmdWord := op ++ 0#4 ++ acc ++ data

/-! ### Fields of format L (R81) -/

/-- `eos`, bit 8. -/
def symEos (x : LineSymbol) : Bool := x.getLsbD 8

/-- `byte`, bits [7:0]. -/
def symByte (x : LineSymbol) : Byte := x.extractLsb' 0 8

/-- The symbol of a received byte. -/
def byteSymbol (b : Byte) : LineSymbol := 0#1 ++ b

/-- The end-of-stream symbol, with the ignored byte zero. -/
def eosSymbol : LineSymbol := 0x100#9

/-! ### Decoding -/

/-- Why a command word is reserved (R89). -/
inductive DecodeError where
  /-- `op` is `0x0` or `0x7` to `0xF` -/
  | reservedOp (op : BitVec 4)
  /-- `rsv` is not zero -/
  | rsvNotZero
  /-- `acc` is not zero in a command that does not use it -/
  | accNotZero
  /-- `data` is not zero in a command that does not use it -/
  | dataNotZero
  deriving DecidableEq, Repr

/-- `acc` must be zero in every command but `CRC.UPD` (R80). -/
def withoutAcc (w : CmdWord) (i : Instr) : Except DecodeError Instr :=
  if cmdAcc w = 0#16 then .ok i else .error .accNotZero

/-- `acc` and `data` must be zero in a command that uses neither (R80). -/
def withoutOperands (w : CmdWord) (i : Instr) : Except DecodeError Instr :=
  if cmdData w = 0#8 then withoutAcc w i else .error .dataNotZero

/-- The operation map of format H (R87) and its reserved words (R89). -/
def decodeCommand (w : CmdWord) : Except DecodeError Instr :=
  if cmdRsv w = 0#4 then
    if cmdOp w = 0x1#4 then .ok (.crcUpd (cmdAcc w) (cmdData w))
    else if cmdOp w = 0x2#4 then withoutOperands w .txSof
    else if cmdOp w = 0x3#4 then withoutAcc w (.txByte (cmdData w))
    else if cmdOp w = 0x4#4 then withoutOperands w .txEof
    else if cmdOp w = 0x5#4 then withoutOperands w .seqRd
    else if cmdOp w = 0x6#4 then withoutOperands w .seqInc
    else .error (.reservedOp (cmdOp w))
  else .error .rsvNotZero

/-- The operation map of format L (R88): `eos` first, then the rows of the state from top to bottom (R260). It is
total: every state and symbol select one operation. -/
def decodeSymbol (st : RxState) (x : LineSymbol) : Instr :=
  if symEos x then .rxEos
  else
    match st with
    | .hunt0 => if symByte x = constants.syn then .rxHuntSyn else .rxHuntMiss (symByte x)
    | .hunt1 =>
      if symByte x = constants.syn then .rxHuntSyn
      else if symByte x = constants.dle then .rxHuntDle
      else .rxHuntMiss (symByte x)
    | .hunt2 =>
      if symByte x = constants.syn then .rxHuntSyn
      else if symByte x = constants.stx then .rxHuntStx
      else .rxHuntMiss (symByte x)
    | .body => if symByte x = constants.dle then .rxBodyDle else .rxBodyData (symByte x)
    | .esc =>
      if symByte x = constants.dle then .rxEscDle
      else if symByte x = constants.etx then .rxEscEtx
      else .rxEscBad (symByte x)
    | .fcs0 => .rxFcsLo (symByte x)
    | .fcs1 => .rxFcsHi (symByte x)

/-- Decoding either kind of input in a receiver state; a command word does not look at the state. -/
def decode (st : RxState) : Encoded → Except DecodeError Instr
  | .command w => decodeCommand w
  | .symbol x => .ok (decodeSymbol st x)

/-! ### Encoding -/

/-- The word or symbol of an instruction (R80, R81, R87, R88). -/
def encode : Instr → Encoded
  | .crcUpd acc data => .command (cmdWord 0x1#4 acc data)
  | .txSof => .command (cmdWord 0x2#4 0#16 0#8)
  | .txByte data => .command (cmdWord 0x3#4 0#16 data)
  | .txEof => .command (cmdWord 0x4#4 0#16 0#8)
  | .seqRd => .command (cmdWord 0x5#4 0#16 0#8)
  | .seqInc => .command (cmdWord 0x6#4 0#16 0#8)
  | .rxEos => .symbol eosSymbol
  | .rxHuntSyn => .symbol (byteSymbol constants.syn)
  | .rxHuntDle => .symbol (byteSymbol constants.dle)
  | .rxHuntStx => .symbol (byteSymbol constants.stx)
  | .rxHuntMiss b => .symbol (byteSymbol b)
  | .rxBodyDle => .symbol (byteSymbol constants.dle)
  | .rxBodyData b => .symbol (byteSymbol b)
  | .rxEscDle => .symbol (byteSymbol constants.dle)
  | .rxEscEtx => .symbol (byteSymbol constants.etx)
  | .rxEscBad b => .symbol (byteSymbol b)
  | .rxFcsLo b => .symbol (byteSymbol b)
  | .rxFcsHi b => .symbol (byteSymbol b)

/-- The receiver states in which an instruction's encoding selects it: the `state` key of its row, less the states
in which a row above takes the byte. A command is selected whatever the receiver does. -/
def Instr.selectedIn : Instr → RxState → Bool
  | .crcUpd _ _, _ => true
  | .txSof, _ => true
  | .txByte _, _ => true
  | .txEof, _ => true
  | .seqRd, _ => true
  | .seqInc, _ => true
  | .rxEos, _ => true
  | .rxHuntSyn, st => [RxState.hunt0, .hunt1, .hunt2].contains st
  | .rxHuntDle, st => [RxState.hunt1].contains st
  | .rxHuntStx, st => [RxState.hunt2].contains st
  | .rxHuntMiss b, st =>
    st == .hunt0 || (st == .hunt1 && b != constants.dle) || (st == .hunt2 && b != constants.stx)
  | .rxBodyDle, st => [RxState.body].contains st
  | .rxBodyData _, st => [RxState.body].contains st
  | .rxEscDle, st => [RxState.esc].contains st
  | .rxEscEtx, st => [RxState.esc].contains st
  | .rxEscBad _, st => [RxState.esc].contains st
  | .rxFcsLo _, st => [RxState.fcs0].contains st
  | .rxFcsHi _, st => [RxState.fcs1].contains st

/-! ### The opcode table as data -/

/-- A format-H row of spec/opcode_table.json. -/
structure CommandRow where
  op : OpName
  value : CmdWord
  mask : CmdWord
  deriving DecidableEq, Repr

/-- A format-L row of spec/opcode_table.json (R88: `state`, `priority`). -/
structure SymbolRow where
  op : OpName
  value : LineSymbol
  mask : LineSymbol
  states : List RxState
  priority : Nat
  deriving DecidableEq, Repr

/-- The six format-H rows, in the table's order. -/
def commandTable : List CommandRow :=
  [ ⟨.crcUpd, 0x10000000#32, 0xFF000000#32⟩,
    ⟨.txSof, 0x20000000#32, 0xFFFFFFFF#32⟩,
    ⟨.txByte, 0x30000000#32, 0xFFFFFF00#32⟩,
    ⟨.txEof, 0x40000000#32, 0xFFFFFFFF#32⟩,
    ⟨.seqRd, 0x50000000#32, 0xFFFFFFFF#32⟩,
    ⟨.seqInc, 0x60000000#32, 0xFFFFFFFF#32⟩ ]

/-- The twelve format-L rows, in the table's order. -/
def symbolTable : List SymbolRow :=
  [ ⟨.rxEos, 0x100#9, 0x100#9, [.hunt0, .hunt1, .hunt2, .body, .esc, .fcs0, .fcs1], 0⟩,
    ⟨.rxHuntSyn, 0x016#9, 0x1FF#9, [.hunt0, .hunt1, .hunt2], 1⟩,
    ⟨.rxHuntDle, 0x010#9, 0x1FF#9, [.hunt1], 1⟩,
    ⟨.rxHuntStx, 0x002#9, 0x1FF#9, [.hunt2], 1⟩,
    ⟨.rxHuntMiss, 0x000#9, 0x100#9, [.hunt0, .hunt1, .hunt2], 2⟩,
    ⟨.rxBodyDle, 0x010#9, 0x1FF#9, [.body], 1⟩ ] ++
  [ ⟨.rxBodyData, 0x000#9, 0x100#9, [.body], 2⟩,
    ⟨.rxEscDle, 0x010#9, 0x1FF#9, [.esc], 1⟩,
    ⟨.rxEscEtx, 0x003#9, 0x1FF#9, [.esc], 1⟩,
    ⟨.rxEscBad, 0x000#9, 0x100#9, [.esc], 2⟩,
    ⟨.rxFcsLo, 0x000#9, 0x100#9, [.fcs0], 1⟩,
    ⟨.rxFcsHi, 0x000#9, 0x100#9, [.fcs1], 1⟩ ]

/-- A command word has a row's pattern. -/
def CommandRow.covers (r : CommandRow) (w : CmdWord) : Bool := w &&& r.mask == r.value

/-- A row applies in a state to a symbol, before priorities are looked at. -/
def SymbolRow.covers (r : SymbolRow) (st : RxState) (x : LineSymbol) : Bool :=
  r.states.contains st && (x &&& r.mask == r.value)

/-- The rows that a state and a symbol select: those that apply with the lowest priority number (R88). -/
def selectedRows (st : RxState) (x : LineSymbol) : List SymbolRow :=
  let rows := symbolTable.filter (·.covers st x)
  rows.filter fun r => rows.all fun r' => r.priority ≤ r'.priority

/-! ### The host's view of a table word -/

/-- A symbol alone does not name a row (R88: "Which operation a symbol selects depends on `RX_STATE`"). For the
host's question about a table word the receiver stands in the first state of the first row whose pattern fixes all
nine bits of that symbol, and in `HUNT0`, its reset state, for every other symbol. DESIGN CHOICE, log entry 9. -/
def tableState (x : LineSymbol) : RxState :=
  if x = 0x010#9 then .hunt1 else if x = 0x002#9 then .hunt2 else if x = 0x003#9 then .esc else .hunt0

/-- The instruction the decoder reads from a table word: up to 16 bits hold a 9-bit symbol (format L, bits above
bit 8 zero), 17 to 32 bits a command word (format H). -/
def decodeTableWord (nbits w : Nat) : Option Instr :=
  if nbits ≤ 16 then
    if w < 512 then some (decodeSymbol (tableState (BitVec.ofNat 9 w)) (BitVec.ofNat 9 w)) else none
  else if nbits ≤ 32 ∧ w < 4294967296 then
    match decodeCommand (BitVec.ofNat 32 w) with
    | .ok i => some i
    | .error _ => none
  else none

end Sys2Proof
end

