-- ==== Sys2Proof/Machine/Fetch.lean ====
section
/-!
DEFINITION. Taking the next input. The block fetches no program (R29, R64): a command word is presented whole on the
command port and executed once, and a line symbol is consumed from `RX_LINE` and never seen again (R58). Which of
the two moves, or the reset input, is `turns` (log entry 3).
-/

namespace Sys2Proof.Machine

/-- What a step finds to do. -/
inductive Fetched where
  /-- nothing is scheduled, or the scheduled agent supplies nothing: the block waits (R291) -/
  | idle (s : State)
  /-- the reset input is asserted (R280) -/
  | reset (s : State)
  /-- an operation, and the state with its input taken -/
  | run (i : Instr) (s : State)
  /-- a reserved command word (R89), and the state with the word taken -/
  | reserved (e : DecodeError) (s : State)
  deriving DecidableEq, Repr

/-- The next command word, decoded (R87, R89). -/
def fetchCommand (s : State) : Fetched :=
  match s.cmdPort with
  | [] => .idle s
  | w :: rest =>
    match decodeCommand w with
    | .ok i => .run i { s with cmdPort := rest }
    | .error e => .reserved e { s with cmdPort := rest }

/-- The next line symbol, decoded in the receiver's state (R88). -/
def fetchSymbol (s : State) : Fetched :=
  match s.rxLine with
  | [] => .idle s
  | x :: rest => .run (decodeSymbol s.rxState x) { s with rxLine := rest }

/-- The input of the agent whose turn it is; the turn is used up. -/
def fetch (s : State) : Fetched :=
  match s.turns with
  | [] => .idle s
  | .host :: rest => fetchCommand { s with turns := rest }
  | .line :: rest => fetchSymbol { s with turns := rest }
  | .reset :: rest => .reset { s with turns := rest }

/-- A word placed as the next input of the command port. -/
def placeCommand (w : CmdWord) (s : State) : State :=
  { s with cmdPort := w :: s.cmdPort, turns := .host :: s.turns }

/-- A symbol placed as the next input of the line, the receiver left in its state if that selects the operation
`decodeTableWord` names, and put into `tableState` if it does not. -/
def placeSymbol (x : LineSymbol) (s : State) : State :=
  { s with
    rxLine := x :: s.rxLine
    turns := .line :: s.turns
    rxState :=
      if decodeSymbol s.rxState x = decodeSymbol (tableState x) x then s.rxState else tableState x }

/-- The input of a table word, numbered as `decodeTableWord` numbers it; a number that is no symbol and no command
word places nothing. -/
def placeTableWord (nbits w : Nat) (s : State) : State :=
  if nbits ≤ 16 then if w < 512 then placeSymbol (BitVec.ofNat 9 w) s else s
  else if nbits ≤ 32 ∧ w < 4294967296 then placeCommand (BitVec.ofNat 32 w) s
  else s

end Sys2Proof.Machine
end

