-- ==== Sys2Proof/Machine/Step.lean ====
section
/-!
DEFINITION. One step of the block: one input is taken and its operation runs to the end (R61, R62). A reserved
command word takes the refusal of R89. Waiting changes nothing (R291, U10; log entry 6).
-/

namespace Sys2Proof.Machine

/-- One step. -/
def step (s : State) : Host.Outcome State Fault Refusal :=
  match fetch s with
  | .idle t => .next t
  | .reset t => .next (resetInput t)
  | .run i t => exec i t
  | .reserved _ t => .next (refuse t)

/-- The state in which the next step takes and runs the given table word; what the environment does to load a
program, one word at a time (log entry 7). -/
def State.withFetchWord (s : State) (nbits w : Nat) : State := placeTableWord nbits w s

end Sys2Proof.Machine
end

