-- ==== Sys2Proof/Machine/Program.lean ====
section
/-!
DEFINITION. Programs in the sense of R92 (host commands and line symbols in one column, in the order the block is to
execute them), how one is loaded, and the pseudo-instructions of R93 that expand to operations of the block. They are
the assembler's; the block has no encoding for them.
-/

namespace Sys2Proof.Machine

/-- The command words of a program, in order. -/
def commandWords (prog : List Encoded) : List CmdWord :=
  prog.filterMap fun e => match e with
    | .command w => some w
    | .symbol _ => none

/-- The line symbols of a program, in order. -/
def lineSymbols (prog : List Encoded) : List LineSymbol :=
  prog.filterMap fun e => match e with
    | .command _ => none
    | .symbol x => some x

/-- Whose turn each item of a program takes. -/
def turnsOf (prog : List Encoded) : List Agent :=
  prog.map fun e => match e with
    | .command _ => .host
    | .symbol _ => .line

/-- A program issued after whatever is pending already (R92; log entry 7). -/
def State.load (prog : List Encoded) (s : State) : State :=
  { s with
    cmdPort := s.cmdPort ++ commandWords prog
    rxLine := s.rxLine ++ lineSymbols prog
    turns := s.turns ++ turnsOf prog }

/-! ### The written form of a program -/

/-- A hexadecimal digit, `0` to `F`. -/
def hexDigit (n : BitVec 4) : Char := (Nat.digitChar n.toNat).toUpper

/-- A byte as R92 writes it, `0x41`. -/
def hexByte (b : Byte) : String :=
  String.ofList ['0', 'x', hexDigit (b.extractLsb' 4 4), hexDigit (b.extractLsb' 0 4)]

/-- A word16 as R92 writes it, `0xC0C1`. -/
def hexWord (w : Word16) : String :=
  String.ofList ['0', 'x', hexDigit (w.extractLsb' 12 4), hexDigit (w.extractLsb' 8 4),
    hexDigit (w.extractLsb' 4 4), hexDigit (w.extractLsb' 0 4)]

/-- The mnemonics of R87 and R88. -/
def mnemonic : Instr → String
  | .crcUpd _ _ => "CRC.UPD"
  | .txSof => "TX.SOF"
  | .txByte _ => "TX.BYTE"
  | .txEof => "TX.EOF"
  | .seqRd => "SEQ.RD"
  | .seqInc => "SEQ.INC"
  | .rxEos => "RX.EOS"
  | .rxHuntSyn => "RX.HUNT.SYN"
  | .rxHuntDle => "RX.HUNT.DLE"
  | .rxHuntStx => "RX.HUNT.STX"
  | .rxHuntMiss _ => "RX.HUNT.MISS"
  | .rxBodyDle => "RX.BODY.DLE"
  | .rxBodyData _ => "RX.BODY.DATA"
  | .rxEscDle => "RX.ESC.DLE"
  | .rxEscEtx => "RX.ESC.ETX"
  | .rxEscBad _ => "RX.ESC.BAD"
  | .rxFcsLo _ => "RX.FCS.LO"
  | .rxFcsHi _ => "RX.FCS.HI"

/-- The operands of a command, as R92 writes them after the mnemonic. -/
def operandText : Instr → String
  | .crcUpd acc data => " " ++ hexWord acc ++ ", " ++ hexByte data
  | .txByte data => " " ++ hexByte data
  | .txSof | .txEof | .seqRd | .seqInc => ""
  | .rxEos | .rxHuntSyn | .rxHuntDle | .rxHuntStx | .rxHuntMiss _ | .rxBodyDle | .rxBodyData _
  | .rxEscDle | .rxEscEtx | .rxEscBad _ | .rxFcsLo _ | .rxFcsHi _ => ""

/-- One line of a written program (R92), for a receiver in a given state, which the comment of a line symbol depends
on. A reserved command word has no written form. -/
def programLine (st : RxState) : Encoded → Option String
  | .command w =>
    match decodeCommand w with
    | .ok i => some (mnemonic i ++ operandText i)
    | .error _ => none
  | .symbol x =>
    some ((if symEos x then "RX EOS" else "RX " ++ hexByte (symByte x)) ++ " ; " ++ mnemonic (decodeSymbol st x))

/-! ### Pseudo-instructions -/

/-- `RX.BYTES b0 b1 ...` (R93). -/
def rxBytes (bs : List Byte) : List Encoded := bs.map fun b => .symbol (byteSymbol b)

/-- `TX.FRAME h, p` as instructions (R93, R134); the assembler refuses a payload over `MAX_PAYLOAD`. -/
def txFrame (h p : List Byte) : Option (List Instr) :=
  if p.length ≤ constants.maxPayload then
    some (.txSof :: (h.map .txByte ++ p.map .txByte ++ [.txEof]))
  else none

/-- `CRC.BLOCK c, xs` (R93): each running value is the operand of the next command. -/
def crcBlock (c : Word16) : List Byte → List Instr
  | [] => []
  | x :: xs => .crcUpd c x :: crcBlock (crcUpdate c x) xs

/-- A command issued by the host: its word is the port's next, and the block takes it in one step (R61, R64). -/
def issue (i : Instr) (s : State) : State :=
  match encode i with
  | .symbol _ => s
  | .command w =>
    match step (placeCommand w s) with
    | .next t => t
    | .fault _ => s
    | .refused _ => s

/-- Commands issued one after the other, each complete before the next (R61). -/
def issueAll : List Instr → State → State
  | [], s => s
  | i :: is, s => issueAll is (issue i s)

/-- `SEQ.RD` issued, and the byte it replies; `none` without a reply, which `readSeq_eq` excludes. -/
def readSeq (s : State) : Option (Byte × State) :=
  let t := issue .seqRd s
  match t.replies.drop s.replies.length with
  | .byte v :: _ => some (v, t)
  | .word16 _ :: _ => none
  | [] => none

/-- `SEQ.CHK n` (R93, R193): `SEQ.RD` giving `s`, and the equality of all eight bits of `n` with it. -/
def seqChk (n : Byte) (s : State) : Option (Bool × State) :=
  match readSeq s with
  | some (v, t) => some (n == v, t)
  | none => none

/-- One symbol consumed by the receiver, outside any schedule (R163). -/
def rxSymbol (x : LineSymbol) (s : State) : Host.Outcome State Fault Refusal :=
  exec (decodeSymbol s.rxState x) s

/-- `RX.FRAME` (R93, R163): symbols are consumed until a step appends an event; that event, the state and the
symbols left are the result. `none`: the symbols ran out first, the receiver waits. -/
def rxFrame (s : State) : List LineSymbol → Option (Event × State × List LineSymbol)
  | [] => none
  | x :: xs =>
    match rxSymbol x s with
    | .next t =>
      match t.evt.drop s.evt.length with
      | e :: _ => some (e, t, xs)
      | [] => rxFrame t xs
    | .fault _ => none
    | .refused _ => none

/-- `RX.FRAME` on the symbols waiting on the block's own line. -/
def receiveFrame (s : State) : Option (Event × State) :=
  match rxFrame s s.rxLine with
  | some (e, t, rest) => some (e, { t with rxLine := rest })
  | none => none

/-- The receiver after it has consumed symbols, whatever they give. -/
def rxFeed (s : State) : List LineSymbol → State
  | [] => s
  | x :: xs =>
    match rxSymbol x s with
    | .next t => rxFeed t xs
    | .fault _ => s
    | .refused _ => s

/-- The block when `RX.FRAME` does not return: every waiting symbol is consumed and gave no event (R163, R291). -/
def drained (s : State) : State := { rxFeed s s.rxLine with rxLine := [] }

end Sys2Proof.Machine
end

