-- ==== Sys2Proof/Machine/HostContract.lean ====
section
/-!
DEFINITION. The environment's contract (44_host_procedures.md), as pure functions. None of it is state of the block
(R32); R4 puts it outside the hardware. It says what the host sends, how it reads what it receives and which steps its
script has; HostProcedures.lean runs them.
-/

namespace Sys2Proof.Machine

/-! ### Frame types and payloads -/

/-- The frame-type tags (R201). -/
inductive FrameType where
  | req | lt | la | dock | dack
  deriving DecidableEq, Repr

/-- The byte of a tag (R201). -/
def tagByte : FrameType → Byte
  | .req => constants.tReq
  | .lt => constants.tLt
  | .la => constants.tLa
  | .dock => constants.tDock
  | .dack => constants.tDack

/-- `type(body) = body[HDR_TYPE_INDEX]` (R202), where the body is that long. -/
def typeOf (body : List Byte) : Option Byte := body[Config.hdrTypeIndex]?

/-- `seq(body) = body[HDR_SEQ_INDEX]` (R202), where the body is that long. -/
def seqOf (body : List Byte) : Option Byte := body[Config.hdrSeqIndex]?

/-- How the host divides a delivered body into header and payload (R6, D10); the block never does (R167). A header length
over the body's length gives the whole body as header and no payload: DESIGN CHOICE, log entry 37. -/
def splitBody (body : List Byte) : Option (List Byte × List Byte) :=
  (Config.hdrSplit body).map fun n => (body.take n, body.drop n)

/-- The body has the type of a tag. -/
def isType (t : FrameType) (body : List Byte) : Bool := typeOf body == some (tagByte t)

/-- A header of a sequenced payload frame: type `T_LT`, number `s` (R212). -/
def isSequencedHeader (h : List Byte) (s : Byte) : Bool := isType .lt h && seqOf h == some s

/-- A header of the host's acknowledgement of a dock frame: type `T_LA` (R203). What else it holds is not in the
source (N7). -/
def isAckHeader (h : List Byte) : Bool := isType .la h

/-- `hdr(T_LT, s)` (R93, R212): type and number at their positions, every other byte open. Log entry 17. -/
def seqHeader (s : Byte) (payload : List Byte) : List Byte :=
  (List.range (max Config.hdrTypeIndex Config.hdrSeqIndex + 1 + Config.hdrExtra s payload)).map fun i =>
    if i = Config.hdrTypeIndex then constants.tLt
    else if i = Config.hdrSeqIndex then s
    else Config.hdrOther s payload i

/-- The header of the acknowledgement of a dock frame (R203): the type at its position, every other byte open. -/
def ackHeader (dock : List Byte) : List Byte :=
  (List.range (Config.hdrTypeIndex + 1 + Config.ackExtra dock)).map fun i =>
    if i = Config.hdrTypeIndex then constants.tLa else Config.ackOther dock i

/-- The frames the host sends, by what their header must be. -/
inductive FrameKind where
  /-- a sequenced payload frame with its number, whose acknowledgement is awaited (R212) -/
  | sequenced (number : Byte)
  /-- the disconnect frame with its number, sequenced too, whose acknowledgement is not awaited (R211, C5) -/
  | disconnect (number : Byte)
  /-- the capability frame, whose header is open (R205, N8), with the number its acknowledgement is awaited for -/
  | capability (number : Byte)
  /-- the acknowledgement of a dock frame (R203) -/
  | acknowledgement
  deriving DecidableEq, Repr

/-- The header is one of its kind. -/
def headerOk : FrameKind → List Byte → Bool
  | .sequenced s, h => isSequencedHeader h s
  | .disconnect s, h => isSequencedHeader h s
  | .capability _, _ => true
  | .acknowledgement, h => isAckHeader h

/-- The number whose acknowledgement a frame of a kind is sent for, and after which `SEQ` is advanced (R194); none for
the disconnect frame (R211, C5) and for the acknowledgement of a dock frame (R203). -/
def FrameKind.awaited : FrameKind → Option Byte
  | .sequenced v => some v
  | .capability v => some v
  | .disconnect _ => none
  | .acknowledgement => none

/-- The commands of one frame of a kind (R134); the assembler refuses another header and a payload over
`MAX_PAYLOAD`. -/
def frameProgram (k : FrameKind) (h p : List Byte) : Option (List Instr) :=
  if headerOk k h then txFrame h p else none

/-- "newtdock", the first eight characters of the four command strings (R215). -/
def newtdock : List Byte := [0x6E#8, 0x65#8, 0x77#8, 0x74#8, 0x64#8, 0x6F#8, 0x63#8, 0x6B#8]

/-- The identity-exchange payload, "newtdockdock" and `ID_FIELDS` (R206, R215). -/
def identityPayload (h : HostParams) : List Byte := newtdock ++ [0x64#8, 0x6F#8, 0x63#8, 0x6B#8] ++ h.idFields

/-- The ready-to-transfer payload, "newtdockstim" and `STIM_FIELDS` (R208, R215). -/
def readyPayload (h : HostParams) : List Byte := newtdock ++ [0x73#8, 0x74#8, 0x69#8, 0x6D#8] ++ h.stimFields

/-- The package-begin payload, "newtdocklpkg" and the length, big-endian (R214, R215). -/
def packageBeginPayload (len : BitVec 32) : List Byte :=
  newtdock ++ [0x6C#8, 0x70#8, 0x6B#8, 0x67#8] ++ be32 len

/-- The disconnect payload, "newtdockdisc" and a zero field (R211, R215). -/
def disconnectPayload : List Byte := newtdock ++ [0x64#8, 0x69#8, 0x73#8, 0x63#8] ++ be32 0#32

/-! ### Package transfer -/

/-- How many chunks a package of `len` bytes has: `ceil(len / C)` (R213). -/
def chunkCount (len : Nat) : Nat := (len + constants.maxChunk - 1) / constants.maxChunk

/-- The chunks of a package, unpadded (R213). -/
def chunks (pkg : List Byte) : List (List Byte) :=
  (List.range (chunkCount pkg.length)).map fun k =>
    (pkg.drop (k * constants.maxChunk)).take constants.maxChunk

/-- A chunk right-padded with zero bytes to a multiple of `PAD_ALIGN` (R213, C2). -/
def padChunk (c : List Byte) : List Byte :=
  c ++ List.replicate
    ((constants.padAlign - c.length % constants.padAlign) % constants.padAlign) 0x00#8

/-- The payloads of `transfer(package)`, each sent by `SEND.SEQ` (R214). -/
def transferPayloads (pkg : List Byte) : List (List Byte) :=
  packageBeginPayload (BitVec.ofNat 32 pkg.length) :: (chunks pkg).map padChunk

/-! ### Error kinds -/

/-- The host's error kinds (R217). -/
inductive HostError where
  | frameIncomplete | checksumMismatch | unexpectedFrameType | streamClosed | nameDecodeFailure
  | transferFailed | timeout
  deriving DecidableEq, Repr

/-- Whether an error kind ends the session (R217); `none` where the source does not say. -/
def isFatal : HostError → Option Bool
  | .frameIncomplete => some false
  | .checksumMismatch => some false
  | .unexpectedFrameType => some false
  | .streamClosed => some true
  | .nameDecodeFailure => some false
  | .transferFailed => none
  | .timeout => none

/-! ### The waits -/

/-- What the host waits for. -/
inductive Wait where
  /-- the connection request of step 1 (R204) -/
  | request
  /-- a dock frame, in steps 3, 4 and 6 (R206, R207, R209) -/
  | dock
  /-- the acknowledgement with a number: `WAIT.ACK s` (R202) -/
  | ack (s : Byte)
  deriving DecidableEq, Repr

/-- What the host does with the result of one `RX.FRAME` while it waits. -/
inductive WaitAction where
  /-- send the acknowledgement frame of R203, then go on waiting -/
  | acknowledgeDock (body : List Byte)
  /-- the frame waited for -/
  | succeed (body : List Byte)
  /-- discard, log the error kind raised, if any (which are logged: log entry 35), go on waiting -/
  | discard (raised : Option HostError)
  /-- `StreamClosed` -/
  | failClosed
  deriving DecidableEq, Repr

/-- The reaction to a verified frame. A frame not waited for is `UnexpectedFrameType` (R217); only `WAIT.ACK`
acknowledges dock frames on the way (R202, R203), step 1 discards every other frame (R204). Log entry 33.
In the waits of steps 4 and 6 any dock frame is the one waited for, a keep-alive too: DESIGN CHOICE, log entry 34. -/
def frameReaction (body : List Byte) : Wait → WaitAction
  | .request => if isType .req body then .succeed body else .discard (some .unexpectedFrameType)
  | .dock => if isType .dock body then .succeed body else .discard (some .unexpectedFrameType)
  | .ack s =>
    if isType .dock body then .acknowledgeDock body
    else if isType .dack body && seqOf body == some s then .succeed body
    else .discard (some .unexpectedFrameType)

/-- The reaction of a wait to one event; `closed` is the host's own judgement of its stream (R202, R258). The kinds of
R253 and R255 are treated as a checksum mismatch. Log entries 16 and 30. -/
def waitReaction (w : Wait) (closed : Bool) : Event → WaitAction
  | .frameOk body => frameReaction body w
  | .failed .checksumMismatch => .discard (some .checksumMismatch)
  | .failed .escapeViolation => .discard (some .checksumMismatch)
  | .failed .rxOverrun => .discard (some .checksumMismatch)
  | .failed .frameIncomplete => if closed then .failClosed else .discard (some .frameIncomplete)
  | .cmdRefused => .discard none

/-- The error kinds a reaction raises, which are those logged. R217 says that `UnexpectedFrameType` is logged; that
`FrameIncomplete`, `ChecksumMismatch` and `StreamClosed` are too is DESIGN CHOICE, log entry 35. -/
def WaitAction.raised : WaitAction → List HostError
  | .acknowledgeDock _ => []
  | .succeed _ => []
  | .discard r => r.toList
  | .failClosed => [.streamClosed]

/-- How a wait stands after some events. -/
inductive WaitVerdict where
  | succeeded | streamClosed | waiting
  deriving DecidableEq, Repr

/-- `WAIT.ACK s` as a function of the events of successive `RX.FRAME`s, each with the host's judgement of the stream at
that moment (R202): the dock frames acknowledged, in order, and the verdict. There is no bound (R291). The wait that
runs `RX.FRAME` itself is `waitFor`; `waitFor_ack_cases` says that the two agree. -/
def waitAck (s : Byte) : List (Event × Bool) → List (List Byte) × WaitVerdict
  | [] => ([], .waiting)
  | (e, closed) :: rest =>
    match waitReaction (.ack s) closed e with
    | .acknowledgeDock body => (body :: (waitAck s rest).1, (waitAck s rest).2)
    | .succeed _ => ([], .succeeded)
    | .discard _ => waitAck s rest
    | .failClosed => ([], .streamClosed)

/-! ### The session -/

/-- What surfaces as `SessionResult::Failed` (R217). -/
inductive SessionFailure where
  | streamFailure | operatorAbort
  deriving DecidableEq, Repr

/-- What `LogSink` is given: an error kind raised, or the reason of a terminal failure (R217, R219). -/
inductive LogMessage where
  | raised (e : HostError)
  | terminal (reason : SessionFailure)
  deriving DecidableEq, Repr

/-- What `run` returns (R216). -/
inductive SessionResult where
  | closed
  | failed (reason : SessionFailure)
  deriving DecidableEq, Repr

/-- What `transfer` returns (R214). -/
inductive TransferResult where
  | success | transferFailed
  deriving DecidableEq, Repr

/-- One step of the host's script (R204 to R211). What each does is `runStep`. -/
inductive HostStep where
  /-- wait for a frame of type `T_REQ` (R204) -/
  | awaitRequest
  /-- send the capability frame, wait for its acknowledgement, `SEQ.INC` (R205) -/
  | negotiate (payload : List Byte)
  /-- wait for a dock frame and acknowledge it (R206; R209: the first one corresponds, DESIGN CHOICE, log entry 34) -/
  | awaitDock
  /-- wait for the identity frame (the first dock frame: DESIGN CHOICE, log entry 34), acknowledge it, decode the owner
  name (R207) -/
  | awaitIdentity
  /-- `SEND.SEQ` of a payload (R212) -/
  | sendSeq (payload : List Byte)
  /-- `transfer(package)` (R210, R214) -/
  | transfer (pkg : List Byte)
  /-- send the disconnect frame and close; no wait, no `SEQ.INC` (R211, C5) -/
  | disconnect
  deriving DecidableEq, Repr

/-- The handshake, steps 1 to 6 (R204 to R209). -/
def handshake (h : HostParams) : List HostStep :=
  [.awaitRequest, .negotiate Config.capBlob.toList, .awaitDock, .sendSeq (identityPayload h), .awaitIdentity,
    .sendSeq (readyPayload h), .awaitDock]

/-- The whole script of one session (R204 to R211), after the reset of R281. -/
def session (h : HostParams) (packages : List (List Byte)) : List HostStep :=
  handshake h ++ packages.map .transfer ++ [.disconnect]

/-- How many `SEQ.INC` a step of the script issues when it completes (R194; `runStep_keeps`). -/
def incsOf : HostStep → Nat
  | .awaitRequest => 0
  | .negotiate _ => 1
  | .awaitDock => 0
  | .awaitIdentity => 0
  | .sendSeq _ => 1
  | .transfer pkg => (transferPayloads pkg).length
  | .disconnect => 0

end Sys2Proof.Machine
end

