-- ==== Sys2Proof/Machine/HostProcedures.lean ====
section
/-!
DEFINITION. The environment's contract, run: the host of 44_host_procedures.md as functions that drive the block
through its command port and its lines. Every command is a `step` of the block (`issue`), every frame taken is
`RX.FRAME` on its line. What the peer sends during a whole session is `rxLine`, any list of symbols (R63); none of this
is state of the block (R32).
-/

namespace Sys2Proof.Machine

/-! ### What the host does and remembers -/

/-- One act of the host toward the block or its stream (R220). The transmit commands say which part of a frame they
send, which the block cannot see. -/
inductive HostAct where
  /-- the reset input -/
  | reset
  /-- `TX.SOF` of a frame of a kind -/
  | txSof (kind : FrameKind)
  /-- `TX.BYTE` of a header byte -/
  | txHeader (b : Byte)
  /-- `TX.BYTE` of a payload byte -/
  | txPayload (b : Byte)
  /-- `TX.EOF` -/
  | txEof
  /-- `CRC.UPD` -/
  | crcUpd (acc : Word16) (data : Byte)
  /-- `SEQ.RD` -/
  | seqRd
  /-- `SEQ.INC` -/
  | seqInc
  /-- the next event of `EVT` taken, in a wait or outside any -/
  | took (wait : Option Wait) (event : Event)
  /-- the stream released -/
  | release
  deriving DecidableEq, Repr

/-- The commands an act issues. -/
def HostAct.commands : HostAct → List Instr
  | .reset => []
  | .txSof _ => [.txSof]
  | .txHeader b => [.txByte b]
  | .txPayload b => [.txByte b]
  | .txEof => [.txEof]
  | .crcUpd acc data => [.crcUpd acc data]
  | .seqRd => [.seqRd]
  | .seqInc => [.seqInc]
  | .took _ _ => []
  | .release => []

/-- The acts of one frame: `TX.FRAME` (R134). -/
def frameActs (k : FrameKind) (h p : List Byte) : List HostAct :=
  .txSof k :: (h.map .txHeader ++ p.map .txPayload ++ [.txEof])

/-- A session: the block, the host's own state and collaborators (R216, R218, R219), and its inputs. -/
structure Session where
  /-- the block; its `rxLine` is everything the peer still sends -/
  block : State
  /-- input: the open byte strings of the host (R6) -/
  host : HostParams
  /-- input: the host's judgement of its stream at each coming `FrameIncomplete`, "closed" or not (R202, R258); not
  closed when the list has run out -/
  judgements : List Bool
  /-- input: the script step before which the operator aborts, if any (R217). Log entry 31. -/
  abortBefore : Option Nat
  /-- SessionState (R218) -/
  phase : SessionState
  /-- everything the host has done, oldest first -/
  acts : List HostAct
  /-- `LogSink`: the error kinds raised and a terminal failure's reason (R217, R219) -/
  log : List LogMessage
  /-- `ProgressSink`: the fractions reported, `bytes_sent` over `total_length` (R214, R219) -/
  progress : List (Nat × Nat)
  /-- the owner name, where it could be decoded (R207) -/
  ownerName : Option (List Byte)
  /-- the stream has been released (R216) -/
  released : Bool
  deriving DecidableEq, Repr

/-- Why a procedure did not complete. -/
inductive Ending where
  /-- a fatal error kind (R217) -/
  | failed (e : HostError)
  /-- the operator aborts (R217) -/
  | aborted
  /-- the peer sends nothing more that ends the wait: the host blocks for ever, which is no fault (R291 (a), (b)) -/
  | waiting (w : Wait)
  /-- the assembler refuses a frame, its payload being over `MAX_PAYLOAD` (R93). Log entry 29. -/
  | refused
  /-- a command gave no reply; `runScript_not_stuck` says that the session's procedures never end so -/
  | stuck
  deriving DecidableEq, Repr

/-- How a procedure ends. -/
inductive Ran (α : Type) where
  | done (a : α) (s : Session)
  | stopped (why : Ending) (s : Session)
  deriving DecidableEq, Repr

/-- One procedure after another; a stop stops all. -/
def Ran.andThen {α β : Type} (r : Ran α) (f : α → Session → Ran β) : Ran β :=
  match r with
  | .done a s => f a s
  | .stopped why s => .stopped why s

/-- Acts done: their commands issued in order, the acts remembered. -/
def perform (as : List HostAct) (s : Session) : Session :=
  { s with block := issueAll (as.flatMap HostAct.commands) s.block, acts := s.acts ++ as }

/-- One frame sent (R134), if the assembler takes it (R93). -/
def sendFrame (k : FrameKind) (h p : List Byte) (s : Session) : Ran Unit :=
  match frameProgram k h p with
  | some _ => .done () (perform (frameActs k h p) s)
  | none => .stopped .refused s

/-- `SEQ.RD` giving the current number (R191). -/
def readNumber (s : Session) : Ran Byte :=
  match readSeq s.block with
  | some (v, b) => .done v { s with block := b, acts := s.acts ++ [.seqRd] }
  | none => .stopped .stuck s

/-- The acknowledgement of a dock frame; it does not advance `SEQ` (R203). -/
def acknowledge (dock : List Byte) (s : Session) : Ran Unit :=
  sendFrame .acknowledgement (ackHeader dock) [] s

/-! ### The waits -/

/-- The host's judgement of its stream at an event, and the judgements left: one is used at each `FrameIncomplete`. -/
def judge (e : Event) (js : List Bool) : Bool × List Bool :=
  match e, js with
  | .failed .frameIncomplete, j :: rest => (j, rest)
  | _, js => (false, js)

/-- What the host remembers of one result of `RX.FRAME`. -/
def takeEvent (w : Wait) (e : Event) (b : State) (s : Session) : Session :=
  let a := waitReaction w (judge e s.judgements).1 e
  { s with
    block := b
    judgements := (judge e s.judgements).2
    acts := s.acts ++ [.took (some w) e]
    log := s.log ++ a.raised.map .raised }

/-- The loop of R202 (and of R204, R206): `RX.FRAME` until the frame waited for. Each turn consumes a symbol, so as many
turns as there are symbols exhaust them; then the host waits for ever (R291). -/
def waitLoop (w : Wait) : Nat → Session → Ran (List Byte)
  | 0, s => .stopped (.waiting w) s
  | n + 1, s =>
    match receiveFrame s.block with
    | none => .stopped (.waiting w) { s with block := drained s.block }
    | some (e, b) =>
      match waitReaction w (judge e s.judgements).1 e with
      | .acknowledgeDock body =>
        (acknowledge body (takeEvent w e b s)).andThen fun _ t => waitLoop w n t
      | .succeed body => .done body (takeEvent w e b s)
      | .discard _ => waitLoop w n (takeEvent w e b s)
      | .failClosed => .stopped (.failed .streamClosed) (takeEvent w e b s)

/-- A wait. `waitFor (.ack s)` is the pseudo-instruction `WAIT.ACK s` (R93, R202), `waitFor .request` is step 1
(R204). -/
def waitFor (w : Wait) (s : Session) : Ran (List Byte) := waitLoop w s.block.rxLine.length s

/-- Wait for a dock frame and acknowledge it (R206, R207, R209). Keep-alive frames have the same type and no inbound
layout is given (N22), so which dock frame carries the identity (R207) or corresponds (R209) is open: the first one to
come is taken. DESIGN CHOICE, log entry 34. -/
def takeDock (s : Session) : Ran (List Byte) :=
  (waitFor .dock s).andThen fun body t => (acknowledge body t).andThen fun _ u => .done body u

/-! ### Sending -/

/-- A frame sent, its acknowledgement awaited, the number advanced: exactly once, after the acknowledgement (R194). -/
def sendAcknowledged (k : FrameKind) (h p : List Byte) (v : Byte) (s : Session) : Ran Unit :=
  (sendFrame k h p s).andThen fun _ t =>
    (waitFor (.ack v) t).andThen fun _ u => .done () (perform [.seqInc] u)

/-- `SEND.SEQ p` (R93, R212): `s = SEQ.RD`; `TX.FRAME hdr(T_LT, s), p`; `WAIT.ACK s`; `SEQ.INC`. -/
def sendSeq (p : List Byte) (s : Session) : Ran Unit :=
  (readNumber s).andThen fun v t => sendAcknowledged (.sequenced v) (seqHeader v p) p v t

/-- Step 2 (R205). -/
def negotiate (payload : List Byte) (s : Session) : Ran Unit :=
  (readNumber s).andThen fun v t => sendAcknowledged (.capability v) (Config.capHeader v) payload v t

/-- The best-effort decoding of step 4 (R207): on failure the name is left out, the failure logged, the session goes
on. -/
def decodeOwner (body : List Byte) (s : Session) : Session :=
  match Config.decodeOwnerName body with
  | some name => { s with ownerName := some name }
  | none => { s with log := s.log ++ [.raised .nameDecodeFailure] }

/-- How much of a chunk `bytes_sent` counts (R214; open, N18). -/
def countedLength (c : List Byte) : Nat := if Config.paddingCounts then (padChunk c).length else c.length

/-- Steps 2 and 3 of `transfer` (R214): each padded chunk by `SEND.SEQ`, progress reported after it. -/
def sendChunks (total sent : Nat) : List (List Byte) → Session → Ran Unit
  | [], s => .done () s
  | c :: cs, s =>
    (sendSeq (padChunk c) s).andThen fun _ t =>
      sendChunks total (sent + countedLength c) cs
        { t with progress := t.progress ++ [(sent + countedLength c, total)] }

/-- What a failure leaves in the log of a transfer (R214, R217). Log entry 32. -/
def noteTransfer : Ran Unit → Ran Unit
  | .done _ s => .done () s
  | .stopped (.failed e) s => .stopped (.failed e) { s with log := s.log ++ [.raised .transferFailed] }
  | .stopped .aborted s => .stopped .aborted s
  | .stopped (.waiting w) s => .stopped (.waiting w) s
  | .stopped .refused s => .stopped .refused s
  | .stopped .stuck s => .stopped .stuck s

/-- `transfer(package)` (R214). -/
def transfer (pkg : List Byte) (s : Session) : Ran Unit :=
  noteTransfer ((sendSeq (packageBeginPayload (BitVec.ofNat 32 pkg.length)) s).andThen fun _ t =>
    sendChunks pkg.length 0 (chunks pkg) t)

/-- What `transfer` returns; `none` when it does not return (R214). -/
def transferResult : Ran Unit → Option TransferResult
  | .done _ _ => some .success
  | .stopped (.failed _) _ => some .transferFailed
  | .stopped .aborted _ => none
  | .stopped (.waiting _) _ => none
  | .stopped .refused _ => none
  | .stopped .stuck _ => none

/-- The stream released (R216). -/
def releaseStream (s : Session) : Session := { perform [.release] s with released := true }

/-- Step 8 (R211): the disconnect frame with the current number, no wait, no `SEQ.INC`, the stream closed. -/
def disconnect (s : Session) : Ran Unit :=
  (readNumber s).andThen fun v t =>
    (sendFrame (.disconnect v) (seqHeader v disconnectPayload) disconnectPayload t).andThen fun _ u =>
      .done () (releaseStream u)

/-! ### The session -/

/-- The meaning of each step of the script (R204 to R211). -/
def runStep : HostStep → Session → Ran Unit
  | .awaitRequest, s => (waitFor .request s).andThen fun _ t => .done () t
  | .negotiate payload, s => negotiate payload s
  | .awaitDock, s => (takeDock s).andThen fun _ t => .done () t
  | .awaitIdentity, s => (takeDock s).andThen fun body t => .done () (decodeOwner body t)
  | .sendSeq payload, s => sendSeq payload s
  | .transfer pkg, s => transfer pkg s
  | .disconnect, s => disconnect s

/-- Which of the steps 1 to 8 (R204 to R211) the `k`-th entry of a session's script belongs to. -/
def stepNumber (k : Nat) : HostStep → Nat
  | .awaitRequest => 1
  | .negotiate _ => 2
  | .awaitDock => if k < 4 then 3 else 6
  | .awaitIdentity => 4
  | .sendSeq _ => if k < 4 then 3 else 5
  | .transfer _ => 7
  | .disconnect => 8

/-- The state name while the `k`-th entry of the script runs: `AwaitingPeerRequest` in step 1, open in the others (R218,
N11). That a name is taken up when an entry starts, and step 1 has one name throughout, is DESIGN CHOICE, log entry 24. -/
def phaseIn (k : Nat) (st : HostStep) : SessionState :=
  if stepNumber k st = 1 then .awaitingPeerRequest else Config.sessionStateIn (stepNumber k st) k

/-- The steps of a script from the `k`-th on, in order. -/
def runScript (k : Nat) : List HostStep → Session → Ran Unit
  | [], s => .done () s
  | st :: rest, s =>
    if s.abortBefore = some k then .stopped .aborted s
    else (runStep st { s with phase := phaseIn k st }).andThen fun _ t => runScript (k + 1) rest t

/-- The reset input asserted, as the block's next step (R280). -/
def assertReset (s : State) : State :=
  match step { s with turns := .reset :: s.turns } with
  | .next t => t
  | .fault _ => s
  | .refused _ => s

/-- The start of `run`: the reset before any command (R216, R220, R281). -/
def startSession (s : Session) : Session :=
  { s with
    block := assertReset s.block
    phase := .awaitingPeerRequest
    acts := [.reset]
    log := []
    progress := []
    ownerName := none
    released := false }

/-- A session that fails (R216, R217): the reason logged, the stream released. -/
def failSession (reason : SessionFailure) (s : Session) : Option SessionResult × Session :=
  (some (.failed reason), { releaseStream s with phase := .failed, log := s.log ++ [.terminal reason] })

/-- How a script's ending is reported (R216, R217): the stream is released on every exit, a failed session is not
retried. `none`: `run` has not returned; the host still waits, or its program was refused by the assembler. -/
def finishSession : Ran Unit → Option SessionResult × Session
  | .done _ s => (some .closed, { s with phase := .closed })
  | .stopped (.failed _) s => failSession .streamFailure s
  | .stopped .aborted s => failSession .operatorAbort s
  | .stopped (.waiting _) s => (none, s)
  | .stopped .refused s => (none, s)
  | .stopped .stuck s => (none, s)

/-- `run(stream, packages, on_log, on_progress) -> SessionResult` (R216). -/
def runSession (packages : List (List Byte)) (s : Session) : Option SessionResult × Session :=
  finishSession (runScript 0 (session s.host packages) (startSession s))

/-! ### The host's duties -/

/-- A frame of the host that is open. -/
structure OpenFrame where
  kind : FrameKind
  /-- header bytes sent so far -/
  header : List Byte
  /-- payload bytes sent so far -/
  payload : List Byte
  deriving DecidableEq, Repr

/-- The one payload frame that may be outstanding (R212). -/
inductive Outstanding where
  | nothing
  /-- sent with a number, its acknowledgement not taken yet -/
  | sent (number : Byte)
  /-- acknowledged, its `SEQ.INC` due (R194) -/
  | acknowledged
  /-- the disconnect frame sent: nothing is awaited and no `SEQ.INC` follows, whatever comes (R194, R211, C5) -/
  | disconnected
  deriving DecidableEq, Repr

/-- What the duties of R220 remember of a host's acts so far. -/
structure DutyState where
  /-- the block has been reset -/
  live : Bool
  /-- the frame being sent -/
  frame : Option OpenFrame
  /-- the last payload frame -/
  outstanding : Outstanding
  /-- how many dock frames have been taken whose acknowledgement is due -/
  dock : Nat
  /-- still in step 1: no request taken, no payload frame opened, no other wait (R204) -/
  requesting : Bool
  /-- how many events have been taken from `EVT` -/
  taken : Nat
  /-- the stream has been released -/
  released : Bool
  deriving DecidableEq, Repr

/-- Nothing done yet. -/
def DutyState.start : DutyState := ⟨false, none, .nothing, 0, true, 0, false⟩

/-- Between the reset and the release. -/
def DutyState.running (q : DutyState) : Bool := q.live && !q.released

/-- A frame of a kind may be opened: none is open; the acknowledgement frame for a dock frame taken, a payload frame with
no dock frame to acknowledge and nothing outstanding, neither an acknowledgement nor a `SEQ.INC` (R203, R212, R220). -/
def DutyState.mayOpen (q : DutyState) (k : FrameKind) : Bool :=
  q.frame.isNone && match k with
    | .sequenced _ => q.outstanding == .nothing && q.dock == 0
    | .capability _ => q.outstanding == .nothing && q.dock == 0
    | .disconnect _ => q.outstanding == .nothing && q.dock == 0
    | .acknowledgement => q.dock != 0

/-- What opening a frame does; a payload frame ends step 1. -/
def DutyState.frameOpened (q : DutyState) (k : FrameKind) : DutyState :=
  { q with frame := some ⟨k, [], []⟩, requesting := q.requesting && k == .acknowledgement }

/-- What a frame sent in full leaves due. -/
def DutyState.frameSent (q : DutyState) (k : FrameKind) : DutyState :=
  match k with
  | .sequenced v => { q with frame := none, outstanding := .sent v }
  | .capability v => { q with frame := none, outstanding := .sent v }
  | .disconnect _ => { q with frame := none, outstanding := .disconnected }
  | .acknowledgement => { q with frame := none, dock := q.dock - 1 }

/-- The bytes of a frame are those of its kind: the header's, and for the disconnect frame the payload's too (R211). -/
def OpenFrame.complete (f : OpenFrame) : Bool :=
  headerOk f.kind f.header && match f.kind with
    | .sequenced _ => true
    | .capability _ => true
    | .disconnect _ => f.payload == disconnectPayload
    | .acknowledgement => true

/-- An event may be taken. In a wait: no frame is open and no dock frame is to be acknowledged first (R203); the wait for
the request is step 1 (R204), `WAIT.ACK` is for the number just sent (R202), and no wait follows the disconnect frame
(R211). Outside a wait: also while a payload frame is open, which is then finished before any acknowledgement (R288), but
not while the acknowledgement of a dock frame is due or being sent (R203). -/
def DutyState.mayTake (q : DutyState) : Option Wait → Bool
  | none =>
    match q.frame with
    | some f => f.kind != .acknowledgement
    | none => q.dock == 0
  | some .request => q.frame.isNone && q.dock == 0 && q.requesting
  | some .dock => q.frame.isNone && q.dock == 0 && q.outstanding != .disconnected
  | some (.ack v) => q.frame.isNone && q.dock == 0 && q.outstanding == .sent v

/-- What is outstanding after a frame received: the frame sent is acknowledged by a `T_DACK` frame with its number. -/
def Outstanding.received (body : List Byte) : Outstanding → Outstanding
  | .nothing => .nothing
  | .sent v => if isType .dack body && seqOf body == some v then .acknowledged else .sent v
  | .acknowledged => .acknowledged
  | .disconnected => .disconnected

/-- Still in step 1 after an event of a wait. -/
def stillRequesting : Option Wait → Event → Bool
  | some .dock, _ => false
  | some (.ack _), _ => false
  | some .request, .frameOk body => !isType .req body
  | some .request, .failed _ => true
  | some .request, .cmdRefused => true
  | none, .frameOk body => !isType .req body
  | none, .failed _ => true
  | none, .cmdRefused => true

/-- What an event taken leaves due. The event alone decides: a dock frame is to be acknowledged, unless it was taken in
step 1's wait, which discards it (R203, R204); a matching acknowledgement makes a `SEQ.INC` due (R194). -/
def DutyState.eventTaken (q : DutyState) (w : Option Wait) (e : Event) : DutyState :=
  { q with
    taken := q.taken + 1
    requesting := q.requesting && stillRequesting w e
    dock := match e with
      | .frameOk body => if isType .dock body && w != some .request then q.dock + 1 else q.dock
      | .failed _ => q.dock
      | .cmdRefused => q.dock
    outstanding := match e with
      | .frameOk body => q.outstanding.received body
      | .failed _ => q.outstanding
      | .cmdRefused => q.outstanding }

/-- The table of R220 act by act, beside the `EVT` of the block; `none`: a duty is broken. Reset before anything else; the
transmit commands of a frame in order, header bytes before payload bytes, with the right header and a payload within
`MAX_PAYLOAD`, `SEQ.RD` and `CRC.UPD` free to stand in between; the events that stand in `EVT`, in order; the
acknowledgement of a dock frame before the wait is resumed, and never inside an open frame (R288); `SEQ.INC` once per
acknowledged payload frame, after the acknowledgement and before the next sequenced send, and none for the disconnect
frame; nothing after the release. Log entry 36. -/
def dutyStep (evt : List Event) (q : DutyState) (a : HostAct) : Option DutyState :=
  match a with
  | .reset => if q = .start then some { q with live := true } else none
  | .txSof k => if q.running && q.mayOpen k then some (q.frameOpened k) else none
  | .txHeader b =>
    match q.frame with
    | some f =>
      if q.running && f.payload == [] then some { q with frame := some { f with header := f.header ++ [b] } } else none
    | none => none
  | .txPayload b =>
    match q.frame with
    | some f =>
      if q.running && decide (f.payload.length < constants.maxPayload) then
        some { q with frame := some { f with payload := f.payload ++ [b] } }
      else none
    | none => none
  | .txEof =>
    match q.frame with
    | some f => if q.running && f.complete then some (q.frameSent f.kind) else none
    | none => none
  | .crcUpd _ _ => if q.running then some q else none
  | .seqRd => if q.running then some q else none
  | .seqInc => if q.running && q.outstanding == .acknowledged then some { q with outstanding := .nothing } else none
  | .took w e => if q.running && q.mayTake w && evt[q.taken]? == some e then some (q.eventTaken w e) else none
  | .release => if q.running then some { q with released := true } else none

/-- The duties along a list of acts. -/
def dutyRun (evt : List Event) (q : DutyState) : List HostAct → Option DutyState
  | [] => some q
  | a :: rest =>
    match dutyStep evt q a with
    | some r => dutyRun evt r rest
    | none => none

/-- A host that has kept every duty of R220 through a whole `run`, beside the `EVT` of its block: the stream is released,
no dock frame is left without its acknowledgement and no acknowledged frame without its `SEQ.INC`. -/
def keepsDuties (evt : List Event) (acts : List HostAct) : Bool :=
  match dutyRun evt .start acts with
  | some q => q.released && q.dock == 0 && q.outstanding != .acknowledged
  | none => false

/-! ### A peer that always acknowledges -/

/-- What such a peer sends for one step of the script, given the current number: the type, and the number where the
host looks at it (S7 of 95_test_vectors.md). -/
def answersTo (v : Byte) : HostStep → List (FrameType × Option Byte)
  | .awaitRequest => [(.req, none)]
  | .negotiate _ => [(.dack, some v)]
  | .awaitDock => [(.dock, none)]
  | .awaitIdentity => [(.dock, none)]
  | .sendSeq _ => [(.dack, some v)]
  | .transfer pkg => (List.range (transferPayloads pkg).length).map fun k => (.dack, some (v + BitVec.ofNat 8 k))
  | .disconnect => []

/-- What it sends for a whole script. -/
def answers (v : Byte) : List HostStep → List (FrameType × Option Byte)
  | [] => []
  | st :: rest => answersTo v st ++ answers (v + BitVec.ofNat 8 (incsOf st)) rest

/-- A body is such an answer. -/
def isAnswer (body : List Byte) (a : FrameType × Option Byte) : Prop :=
  isType a.1 body = true ∧ ∀ n, a.2 = some n → seqOf body = some n

/-- The symbols of frames sent one after the other. -/
def framesOnLine (bodies : List (List Byte)) : List LineSymbol :=
  bodies.flatMap fun b => (encodeBody b).map byteSymbol

end Sys2Proof.Machine
end

