-- ==== Sys2Proof/Safety.lean ====
section
/-!
DEFINITION. What holds of every reachable state (R35), and the words the statements use: running a number of steps,
and states that agree up to the order of events.
-/

namespace Sys2Proof.Machine

/-- R35 (a) and (f): while a frame is open, the line from its start marker on, and `CRC_TX`, are those of the
operands of the `TX.BYTE` commands since its `TX.SOF`. -/
def State.TxInv (s : State) : Prop :=
  s.txState = .txBody →
    ∃ before xs, s.txLine = before ++ startMarker ++ stuff xs ∧ s.crcTx = crcBytes 0x0000#16 xs

/-- R35 (b) to (e): what the receiver holds in each of its states. -/
def State.RxInv (s : State) : Prop :=
  (s.rxState = .body ∨ s.rxState = .esc → s.crcRx = crcBytes 0x0000#16 s.rxBuf) ∧
  (s.rxState = .fcs0 ∨ s.rxState = .fcs1 → s.crcRx = crcBytes 0x0000#16 (s.rxBuf ++ [0x03#8])) ∧
  (s.rxState = .hunt0 ∨ s.rxState = .hunt1 ∨ s.rxState = .hunt2 → s.rxBuf = []) ∧
  (∀ cap, s.params.rxCap = some cap → s.rxBuf.length ≤ cap)

/-- The invariants of R35. -/
def State.Inv (s : State) : Prop := s.TxInv ∧ s.RxInv

/-- `n` steps of the block, the host's `Host.Core.run` of `Sys2Proof.core` (`run_eq_core_run`, Laws/Run.lean). -/
def run : Nat → State → Host.Outcome State Fault Refusal
  | 0, s => .next s
  | n + 1, s =>
    match step s with
    | .next t => run n t
    | .fault r => .fault r
    | .refused r => .refused r

/-- Two states agree in everything but the order in which receiver events and refusals stand among each other in
`EVT` (R60). -/
def State.sameButEventOrder (a b : State) : Prop :=
  { a with evt := [] } = { b with evt := [] } ∧
  a.evt.filter Event.fromReceiver = b.evt.filter Event.fromReceiver ∧
  a.evt.filter (fun e => !e.fromReceiver) = b.evt.filter (fun e => !e.fromReceiver)

/-- A run is safe when every state along it meets the invariants and no step stops. -/
def State.SafeFor (s : State) : Nat → Prop
  | 0 => s.Inv
  | n + 1 => s.Inv ∧ ∃ t, step s = .next t ∧ t.SafeFor n

end Sys2Proof.Machine
end

