-- ==== Sys2Proof/Certificates/Slice0/Obligations.lean ====
section
/-!
DEFINITION. The statements for the provers. Each docstring names the rules of spec/ it rests on. The words
"DESIGN CHOICE" name the log entry of a choice that is the model's. Every statement about `step` or `run` speaks of
`turns`, the schedule, and of the inputs not taken yet: the spec fixes no schedule (R60), so this is a DESIGN CHOICE,
log entry 3, and such a statement says so by "on the schedule".
-/

open Sys2Proof Sys2Proof.Machine

/-! ### Encoding and decoding -/

/-- Words of each format written out from R80, R81, R87 and R88 decode to what they stand for; reserved words of
R89 do not decode. -/
def Obligations.TableWordsDecode : Prop :=
  decodeCommand 0x10C0C141#32 = .ok (.crcUpd 0xC0C1#16 0x41#8) ∧
  decodeCommand 0x20000000#32 = .ok .txSof ∧
  decodeCommand 0x30000010#32 = .ok (.txByte 0x10#8) ∧
  decodeCommand 0x50000000#32 = .ok .seqRd ∧
  decodeCommand 0x20000001#32 = .error .dataNotZero ∧
  decodeCommand 0x60000100#32 = .error .accNotZero ∧
  decodeCommand 0x51000000#32 = .error .rsvNotZero ∧
  decodeCommand 0x70000000#32 = .error (.reservedOp 0x7#4) ∧
  decodeSymbol .hunt1 0x010#9 = .rxHuntDle ∧
  decodeSymbol .body 0x010#9 = .rxBodyDle ∧
  decodeSymbol .esc 0x010#9 = .rxEscDle ∧
  decodeSymbol .hunt0 0x010#9 = .rxHuntMiss 0x10#8 ∧
  decodeSymbol .fcs1 0x010#9 = .rxFcsHi 0x10#8 ∧
  decodeSymbol .fcs1 0x110#9 = .rxEos

/-- R87, R88: every well-formed instruction, with every operand value, is what its encoding decodes to, in every
receiver state that selects it, and some state does. -/
def Obligations.DecodeOfEncode : Prop :=
  ∀ i : Instr, i.wf = true →
    (∃ st, i.selectedIn st = true) ∧
    ∀ st, i.selectedIn st = true → decode st (encode i) = .ok i

/-- R87, R89: each command word has one meaning; a word that decodes is the encoding of what it decodes to. R88: so
has each symbol of a byte, in each receiver state, and what is decoded is well-formed and selected there. -/
def Obligations.EncodeOfDecode : Prop :=
  (∀ w i, decodeCommand w = .ok i → i.isCommand = true ∧ encode i = .command w) ∧
  (∀ st x, (decodeSymbol st x).isCommand = false ∧ (decodeSymbol st x).wf = true ∧
    (decodeSymbol st x).selectedIn st = true) ∧
  (∀ st b, encode (decodeSymbol st (byteSymbol b)) = .symbol (byteSymbol b))

/-- R87, R88, R89 and the rows of spec/opcode_table.json: every state and symbol select exactly one format-L row, and
it is the row of the operation the decoder gives; a command word matches at most one format-H row, decodes exactly when
it matches one, and then to that row's operation. -/
def Obligations.InputSelectsOneTableRow : Prop :=
  (∀ st x, (selectedRows st x).map SymbolRow.op = [(decodeSymbol st x).opName]) ∧
  ∀ w, (∀ i, decodeCommand w = .ok i → (commandTable.filter (·.covers w)).map CommandRow.op = [i.opName]) ∧
    (∀ e, decodeCommand w = .error e → commandTable.filter (·.covers w) = [])

/-- R89: which words are reserved, and that the block executes `refuse` on one and changes nothing else.
On the schedule of log entry 3 (DESIGN CHOICE). -/
def Obligations.ReservedWordIsRefused : Prop :=
  ∀ w : CmdWord,
    ((∃ e, decodeCommand w = .error e) ↔
      ((w.extractLsb' 28 4 = 0#4 ∨ 7#4 ≤ w.extractLsb' 28 4) ∨ w.extractLsb' 24 4 ≠ 0#4 ∨
        (w.extractLsb' 8 16 ≠ 0#16 ∧ w.extractLsb' 28 4 ≠ 1#4) ∨
        (w.extractLsb' 0 8 ≠ 0#8 ∧ w.extractLsb' 28 4 ≠ 1#4 ∧ w.extractLsb' 28 4 ≠ 3#4))) ∧
    ∀ e, decodeCommand w = .error e → ∀ (s : State) ts ws, s.turns = .host :: ts → s.cmdPort = w :: ws →
      step s = .next { s with turns := ts, cmdPort := ws, evt := s.evt ++ [.cmdRefused] }

/-- A step on the host's turn runs the command word's instruction on the state with the word taken (R61, R64); a step
on the line's turn runs the operation that the receiver's state and the symbol select on the state with the symbol
consumed (R58, R88). Either uses up one entry of the schedule (DESIGN CHOICE, log entry 3). -/
def Obligations.StepRunsDecodedInstruction : Prop :=
  (∀ (s : State) ts w ws i, s.turns = .host :: ts → s.cmdPort = w :: ws → decodeCommand w = .ok i →
    step s = exec i { s with turns := ts, cmdPort := ws }) ∧
  ∀ (s : State) ts x xs, s.turns = .line :: ts → s.rxLine = x :: xs →
    step s = exec (decodeSymbol s.rxState x) { s with turns := ts, rxLine := xs }

/-- With no input to take, a step changes nothing but the schedule. DESIGN CHOICE, log entries 3 and 6 (R291, U10:
waiting is no fault). -/
def Obligations.StepWaitsWithoutInput : Prop :=
  (∀ s : State, s.turns = [] → step s = .next s) ∧
  (∀ (s : State) ts, s.turns = .host :: ts → s.cmdPort = [] → step s = .next { s with turns := ts }) ∧
  (∀ (s : State) ts, s.turns = .line :: ts → s.rxLine = [] → step s = .next { s with turns := ts })

/-- Every step answers a next state: the receiver is total (R88), every command word is executed or refused (R89),
and waiting is no fault (R291). That a step with nothing to take answers a next state, where U10 says that the host has
no enabled step, is DEDUCED, log entry 6; that `exec` of a line operation answers in receiver states that never select
it is DESIGN CHOICE, log entry 8. On the schedule of log entry 3 (DESIGN CHOICE). -/
def Obligations.StepNeverStops : Prop :=
  (∀ i s, ∃ t, exec i s = .next t) ∧ ∀ s, ∃ t, step s = .next t

/-- The table word placed by `withFetchWord` is what the next step takes and runs, whatever the state. DESIGN CHOICE,
log entries 7 and 9 (how an input is placed). -/
def Obligations.PlacedTableWordRunsNext : Prop :=
  ∀ (s : State) nbits w i, decodeTableWord nbits w = some i →
    ∃ t : State, step (s.withFetchWord nbits w) = exec i t ∧
      (i.isCommand = true → t = s) ∧ (i.isCommand = false → { t with rxState := s.rxState } = s)

/-! ### Reset -/

/-- R34, R280: the state after reset, in every register the spec gives a value. -/
def Obligations.StateAfterReset : Prop :=
  (∀ p, (State.resetWith p).txState = .txIdle ∧ (State.resetWith p).rxState = .hunt0 ∧
    (State.resetWith p).rxBuf = [] ∧ (State.resetWith p).seq = p.seqInit ∧ (State.resetWith p).evt = [] ∧
    (State.resetWith p).txLine = []) ∧
  State.reset = State.resetWith State.reset.params ∧ State.reset.params.rxCap = none

/-- R280, R281: the reset input in any state; symbols not consumed yet are kept. The last three conjuncts of the
conclusion (replies cleared, pending words and turns kept) are DESIGN CHOICE, log entries 4 and 5.
On the schedule of log entry 3 (DESIGN CHOICE). -/
def Obligations.ResetInputReturnsToResetState : Prop :=
  ∀ (s : State) ts, s.turns = .reset :: ts →
    ∃ t, step s = .next t ∧ t.txState = .txIdle ∧ t.rxState = .hunt0 ∧ t.rxBuf = [] ∧
      t.seq = s.params.seqInit ∧ t.evt = [] ∧ t.txLine = [] ∧ t.rxLine = s.rxLine ∧ t.params = s.params ∧
      t.replies = [] ∧ t.cmdPort = s.cmdPort ∧ t.turns = ts

/-! ### The checksum engine -/

/-- R113: `CRC.UPD`, its encoding and its whole effect, in every state. -/
def Obligations.CrcUpdRepliesAndWritesNothing : Prop :=
  ∀ (acc : Word16) (data : Byte),
    decodeCommand (0x1#4 ++ 0x0#4 ++ acc ++ data) = .ok (.crcUpd acc data) ∧
    ∀ s, exec (.crcUpd acc data) s = .next { s with replies := s.replies ++ [.word16 (crcUpdate acc data)] }

/-- R110: bit by bit, one bit step is the shifted running value, with `0xA001` exclusive-ored in when the low bit
differs from the data bit; so bit 15 of the result is that difference. -/
def Obligations.CrcBitBitByBit : Prop :=
  (∀ c d k, k < 16 →
    (crcBit c d).getLsbD k = (c.getLsbD (k + 1) ^^ ((c.getLsbD 0 ^^ d) && (0xA001#16).getLsbD k))) ∧
  ∀ c d, (crcBit c d).getLsbD 15 = (c.getLsbD 0 ^^ d)

/-- R115: the folded form and the table form agree with the bit-serial form on all operands. -/
def Obligations.CrcByteFormsAgree : Prop :=
  ∀ c o, crcUpdateFolded c o = crcUpdate c o ∧ crcUpdateByTable c o = crcUpdate c o

/-- R116: linearity over exclusive-or, of one update and of lists of equal length. -/
def Obligations.CrcLinearOverXor : Prop :=
  (∀ c c' o o', crcUpdate (c ^^^ c') (o ^^^ o') = crcUpdate c o ^^^ crcUpdate c' o') ∧
  ∀ c c' (xs ys : List Byte), xs.length = ys.length →
    crcBytes (c ^^^ c') (List.zipWith (· ^^^ ·) xs ys) = crcBytes c xs ^^^ crcBytes c' ys

/-- R117, R294: zero bytes at the front of a body do not change its checksum. -/
def Obligations.LeadingZerosInvisible : Prop :=
  ∀ n xs, bodyFcs (List.replicate n 0x00#8 ++ xs) = bodyFcs xs

/-- R118: the residue of a body followed by its terminator and checksum, low byte first, is zero. -/
def Obligations.ResidueIsZero : Prop :=
  ∀ b : List Byte, crcBytes 0x0000#16 (b ++ [0x03#8, lo8 (bodyFcs b), hi8 (bodyFcs b)]) = 0x0000#16

/-- R119: bodies of equal length that differ in exactly one byte have different checksums. -/
def Obligations.OneChangedByteChangesChecksum : Prop :=
  ∀ (a b : List Byte) (x y : Byte), x ≠ y → bodyFcs (a ++ x :: b) ≠ bodyFcs (a ++ y :: b)

/-! ### The transmit side -/

/-- R131: `TX.SOF`, its encoding and its whole effect, accepted and refused. -/
def Obligations.TxSofOpensFrame : Prop :=
  decodeCommand 0x20000000#32 = .ok .txSof ∧
  ∀ s : State,
    (s.txState = .txIdle → exec .txSof s =
      .next { s with txLine := s.txLine ++ [0x16#8, 0x10#8, 0x02#8], crcTx := 0x0000#16, txState := .txBody }) ∧
    (s.txState ≠ .txIdle → exec .txSof s = .next { s with evt := s.evt ++ [.cmdRefused] })

/-- R132: `TX.BYTE`, its encoding and its whole effect, accepted and refused, doubled and not. -/
def Obligations.TxByteSendsLogicalByte : Prop :=
  ∀ data : Byte, decodeCommand (0x300000#24 ++ data) = .ok (.txByte data) ∧
  ∀ s : State,
    (s.txState = .txBody → data = 0x10#8 → exec (.txByte data) s =
      .next { s with txLine := s.txLine ++ [0x10#8, 0x10#8], crcTx := crcUpdate s.crcTx data }) ∧
    (s.txState = .txBody → data ≠ 0x10#8 → exec (.txByte data) s =
      .next { s with txLine := s.txLine ++ [data], crcTx := crcUpdate s.crcTx data }) ∧
    (s.txState ≠ .txBody → exec (.txByte data) s = .next { s with evt := s.evt ++ [.cmdRefused] })

/-- R133: `TX.EOF`, its encoding and its whole effect, accepted and refused. -/
def Obligations.TxEofClosesFrame : Prop :=
  decodeCommand 0x40000000#32 = .ok .txEof ∧
  ∀ (s : State) (f : Word16), f = crcUpdate s.crcTx 0x03#8 →
    (s.txState = .txBody → exec .txEof s =
      .next { s with
        txLine := s.txLine ++ [0x10#8, 0x03#8, f.extractLsb' 0 8, f.extractLsb' 8 8]
        crcTx := f
        txState := .txIdle }) ∧
    (s.txState ≠ .txBody → exec .txEof s = .next { s with evt := s.evt ++ [.cmdRefused] })

/-- R138: the complete list of refusals, and that nothing but `EVT` shows one.
On the schedule of log entry 3 (DESIGN CHOICE). -/
def Obligations.RefusalsAreExactlyListed : Prop :=
  ∀ (s : State) ts w ws, s.turns = .host :: ts → s.cmdPort = w :: ws →
    (step s = .next { s with turns := ts, cmdPort := ws, evt := s.evt ++ [.cmdRefused] } ↔
      (decodeCommand w = .ok .txSof ∧ s.txState = .txBody) ∨
      (∃ d, decodeCommand w = .ok (.txByte d) ∧ s.txState = .txIdle) ∨
      (decodeCommand w = .ok .txEof ∧ s.txState = .txIdle) ∨
      (∃ e, decodeCommand w = .error e))

/-- R135: from `TX_BODY`, only `TX.EOF` or reset leads back to `TX_IDLE`.
On the schedule of log entry 3 (DESIGN CHOICE). -/
def Obligations.OpenFrameEndsByEofOrReset : Prop :=
  ∀ s t : State, s.txState = .txBody → step s = .next t → t.txState = .txIdle →
    (∃ ts, s.turns = .reset :: ts) ∨
    (∃ ts w ws, s.turns = .host :: ts ∧ s.cmdPort = w :: ws ∧ decodeCommand w = .ok .txEof)

/-- R130: the length of a stuffed list, and that stuffing loses nothing. -/
def Obligations.StuffLengthAndInjective : Prop :=
  (∀ xs : List Byte, (stuff xs).length = xs.length + xs.count 0x10#8) ∧
  ∀ xs ys : List Byte, stuff xs = stuff ys → xs = ys

/-- R130, R85: every maximal run of `0x10` in a stuffed list has even length, and the start marker does not occur in
one. -/
def Obligations.StuffedRunsEvenAndNoMarker : Prop :=
  (∀ (xs a b : List Byte) n, stuff xs = a ++ List.replicate n 0x10#8 ++ b →
    a.getLast? ≠ some 0x10#8 → b.head? ≠ some 0x10#8 → n % 2 = 0) ∧
  ∀ xs : List Byte, ¬ [0x16#8, 0x10#8, 0x02#8] <:+: stuff xs

/-- R84: the wire length of a frame, its least value, and its bound under `MAX_PAYLOAD`. -/
def Obligations.FrameWireLength : Prop :=
  ∀ h p : List Byte,
    (encodeFrame h p).length = 3 + h.length + p.length + (h ++ p).count 0x10#8 + 2 + 2 ∧
    7 ≤ (encodeFrame h p).length ∧
    (p.length ≤ 256 → (encodeFrame h p).length ≤ 7 + 2 * (h.length + 256))

/-- R134, R136: `TX.FRAME h, p` started in `TX_IDLE` is never refused, appends exactly `encode(h, p)` to `TX_LINE`,
and ends in `TX_IDLE`; nothing else changes but `CRC_TX`.
On the schedule of log entry 3 (DESIGN CHOICE). -/
def Obligations.TxFrameEmitsEncode : Prop :=
  ∀ (h p : List Byte) (prog : List Instr) (s : State) ts ws, txFrame h p = some prog → s.txState = .txIdle →
    s.turns = List.replicate prog.length .host ++ ts →
    s.cmdPort = commandWords (prog.map encode) ++ ws →
    run prog.length s =
      .next { s with
        turns := ts
        cmdPort := ws
        txLine := s.txLine ++ encodeFrame h p
        crcTx := crcBytes 0x0000#16 (h ++ p ++ [0x03#8]) }

/-- R50, R57: a step that is no reset only appends to `TX_LINE`, at most four bytes, and consumes at most one symbol
of `RX_LINE`, from its front.
On the schedule of log entry 3 (DESIGN CHOICE). -/
def Obligations.LinesMoveOneWay : Prop :=
  ∀ s t : State, step s = .next t → (∀ ts, s.turns ≠ .reset :: ts) →
    (∃ bs, bs.length ≤ 4 ∧ t.txLine = s.txLine ++ bs) ∧
    (∃ xs, xs.length ≤ 1 ∧ s.rxLine = xs ++ t.rxLine) ∧
    t.rxBuf.length ≤ s.rxBuf.length + 1

/-! ### The receive side: one statement per operation -/

/-- R151: which states and symbols select `RX.HUNT.SYN`, and its whole effect. That `exec` has it also in states that
never select the operation is DESIGN CHOICE, log entry 8. -/
def Obligations.RxHuntSynRestartsMatch : Prop :=
  (∀ st x, decodeSymbol st x = .rxHuntSyn ↔ (st = .hunt0 ∨ st = .hunt1 ∨ st = .hunt2) ∧ x = 0x016#9) ∧
  ∀ s, exec .rxHuntSyn s = .next { s with rxState := .hunt1 }

/-- R152: which states and symbols select `RX.HUNT.DLE`, and its whole effect. That `exec` has it also in states that
never select the operation is DESIGN CHOICE, log entry 8. -/
def Obligations.RxHuntDleAdvances : Prop :=
  (∀ st x, decodeSymbol st x = .rxHuntDle ↔ st = .hunt1 ∧ x = 0x010#9) ∧
  ∀ s, exec .rxHuntDle s = .next { s with rxState := .hunt2 }

/-- R153: which states and symbols select `RX.HUNT.STX`, and its whole effect. That `exec` has it also in states that
never select the operation is DESIGN CHOICE, log entry 8. -/
def Obligations.RxHuntStxOpensFrame : Prop :=
  (∀ st x, decodeSymbol st x = .rxHuntStx ↔ st = .hunt2 ∧ x = 0x002#9) ∧
  ∀ s, exec .rxHuntStx s = .next { s with rxBuf := [], crcRx := 0x0000#16, rxState := .body }

/-- R154: which states and symbols select `RX.HUNT.MISS`, and its whole effect. That `exec` has it also in states that
never select the operation is DESIGN CHOICE, log entry 8. -/
def Obligations.RxHuntMissDiscards : Prop :=
  (∀ st x b, decodeSymbol st x = .rxHuntMiss b ↔ x = 0#1 ++ b ∧
    ((st = .hunt0 ∧ b ≠ 0x16#8) ∨ (st = .hunt1 ∧ b ≠ 0x16#8 ∧ b ≠ 0x10#8) ∨
      (st = .hunt2 ∧ b ≠ 0x16#8 ∧ b ≠ 0x02#8))) ∧
  ∀ b s, exec (.rxHuntMiss b) s = .next { s with rxState := .hunt0 }

/-- R155: which states and symbols select `RX.BODY.DATA`, and its whole effect. That `exec` has it also in states that
never select the operation is DESIGN CHOICE, log entry 8. -/
def Obligations.RxBodyDataStoresOrOverruns : Prop :=
  (∀ st x b, decodeSymbol st x = .rxBodyData b ↔ x = 0#1 ++ b ∧ st = .body ∧ b ≠ 0x10#8) ∧
  ∀ b (s : State),
    (s.params.rxCap = some s.rxBuf.length → exec (.rxBodyData b) s =
      .next { s with evt := s.evt ++ [.failed .rxOverrun], rxBuf := [], rxState := .hunt0 }) ∧
    (s.params.rxCap ≠ some s.rxBuf.length → exec (.rxBodyData b) s =
      .next { s with rxBuf := s.rxBuf ++ [b], crcRx := crcUpdate s.crcRx b })

/-- R156: which states and symbols select `RX.BODY.DLE`, and its whole effect. That `exec` has it also in states that
never select the operation is DESIGN CHOICE, log entry 8. -/
def Obligations.RxBodyDleEscapes : Prop :=
  (∀ st x, decodeSymbol st x = .rxBodyDle ↔ st = .body ∧ x = 0x010#9) ∧
  ∀ s, exec .rxBodyDle s = .next { s with rxState := .esc }

/-- R157: which states and symbols select `RX.ESC.DLE`, and its whole effect. That `exec` has it also in states that
never select the operation is DESIGN CHOICE, log entry 8. -/
def Obligations.RxEscDleUnstuffs : Prop :=
  (∀ st x, decodeSymbol st x = .rxEscDle ↔ st = .esc ∧ x = 0x010#9) ∧
  ∀ s : State,
    (s.params.rxCap = some s.rxBuf.length → exec .rxEscDle s =
      .next { s with evt := s.evt ++ [.failed .rxOverrun], rxBuf := [], rxState := .hunt0 }) ∧
    (s.params.rxCap ≠ some s.rxBuf.length → exec .rxEscDle s =
      .next { s with rxBuf := s.rxBuf ++ [0x10#8], crcRx := crcUpdate s.crcRx 0x10#8, rxState := .body })

/-- R158: which states and symbols select `RX.ESC.ETX`, and its whole effect. That `exec` has it also in states that
never select the operation is DESIGN CHOICE, log entry 8. -/
def Obligations.RxEscEtxEndsBody : Prop :=
  (∀ st x, decodeSymbol st x = .rxEscEtx ↔ st = .esc ∧ x = 0x003#9) ∧
  ∀ s : State, exec .rxEscEtx s = .next { s with crcRx := crcUpdate s.crcRx 0x03#8, rxState := .fcs0 }

/-- R159: which states and symbols select `RX.ESC.BAD`, and its whole effect. That `exec` has it also in states that
never select the operation is DESIGN CHOICE, log entry 8. That the event is `EscapeViolation`, and not the fault
that R159 and U3 also allow, is DEDUCED, log entry 12. -/
def Obligations.RxEscBadIsViolation : Prop :=
  (∀ st x b, decodeSymbol st x = .rxEscBad b ↔ x = 0#1 ++ b ∧ st = .esc ∧ b ≠ 0x10#8 ∧ b ≠ 0x03#8) ∧
  ∀ b (s : State), exec (.rxEscBad b) s =
    .next { s with
      evt := s.evt ++ [.failed .escapeViolation]
      rxBuf := []
      rxState := if b = 0x16#8 then .hunt1 else .hunt0 }

/-- R160: which states and symbols select `RX.FCS.LO`, and its whole effect. That `exec` has it also in states that
never select the operation is DESIGN CHOICE, log entry 8. -/
def Obligations.RxFcsLoLatches : Prop :=
  (∀ st x b, decodeSymbol st x = .rxFcsLo b ↔ x = 0#1 ++ b ∧ st = .fcs0) ∧
  ∀ b s, exec (.rxFcsLo b) s = .next { s with rxFcsLo := b, rxState := .fcs1 }

/-- R161: which states and symbols select `RX.FCS.HI`, and its whole effect. That `exec` has it also in states that
never select the operation is DESIGN CHOICE, log entry 8. -/
def Obligations.RxFcsHiVerdict : Prop :=
  (∀ st x b, decodeSymbol st x = .rxFcsHi b ↔ x = 0#1 ++ b ∧ st = .fcs1) ∧
  ∀ b (s : State),
    (b ++ s.rxFcsLo = s.crcRx → exec (.rxFcsHi b) s =
      .next { s with evt := s.evt ++ [.frameOk s.rxBuf], rxBuf := [], rxState := .hunt0 }) ∧
    (b ++ s.rxFcsLo ≠ s.crcRx → exec (.rxFcsHi b) s =
      .next { s with evt := s.evt ++ [.failed .checksumMismatch], rxBuf := [], rxState := .hunt0 })

/-- R162: which states and symbols select `RX.EOS`, and its whole effect, in every state. -/
def Obligations.RxEosIsFrameIncomplete : Prop :=
  (∀ st x, decodeSymbol st x = .rxEos ↔ x.getLsbD 8 = true) ∧
  ∀ s : State, exec .rxEos s =
    .next { s with evt := s.evt ++ [.failed .frameIncomplete], rxBuf := [], rxState := .hunt0 }

/-! ### The receive side: laws -/

/-- R150 to R154: in a hunt state the operation a byte selects takes the receiver to `hunt(s, b)` and reports
nothing. -/
def Obligations.HuntIsTheScan : Prop :=
  ∀ (s : State) b, s.rxState = .hunt0 ∨ s.rxState = .hunt1 ∨ s.rxState = .hunt2 →
    ∃ t, exec (decodeSymbol s.rxState (byteSymbol b)) s = .next t ∧ t.rxState = hunt s.rxState b ∧
      t.evt = s.evt ∧ t.crcTx = s.crcTx ∧ t.txState = s.txState ∧ t.txLine = s.txLine ∧ t.seq = s.seq

/-- R150, R165: bytes that hold no start marker are scanned in silence; the scan opens a frame at the first
contiguous occurrence of `16 10 02`, also when false starts overlap it, which U8 leaves open and is DEDUCED, log entry
13.
On the schedule of log entry 3 (DESIGN CHOICE). -/
def Obligations.ScanFindsFirstMarker : Prop :=
  ∀ (bs : List Byte) (s : State) ts xs, s.rxState = .hunt0 →
    s.turns = List.replicate bs.length .line ++ ts → s.rxLine = bs.map byteSymbol ++ xs →
    (¬ [0x16#8, 0x10#8, 0x02#8] <:+: bs →
      ∃ st, (st = .hunt0 ∨ st = .hunt1 ∨ st = .hunt2) ∧
        run bs.length s = .next { s with turns := ts, rxLine := xs, rxState := st }) ∧
    (∀ j, bs = j ++ [0x16#8, 0x10#8, 0x02#8] → ¬ [0x16#8, 0x10#8, 0x02#8] <:+: j ++ [0x16#8, 0x10#8] →
      run bs.length s =
        .next { s with turns := ts, rxLine := xs, rxState := .body, rxBuf := [], crcRx := 0x0000#16 })

/-- R164: feeding `encode(h, p)` to a receiver in a hunt state appends exactly one event, `FrameOk(h ++ p)`, and
ends in `HUNT0`.
On the schedule of log entry 3 (DESIGN CHOICE). -/
def Obligations.FrameRoundTrip : Prop :=
  ∀ (h p : List Byte) (s : State) ts xs,
    s.rxState = .hunt0 ∨ s.rxState = .hunt1 ∨ s.rxState = .hunt2 →
    (∀ cap, s.params.rxCap = some cap → (h ++ p).length ≤ cap) →
    s.turns = List.replicate (encodeFrame h p).length .line ++ ts →
    s.rxLine = (encodeFrame h p).map byteSymbol ++ xs →
    ∃ t, run (encodeFrame h p).length s = .next t ∧ t.evt = s.evt ++ [.frameOk (h ++ p)] ∧
      t.rxState = .hunt0 ∧ t.rxBuf = [] ∧ t.rxLine = xs ∧ t.turns = ts ∧ t.txState = s.txState ∧
      t.crcTx = s.crcTx ∧ t.txLine = s.txLine ∧ t.seq = s.seq ∧ t.replies = s.replies ∧ t.cmdPort = s.cmdPort

/-- R83, R161, R164: whatever two bytes follow the end marker, they are taken raw and decide the verdict by equality
with the checksum of the body.
On the schedule of log entry 3 (DESIGN CHOICE). -/
def Obligations.TrailerDecidesVerdict : Prop :=
  ∀ (body : List Byte) (lo hi : Byte) (s : State) (wire : List Byte) ts xs,
    s.rxState = .hunt0 ∨ s.rxState = .hunt1 ∨ s.rxState = .hunt2 →
    (∀ cap, s.params.rxCap = some cap → body.length ≤ cap) →
    wire = [0x16#8, 0x10#8, 0x02#8] ++ stuff body ++ [0x10#8, 0x03#8] ++ [lo, hi] →
    s.turns = List.replicate wire.length .line ++ ts → s.rxLine = wire.map byteSymbol ++ xs →
    ∃ t, run wire.length s = .next t ∧ t.rxState = .hunt0 ∧ t.rxBuf = [] ∧ t.rxLine = xs ∧ t.turns = ts ∧
      t.evt = s.evt ++
        [if hi ++ lo = crcBytes 0x0000#16 (body ++ [0x03#8]) then .frameOk body else .failed .checksumMismatch]

/-- R119, R168: a frame with one body byte changed, neither the old nor the new value being `0x10`, ends in
`ChecksumMismatch` and in nothing else.
On the schedule of log entry 3 (DESIGN CHOICE). -/
def Obligations.ChangedBodyByteIsMismatch : Prop :=
  ∀ (a b : List Byte) (x y : Byte) (s : State) (wire : List Byte) ts xs,
    x ≠ y → x ≠ 0x10#8 → y ≠ 0x10#8 →
    s.rxState = .hunt0 ∨ s.rxState = .hunt1 ∨ s.rxState = .hunt2 →
    (∀ cap, s.params.rxCap = some cap → a.length + 1 + b.length ≤ cap) →
    wire = [0x16#8, 0x10#8, 0x02#8] ++ stuff a ++ [y] ++ stuff b ++ [0x10#8, 0x03#8] ++
      [lo8 (bodyFcs (a ++ x :: b)), hi8 (bodyFcs (a ++ x :: b))] →
    s.turns = List.replicate wire.length .line ++ ts → s.rxLine = wire.map byteSymbol ++ xs →
    ∃ t, run wire.length s = .next t ∧ t.evt = s.evt ++ [.failed .checksumMismatch] ∧
      t.rxState = .hunt0 ∧ t.rxBuf = []

/-- R254: when a line symbol raises a failure, the step does all of the failure sequence and nothing else.
On the schedule of log entry 3 (DESIGN CHOICE). -/
def Obligations.FailureSequenceIsAll : Prop :=
  ∀ (s t : State) ts x xs k, s.turns = .line :: ts → s.rxLine = x :: xs → step s = .next t →
    t.evt = s.evt ++ [.failed k] →
    t = { s with
      turns := ts
      rxLine := xs
      evt := s.evt ++ [.failed k]
      rxBuf := []
      rxState := if k = .escapeViolation then hunt .hunt0 (x.extractLsb' 0 8) else .hunt0 }

/-- R260, R28: a step that is no reset appends at most one event to `EVT`; on the line's turn never `CmdRefused`, on
the host's turn nothing else.
On the schedule of log entry 3 (DESIGN CHOICE). -/
def Obligations.OneEventPerStep : Prop :=
  ∀ s t : State, step s = .next t → (∀ ts, s.turns ≠ .reset :: ts) →
    t.evt = s.evt ∨ ∃ e, t.evt = s.evt ++ [e] ∧
      ((e = .cmdRefused ∧ ∃ ts, s.turns = .host :: ts) ∨
        (e.fromReceiver = true ∧ ∃ ts, s.turns = .line :: ts))

/-- R163: the result of `RX.FRAME` is one receiver event, the only one appended, and after it the receiver is in a
hunt state with an empty buffer. -/
def Obligations.RxFrameResult : Prop :=
  ∀ (s t : State) xs rest e, rxFrame s xs = some (e, t, rest) →
    e.fromReceiver = true ∧ t.evt = s.evt ++ [e] ∧ t.rxBuf = [] ∧
    (t.rxState = .hunt0 ∨ (t.rxState = .hunt1 ∧ e = .failed .escapeViolation)) ∧
    ∃ used, used ≠ [] ∧ xs = used ++ rest

/-! ### The sequence register -/

/-- R191: `SEQ.RD`, its encoding and its whole effect, in every state. -/
def Obligations.SeqRdReplies : Prop :=
  decodeCommand 0x50000000#32 = .ok .seqRd ∧
  ∀ s : State, exec .seqRd s = .next { s with replies := s.replies ++ [.byte s.seq] }

/-- R192, R190: `SEQ.INC`, its encoding and its whole effect, in every state. -/
def Obligations.SeqIncAdvances : Prop :=
  decodeCommand 0x60000000#32 = .ok .seqInc ∧
  ∀ s : State, exec .seqInc s = .next { s with seq := BitVec.ofNat 8 ((s.seq.toNat + 1) % 256) }

/-- R195: `n` increments add `n` modulo 256; they return `SEQ` to where it was exactly when 256 divides `n`.
On the schedule of log entry 3 (DESIGN CHOICE). -/
def Obligations.SeqCycle : Prop :=
  ∀ (n : Nat) (s : State) ts ws, s.turns = List.replicate n .host ++ ts →
    s.cmdPort = List.replicate n 0x60000000#32 ++ ws →
    ∃ v : Byte, run n s = .next { s with turns := ts, cmdPort := ws, seq := v } ∧
      v.toNat = (s.seq.toNat + n) % 256 ∧ (v = s.seq ↔ 256 ∣ n)

/-- R23, R31: only `SEQ.INC` and reset change `SEQ`; nothing changes the parameters.
On the schedule of log entry 3 (DESIGN CHOICE). -/
def Obligations.SeqChangesOnlyByIncOrReset : Prop :=
  ∀ s t : State, step s = .next t →
    t.params = s.params ∧
    (t.seq ≠ s.seq →
      (∃ ts, s.turns = .reset :: ts) ∨
      (∃ ts w ws, s.turns = .host :: ts ∧ s.cmdPort = w :: ws ∧ decodeCommand w = .ok .seqInc))

/-! ### The whole block -/

/-- R60: a host command leaves the receiver's state alone, and a line operation leaves the transmitter's, `SEQ` and
the replies alone. It says so of `exec` in every state, also in states that never select the operation (DESIGN CHOICE,
log entry 8). -/
def Obligations.DirectionsTouchDisjointState : Prop :=
  (∀ i (s t : State), i.isCommand = true → exec i s = .next t →
    t.rxState = s.rxState ∧ t.crcRx = s.crcRx ∧ t.rxBuf = s.rxBuf ∧ t.rxFcsLo = s.rxFcsLo ∧
    t.rxLine = s.rxLine) ∧
  (∀ i (s t : State), i.isCommand = false → exec i s = .next t →
    t.txState = s.txState ∧ t.crcTx = s.crcTx ∧ t.txLine = s.txLine ∧ t.seq = s.seq ∧
    t.replies = s.replies ∧ t.cmdPort = s.cmdPort)

/-- R60: for any two interleavings of the same host commands and line symbols, everything but the position of
`CmdRefused` among the receiver's events is the same.
On the schedule of log entry 3 (DESIGN CHOICE). -/
def Obligations.InterleavingIndependent : Prop :=
  ∀ (s : State) (ts us : List Agent), ts.Perm us → Agent.reset ∉ ts →
    ∃ a b, run ts.length { s with turns := ts } = .next a ∧ run us.length { s with turns := us } = .next b ∧
      a.sameButEventOrder b

/-- R35 at reset, for every value of the parameters. -/
def Obligations.ResetMeetsInvariants : Prop :=
  State.reset.Inv ∧ ∀ p, (State.resetWith p).Inv

/-- R35: every step keeps the invariants.
On the schedule of log entry 3 (DESIGN CHOICE). -/
def Obligations.StepKeepsInvariants : Prop :=
  ∀ s t : State, s.Inv → step s = .next t → t.Inv

/-- R35, R88, R89: from a state that meets the invariants every run of every length goes on without a stop and meets
them all along, whatever the environment supplies. That a run goes on when nothing is scheduled or supplied (R291, U10)
is DEDUCED, log entry 6.
On the schedule of log entry 3 (DESIGN CHOICE). -/
def Obligations.EveryRunIsSafe : Prop :=
  ∀ (s : State) n, s.Inv → s.SafeFor n

/-! ### The environment's contract -/

/-- R213: chunking and padding of a package. -/
def Obligations.ChunksRebuildPackage : Prop :=
  ∀ pkg : List Byte,
    (chunks pkg).length = (pkg.length + 255) / 256 ∧
    (chunks pkg).flatten = pkg ∧
    (∀ c ∈ chunks pkg, 1 ≤ c.length ∧ c.length ≤ 256 ∧
      (padChunk c).length % 4 = 0 ∧ (padChunk c).length ≤ 256 ∧ c <+: padChunk c ∧
      (padChunk c).length < c.length + 4 ∧ ∀ z ∈ (padChunk c).drop c.length, z = 0x00#8) ∧
    ∀ c ∈ (chunks pkg).dropLast, c.length = 256

/-- R202, R203, R193: a wait succeeds only when an acknowledgement frame of the Dock with the number waited for is
among the events, and every dock frame before it has been acknowledged, in order. -/
def Obligations.WaitNeedsMatchingAcknowledgement : Prop :=
  ∀ (s : Byte) (evs : List (Event × Bool)), (waitAck s evs).2 = .succeeded →
    ∃ before body closed after, evs = before ++ (.frameOk body, closed) :: after ∧
      typeOf body = some 0x05#8 ∧ seqOf body = some s ∧
      (waitAck s evs).1 = before.filterMap (fun e => match e.1 with
        | .frameOk b => if typeOf b = some 0x04#8 then some b else none
        | .failed _ => none
        | .cmdRefused => none)

/-- R194, R211, R214: the acts of a `run` that ends closed are those of the handshake, with three `SEQ.INC`, then those
of the packages, with one for each package-begin and one per chunk, then `SEQ.RD`, one frame with the disconnect payload
and the current number, and the release of the stream, with none. That a package of length 0 counts one, for its
package-begin alone, is DESIGN CHOICE, log entry 19 (open in R213 and U17). -/
def Obligations.SessionIncrements : Prop :=
  ∀ (packages : List (List Byte)) (s t : Session), runSession packages s = (some .closed, t) →
    t.acts.count .seqInc = 3 + (packages.map fun pkg => 1 + (pkg.length + 255) / 256).sum ∧
    ∃ u transfers disconnected, runScript 0 (handshake s.host) (startSession s) = .done () u ∧ u.acts.count .seqInc = 3 ∧
      transfers.count .seqInc = (packages.map fun pkg => 1 + (pkg.length + 255) / 256).sum ∧
      disconnected = HostAct.seqRd :: frameActs (.disconnect t.block.seq) (seqHeader t.block.seq disconnectPayload)
        disconnectPayload ++ [.release] ∧
      disconnected.count .seqInc = 0 ∧ t.acts = u.acts ++ transfers ++ disconnected
end

