-- ==== Sys2Proof/Laws/State.lean ====
section
/-!
SUPPORT. What each primitive of R9 leaves in each field of the state, one lemma per field per update, so that no
proof unfolds an update; and the values of the constants.
-/

namespace Sys2Proof

@[simp] theorem constants_poly : constants.poly = 0xA001#16 := rfl
@[simp] theorem constants_crcInit : constants.crcInit = 0x0000#16 := rfl
@[simp] theorem constants_syn : constants.syn = 0x16#8 := rfl
@[simp] theorem constants_dle : constants.dle = 0x10#8 := rfl
@[simp] theorem constants_stx : constants.stx = 0x02#8 := rfl
@[simp] theorem constants_etx : constants.etx = 0x03#8 := rfl
@[simp] theorem constants_fcsLen : constants.fcsLen = 2 := rfl
@[simp] theorem constants_maxChunk : constants.maxChunk = 256 := rfl
@[simp] theorem constants_padAlign : constants.padAlign = 4 := rfl
@[simp] theorem constants_maxPayload : constants.maxPayload = 256 := rfl
@[simp] theorem constants_tReq : constants.tReq = 0x01#8 := rfl
@[simp] theorem constants_tLt : constants.tLt = 0x02#8 := rfl
@[simp] theorem constants_tLa : constants.tLa = 0x03#8 := rfl
@[simp] theorem constants_tDock : constants.tDock = 0x04#8 := rfl
@[simp] theorem constants_tDack : constants.tDack = 0x05#8 := rfl

@[simp] theorem startMarker_eq : startMarker = [0x16#8, 0x10#8, 0x02#8] := rfl
@[simp] theorem endMarker_eq : endMarker = [0x10#8, 0x03#8] := rfl

namespace Machine

/-! ### `emit` -/

@[simp] theorem emit_txState (bs : List Byte) (s : State) : (emit bs s).txState = s.txState := rfl
@[simp] theorem emit_crcTx (bs : List Byte) (s : State) : (emit bs s).crcTx = s.crcTx := rfl
@[simp] theorem emit_rxState (bs : List Byte) (s : State) : (emit bs s).rxState = s.rxState := rfl
@[simp] theorem emit_crcRx (bs : List Byte) (s : State) : (emit bs s).crcRx = s.crcRx := rfl
@[simp] theorem emit_rxBuf (bs : List Byte) (s : State) : (emit bs s).rxBuf = s.rxBuf := rfl
@[simp] theorem emit_rxFcsLo (bs : List Byte) (s : State) : (emit bs s).rxFcsLo = s.rxFcsLo := rfl
@[simp] theorem emit_seq (bs : List Byte) (s : State) : (emit bs s).seq = s.seq := rfl
@[simp] theorem emit_txLine (bs : List Byte) (s : State) : (emit bs s).txLine = s.txLine ++ bs := rfl
@[simp] theorem emit_rxLine (bs : List Byte) (s : State) : (emit bs s).rxLine = s.rxLine := rfl
@[simp] theorem emit_evt (bs : List Byte) (s : State) : (emit bs s).evt = s.evt := rfl
@[simp] theorem emit_replies (bs : List Byte) (s : State) : (emit bs s).replies = s.replies := rfl
@[simp] theorem emit_cmdPort (bs : List Byte) (s : State) : (emit bs s).cmdPort = s.cmdPort := rfl
@[simp] theorem emit_turns (bs : List Byte) (s : State) : (emit bs s).turns = s.turns := rfl
@[simp] theorem emit_resets (bs : List Byte) (s : State) : (emit bs s).resets = s.resets := rfl
@[simp] theorem emit_params (bs : List Byte) (s : State) : (emit bs s).params = s.params := rfl

/-! ### `push` -/

@[simp] theorem push_txState (b : Byte) (s : State) : (push b s).txState = s.txState := rfl
@[simp] theorem push_crcTx (b : Byte) (s : State) : (push b s).crcTx = s.crcTx := rfl
@[simp] theorem push_rxState (b : Byte) (s : State) : (push b s).rxState = s.rxState := rfl
@[simp] theorem push_crcRx (b : Byte) (s : State) : (push b s).crcRx = s.crcRx := rfl
@[simp] theorem push_rxBuf (b : Byte) (s : State) : (push b s).rxBuf = s.rxBuf ++ [b] := rfl
@[simp] theorem push_rxFcsLo (b : Byte) (s : State) : (push b s).rxFcsLo = s.rxFcsLo := rfl
@[simp] theorem push_seq (b : Byte) (s : State) : (push b s).seq = s.seq := rfl
@[simp] theorem push_txLine (b : Byte) (s : State) : (push b s).txLine = s.txLine := rfl
@[simp] theorem push_rxLine (b : Byte) (s : State) : (push b s).rxLine = s.rxLine := rfl
@[simp] theorem push_evt (b : Byte) (s : State) : (push b s).evt = s.evt := rfl
@[simp] theorem push_replies (b : Byte) (s : State) : (push b s).replies = s.replies := rfl
@[simp] theorem push_cmdPort (b : Byte) (s : State) : (push b s).cmdPort = s.cmdPort := rfl
@[simp] theorem push_turns (b : Byte) (s : State) : (push b s).turns = s.turns := rfl
@[simp] theorem push_resets (b : Byte) (s : State) : (push b s).resets = s.resets := rfl
@[simp] theorem push_params (b : Byte) (s : State) : (push b s).params = s.params := rfl

/-! ### `event` -/

@[simp] theorem event_txState (e : Event) (s : State) : (event e s).txState = s.txState := rfl
@[simp] theorem event_crcTx (e : Event) (s : State) : (event e s).crcTx = s.crcTx := rfl
@[simp] theorem event_rxState (e : Event) (s : State) : (event e s).rxState = s.rxState := rfl
@[simp] theorem event_crcRx (e : Event) (s : State) : (event e s).crcRx = s.crcRx := rfl
@[simp] theorem event_rxBuf (e : Event) (s : State) : (event e s).rxBuf = s.rxBuf := rfl
@[simp] theorem event_rxFcsLo (e : Event) (s : State) : (event e s).rxFcsLo = s.rxFcsLo := rfl
@[simp] theorem event_seq (e : Event) (s : State) : (event e s).seq = s.seq := rfl
@[simp] theorem event_txLine (e : Event) (s : State) : (event e s).txLine = s.txLine := rfl
@[simp] theorem event_rxLine (e : Event) (s : State) : (event e s).rxLine = s.rxLine := rfl
@[simp] theorem event_evt (e : Event) (s : State) : (event e s).evt = s.evt ++ [e] := rfl
@[simp] theorem event_replies (e : Event) (s : State) : (event e s).replies = s.replies := rfl
@[simp] theorem event_cmdPort (e : Event) (s : State) : (event e s).cmdPort = s.cmdPort := rfl
@[simp] theorem event_turns (e : Event) (s : State) : (event e s).turns = s.turns := rfl
@[simp] theorem event_resets (e : Event) (s : State) : (event e s).resets = s.resets := rfl
@[simp] theorem event_params (e : Event) (s : State) : (event e s).params = s.params := rfl

/-! ### `reply` -/

@[simp] theorem reply_txState (v : Reply) (s : State) : (reply v s).txState = s.txState := rfl
@[simp] theorem reply_crcTx (v : Reply) (s : State) : (reply v s).crcTx = s.crcTx := rfl
@[simp] theorem reply_rxState (v : Reply) (s : State) : (reply v s).rxState = s.rxState := rfl
@[simp] theorem reply_crcRx (v : Reply) (s : State) : (reply v s).crcRx = s.crcRx := rfl
@[simp] theorem reply_rxBuf (v : Reply) (s : State) : (reply v s).rxBuf = s.rxBuf := rfl
@[simp] theorem reply_rxFcsLo (v : Reply) (s : State) : (reply v s).rxFcsLo = s.rxFcsLo := rfl
@[simp] theorem reply_seq (v : Reply) (s : State) : (reply v s).seq = s.seq := rfl
@[simp] theorem reply_txLine (v : Reply) (s : State) : (reply v s).txLine = s.txLine := rfl
@[simp] theorem reply_rxLine (v : Reply) (s : State) : (reply v s).rxLine = s.rxLine := rfl
@[simp] theorem reply_evt (v : Reply) (s : State) : (reply v s).evt = s.evt := rfl
@[simp] theorem reply_replies (v : Reply) (s : State) : (reply v s).replies = s.replies ++ [v] := rfl
@[simp] theorem reply_cmdPort (v : Reply) (s : State) : (reply v s).cmdPort = s.cmdPort := rfl
@[simp] theorem reply_turns (v : Reply) (s : State) : (reply v s).turns = s.turns := rfl
@[simp] theorem reply_resets (v : Reply) (s : State) : (reply v s).resets = s.resets := rfl
@[simp] theorem reply_params (v : Reply) (s : State) : (reply v s).params = s.params := rfl

/-! ### `refuse` -/

@[simp] theorem refuse_txState (s : State) : (refuse s).txState = s.txState := rfl
@[simp] theorem refuse_crcTx (s : State) : (refuse s).crcTx = s.crcTx := rfl
@[simp] theorem refuse_rxState (s : State) : (refuse s).rxState = s.rxState := rfl
@[simp] theorem refuse_crcRx (s : State) : (refuse s).crcRx = s.crcRx := rfl
@[simp] theorem refuse_rxBuf (s : State) : (refuse s).rxBuf = s.rxBuf := rfl
@[simp] theorem refuse_rxFcsLo (s : State) : (refuse s).rxFcsLo = s.rxFcsLo := rfl
@[simp] theorem refuse_seq (s : State) : (refuse s).seq = s.seq := rfl
@[simp] theorem refuse_txLine (s : State) : (refuse s).txLine = s.txLine := rfl
@[simp] theorem refuse_rxLine (s : State) : (refuse s).rxLine = s.rxLine := rfl
@[simp] theorem refuse_evt (s : State) : (refuse s).evt = s.evt ++ [.cmdRefused] := rfl
@[simp] theorem refuse_replies (s : State) : (refuse s).replies = s.replies := rfl
@[simp] theorem refuse_cmdPort (s : State) : (refuse s).cmdPort = s.cmdPort := rfl
@[simp] theorem refuse_turns (s : State) : (refuse s).turns = s.turns := rfl
@[simp] theorem refuse_resets (s : State) : (refuse s).resets = s.resets := rfl
@[simp] theorem refuse_params (s : State) : (refuse s).params = s.params := rfl

/-! ### `raise` -/

@[simp] theorem raise_txState (k : Failure) (n : RxState) (s : State) : (raise k n s).txState = s.txState := rfl
@[simp] theorem raise_crcTx (k : Failure) (n : RxState) (s : State) : (raise k n s).crcTx = s.crcTx := rfl
@[simp] theorem raise_rxState (k : Failure) (n : RxState) (s : State) : (raise k n s).rxState = n := rfl
@[simp] theorem raise_crcRx (k : Failure) (n : RxState) (s : State) : (raise k n s).crcRx = s.crcRx := rfl
@[simp] theorem raise_rxBuf (k : Failure) (n : RxState) (s : State) : (raise k n s).rxBuf = [] := rfl
@[simp] theorem raise_rxFcsLo (k : Failure) (n : RxState) (s : State) : (raise k n s).rxFcsLo = s.rxFcsLo := rfl
@[simp] theorem raise_seq (k : Failure) (n : RxState) (s : State) : (raise k n s).seq = s.seq := rfl
@[simp] theorem raise_txLine (k : Failure) (n : RxState) (s : State) : (raise k n s).txLine = s.txLine := rfl
@[simp] theorem raise_rxLine (k : Failure) (n : RxState) (s : State) : (raise k n s).rxLine = s.rxLine := rfl
@[simp] theorem raise_evt (k : Failure) (n : RxState) (s : State) : (raise k n s).evt = s.evt ++ [.failed k] := rfl
@[simp] theorem raise_replies (k : Failure) (n : RxState) (s : State) : (raise k n s).replies = s.replies := rfl
@[simp] theorem raise_cmdPort (k : Failure) (n : RxState) (s : State) : (raise k n s).cmdPort = s.cmdPort := rfl
@[simp] theorem raise_turns (k : Failure) (n : RxState) (s : State) : (raise k n s).turns = s.turns := rfl
@[simp] theorem raise_resets (k : Failure) (n : RxState) (s : State) : (raise k n s).resets = s.resets := rfl
@[simp] theorem raise_params (k : Failure) (n : RxState) (s : State) : (raise k n s).params = s.params := rfl

/-! ### `resetInput` -/

@[simp] theorem resetInput_txState (s : State) : (resetInput s).txState = .txIdle := rfl
@[simp] theorem resetInput_crcTx (s : State) : (resetInput s).crcTx = Config.crcTxAtReset (s.resets + 1) := rfl
@[simp] theorem resetInput_rxState (s : State) : (resetInput s).rxState = .hunt0 := rfl
@[simp] theorem resetInput_crcRx (s : State) : (resetInput s).crcRx = Config.crcRxAtReset (s.resets + 1) := rfl
@[simp] theorem resetInput_rxBuf (s : State) : (resetInput s).rxBuf = [] := rfl
@[simp] theorem resetInput_rxFcsLo (s : State) : (resetInput s).rxFcsLo = Config.rxFcsLoAtReset (s.resets + 1) := rfl
@[simp] theorem resetInput_seq (s : State) : (resetInput s).seq = s.params.seqInit := rfl
@[simp] theorem resetInput_txLine (s : State) : (resetInput s).txLine = [] := rfl
@[simp] theorem resetInput_rxLine (s : State) : (resetInput s).rxLine = s.rxLine := rfl
@[simp] theorem resetInput_evt (s : State) : (resetInput s).evt = [] := rfl
@[simp] theorem resetInput_replies (s : State) : (resetInput s).replies = [] := rfl
@[simp] theorem resetInput_cmdPort (s : State) : (resetInput s).cmdPort = s.cmdPort := rfl
@[simp] theorem resetInput_turns (s : State) : (resetInput s).turns = s.turns := rfl
@[simp] theorem resetInput_resets (s : State) : (resetInput s).resets = s.resets + 1 := rfl
@[simp] theorem resetInput_params (s : State) : (resetInput s).params = s.params := rfl

end Machine

end Sys2Proof
end

