-- ==== Sys2Proof/Laws/Crc.lean ====
section
/-!
SUPPORT. The small lemmas of the checksum engine and of the operand functions.
-/

namespace Sys2Proof.Machine

@[simp] theorem crcBytes_nil (c : Word16) : crcBytes c [] = c := rfl

@[simp] theorem crcBytes_cons (c : Word16) (x : Byte) (xs : List Byte) :
    crcBytes c (x :: xs) = crcBytes (crcUpdate c x) xs := rfl

/-- R112: "It follows that `crc_bytes(c, xs ++ ys) = crc_bytes(crc_bytes(c, xs), ys)`". -/
theorem crcBytes_append (c : Word16) (xs ys : List Byte) :
    crcBytes c (xs ++ ys) = crcBytes (crcBytes c xs) ys := by
  induction xs generalizing c with
  | nil => rfl
  | cons x xs ih => simp [ih]

theorem bodyFcs_eq (xs : List Byte) : bodyFcs xs = crcUpdate (crcBytes 0x0000#16 xs) 0x03#8 := by
  simp [bodyFcs, crcBytes_append]

/-- `word` puts back what `lo8` and `hi8` take apart (R52, R86). -/
@[simp] theorem word_hi8_lo8 (w : Word16) : word (hi8 w) (lo8 w) = w := by
  apply BitVec.eq_of_toNat_eq
  simp [word, hi8, lo8, Nat.shiftRight_eq_div_pow]
  omega

theorem word_inj {h l h' l' : Byte} : word h l = word h' l' ↔ h = h' ∧ l = l' := by
  have := h.isLt; have := l.isLt; have := h'.isLt; have := l'.isLt
  simp only [word, ← BitVec.toNat_inj, BitVec.toNat_ofNat]
  omega

theorem inc8_eq (s : Byte) : inc8 s = s + 1#8 := by
  apply BitVec.eq_of_toNat_eq
  simp [inc8, BitVec.toNat_add]

end Sys2Proof.Machine
end

