-- ==== Sys2Proof/Laws/Decode.lean ====
section
/-!
SUPPORT. The fields of an assembled command word and of a line symbol.
-/

namespace Sys2Proof

@[simp] theorem cmdOp_cmdWord (op : BitVec 4) (acc : Word16) (data : Byte) : cmdOp (cmdWord op acc data) = op := by
  apply BitVec.eq_of_getLsbD_eq
  intro i hi
  simp only [cmdOp, cmdWord, BitVec.getLsbD_extractLsb', BitVec.getLsbD_append]
  have h1 : ¬ 28 + i < 8 := by omega
  have h2 : ¬ 28 + i - 8 < 16 := by omega
  have h3 : ¬ 28 + i - 8 - 16 < 4 := by omega
  have h4 : 28 + i - 8 - 16 - 4 = i := by omega
  simp [hi, h1, h2, h3, h4]

@[simp] theorem cmdRsv_cmdWord (op : BitVec 4) (acc : Word16) (data : Byte) :
    cmdRsv (cmdWord op acc data) = 0#4 := by
  apply BitVec.eq_of_getLsbD_eq
  intro i hi
  simp only [cmdRsv, cmdWord, BitVec.getLsbD_extractLsb', BitVec.getLsbD_append]
  have h1 : ¬ 24 + i < 8 := by omega
  have h2 : ¬ 24 + i - 8 < 16 := by omega
  have h3 : 24 + i - 8 - 16 < 4 := by omega
  simp [h1, h2, h3]

@[simp] theorem cmdAcc_cmdWord (op : BitVec 4) (acc : Word16) (data : Byte) :
    cmdAcc (cmdWord op acc data) = acc := by
  apply BitVec.eq_of_getLsbD_eq
  intro i hi
  simp only [cmdAcc, cmdWord, BitVec.getLsbD_extractLsb', BitVec.getLsbD_append]
  have h1 : ¬ 8 + i < 8 := by omega
  have h2 : 8 + i - 8 = i := by omega
  simp [hi, h1, h2]

@[simp] theorem cmdData_cmdWord (op : BitVec 4) (acc : Word16) (data : Byte) :
    cmdData (cmdWord op acc data) = data := by
  apply BitVec.eq_of_getLsbD_eq
  intro i hi
  simp only [cmdData, cmdWord, BitVec.getLsbD_extractLsb', BitVec.getLsbD_append]
  simp [hi]

@[simp] theorem symEos_byteSymbol (b : Byte) : symEos (byteSymbol b) = false := by
  revert b; decide

@[simp] theorem symByte_byteSymbol (b : Byte) : symByte (byteSymbol b) = b := by
  revert b; decide

@[simp] theorem symEos_eosSymbol : symEos eosSymbol = true := by decide

end Sys2Proof
end

