-- ==== Sys2Proof/Laws/Ops.lean ====
section
/-!
SUPPORT. For each shared operation over the state, one lemma that says everything it does.
-/

namespace Sys2Proof.Machine

variable (s : State)

theorem refuse_eq : refuse s = { s with evt := s.evt ++ [.cmdRefused] } := rfl

theorem raise_eq (k : Failure) (n : RxState) :
    raise k n s = { s with evt := s.evt ++ [.failed k], rxBuf := [], rxState := n } := rfl

/-- The two things a logical byte can do (R155, R157). -/
theorem storeLogical_cases (b : Byte) (n : RxState) :
    (s.params.rxCap = some s.rxBuf.length ∧
      storeLogical b n s = { s with evt := s.evt ++ [.failed .rxOverrun], rxBuf := [], rxState := .hunt0 }) ∨
    (s.params.rxCap ≠ some s.rxBuf.length ∧
      storeLogical b n s =
        { s with rxBuf := s.rxBuf ++ [b], crcRx := crcUpdate s.crcRx b, rxState := n }) := by
  by_cases h : s.params.rxCap = some s.rxBuf.length
  · exact .inl ⟨h, by simp [storeLogical, State.rxFull, h, raise_eq]⟩
  · exact .inr ⟨h, by simp [storeLogical, State.rxFull, h, push]⟩

@[simp] theorem txOpen_iff : s.txOpen = true ↔ s.txState = .txBody := by simp [State.txOpen]

@[simp] theorem fcsMatches_iff (b : Byte) : s.fcsMatches b = true ↔ word b s.rxFcsLo = s.crcRx := by
  simp [State.fcsMatches]

theorem isHunt_iff (st : RxState) : isHunt st = true ↔ st = .hunt0 ∨ st = .hunt1 ∨ st = .hunt2 := by
  cases st <;> simp [isHunt]

end Sys2Proof.Machine
end

