-- ==== Sys2Proof/Laws/Wire.lean ====
section
/-!
SUPPORT. The small lemmas of format W.
-/

namespace Sys2Proof.Machine

@[simp] theorem stuff_nil : stuff [] = [] := rfl

@[simp] theorem stuff_cons_dle (xs : List Byte) : stuff (0x10#8 :: xs) = 0x10#8 :: 0x10#8 :: stuff xs := rfl

theorem stuff_cons_of_ne {x : Byte} (h : x ≠ 0x10#8) (xs : List Byte) : stuff (x :: xs) = x :: stuff xs := by
  simp [stuff, h]

/-- R130: `stuff(xs ++ ys) = stuff(xs) ++ stuff(ys)`. -/
theorem stuff_append (xs ys : List Byte) : stuff (xs ++ ys) = stuff xs ++ stuff ys := by
  induction xs with
  | nil => rfl
  | cons x xs ih =>
    by_cases h : x = 0x10#8
    · subst h; simp [ih]
    · simp [stuff_cons_of_ne h, ih]

/-- R137: the wire form depends on header and payload only through their concatenation. -/
theorem encodeFrame_eq_encodeBody (h p : List Byte) : encodeFrame h p = encodeBody (h ++ p) := by
  simp [encodeFrame, encodeBody, stuff_append, fcs]

end Sys2Proof.Machine
end

