-- ==== Sys2Proof/Laws/HostProcedures.lean ====
section
/-!
SUPPORT. The host's procedures over the block: what one issued command and one `RX.FRAME` do, what each procedure keeps,
that a session is never stuck and keeps the duties of R220, that `SEQ` advances as R194 says, and that a session against
a peer that always acknowledges runs to `Closed` (R218, S7).
-/

namespace Sys2Proof.Machine

/-! ### Commands issued -/

theorem decodeCommand_encode {i : Instr} (hi : i.isCommand = true) :
    ∃ w, encode i = .command w ∧ decodeCommand w = .ok i := by
  cases i <;> simp only [Instr.isCommand, reduceCtorEq] at hi <;>
    exact ⟨_, rfl, by simp [decodeCommand, withoutAcc, withoutOperands]⟩

/-- A command issued is its meaning executed, with nothing else taken. -/
theorem issue_eq {i : Instr} (hi : i.isCommand = true) {s t : State} (h : exec i s = .next t) : issue i s = t := by
  obtain ⟨w, he, hd⟩ := decodeCommand_encode hi
  simp [issue, he, placeCommand, step, fetch, fetchCommand, hd, h]

theorem issue_seqRd (s : State) : issue .seqRd s = { s with replies := s.replies ++ [.byte s.seq] } :=
  issue_eq rfl rfl

theorem issue_seqInc (s : State) : issue .seqInc s = { s with seq := inc8 s.seq } := issue_eq rfl rfl

/-- `SEQ.RD` issued always replies, and replies `SEQ` (R191). -/
theorem readSeq_eq (s : State) :
    readSeq s = some (s.seq, { s with replies := s.replies ++ [.byte s.seq] }) := by
  simp [readSeq, issue_seqRd]

/-- `SEQ.CHK n` is the equality of all eight bits of `n` with `SEQ` (R193). -/
theorem seqChk_eq (n : Byte) (s : State) :
    seqChk n s = some (n == s.seq, { s with replies := s.replies ++ [.byte s.seq] }) := by
  simp [seqChk, readSeq_eq]

theorem issueAll_append (a b : List Instr) (s : State) : issueAll (a ++ b) s = issueAll b (issueAll a s) := by
  induction a generalizing s with
  | nil => rfl
  | cons i a ih => exact ih _

theorem issueAll_txByte (xs : List Byte) (s : State) (h : s.txState = .txBody) :
    issueAll (xs.map .txByte) s =
      { s with txLine := s.txLine ++ stuff xs, crcTx := crcBytes s.crcTx xs } := by
  induction xs generalizing s with
  | nil => simp [issueAll]
  | cons x xs ih =>
    by_cases hd : x = 0x10#8
    · subst hd
      have hx : issue (.txByte 0x10#8) s = { s with
          txLine := s.txLine ++ [0x10#8, 0x10#8], crcTx := crcUpdate s.crcTx 0x10#8 } :=
        issue_eq rfl (by simp [exec, execTxByte, State.txOpen, h, emit])
      simp only [List.map_cons, issueAll, hx]
      refine Eq.trans (ih _ ?_) ?_
      · exact h
      · simp
    · have hx : issue (.txByte x) s = { s with txLine := s.txLine ++ [x], crcTx := crcUpdate s.crcTx x } :=
        issue_eq rfl (by simp [exec, execTxByte, State.txOpen, h, emit, hd])
      simp only [List.map_cons, issueAll, hx]
      refine Eq.trans (ih _ ?_) ?_
      · exact h
      · simp [stuff_cons_of_ne hd]

/-- `TX.FRAME` issued in `TX_IDLE` appends `encode(h, p)` and changes nothing else but `CRC_TX`. -/
theorem issueAll_txFrame {h p : List Byte} {prog : List Instr} (hp : txFrame h p = some prog) {s : State}
    (hs : s.txState = .txIdle) :
    issueAll prog s = { s with txLine := s.txLine ++ encodeFrame h p, crcTx := bodyFcs (h ++ p) } := by
  unfold txFrame at hp
  split at hp
  · cases hp
    have h1 : issue .txSof s =
        { s with txLine := s.txLine ++ startMarker, crcTx := 0x0000#16, txState := .txBody } :=
      issue_eq rfl (by simp [exec, execTxSof, State.txOpen, hs, emit])
    have h3 : ∀ t : State, t.txState = .txBody → issue .txEof t = { t with
        txLine := t.txLine ++ (endMarker ++ [lo8 (crcUpdate t.crcTx 0x03#8), hi8 (crcUpdate t.crcTx 0x03#8)])
        crcTx := crcUpdate t.crcTx 0x03#8, txState := .txIdle } :=
      fun t ht => issue_eq rfl (by simp [exec, execTxEof, State.txOpen, ht, emit])
    rw [← List.map_append]
    simp only [issueAll, issueAll_append, h1]
    rw [issueAll_txByte _ _ rfl, h3 _ rfl]
    simp [encodeFrame_eq_encodeBody, encodeBody, bodyFcs_eq, hs]
  · cases hp

/-! ### What the transmit commands leave alone -/

/-- The parts of the block that no frame sent touches. -/
def SameButTx (s t : State) : Prop :=
  t.rxState = s.rxState ∧ t.rxLine = s.rxLine ∧ t.seq = s.seq ∧ t.params = s.params

theorem SameButTx.refl (s : State) : SameButTx s s := ⟨rfl, rfl, rfl, rfl⟩

theorem SameButTx.trans {s t u : State} (h : SameButTx s t) (g : SameButTx t u) : SameButTx s u :=
  ⟨g.1.trans h.1, g.2.1.trans h.2.1, g.2.2.1.trans h.2.2.1, g.2.2.2.trans h.2.2.2⟩

theorem issue_sameButTx (i : Instr) (hi : i = .txSof ∨ i = .txEof ∨ ∃ d, i = .txByte d) (s : State) :
    SameButTx s (issue i s) := by
  rcases hi with rfl | rfl | ⟨d, rfl⟩
  · rw [issue_eq rfl (by rfl : exec .txSof s = .next _)]
    split <;> exact ⟨rfl, rfl, rfl, rfl⟩
  · rw [issue_eq rfl (by rfl : exec .txEof s = .next _)]
    split <;> exact ⟨rfl, rfl, rfl, rfl⟩
  · rw [issue_eq rfl (by rfl : exec (.txByte d) s = .next _)]
    split <;> exact ⟨rfl, rfl, rfl, rfl⟩

theorem issueAll_sameButTx (is : List Instr) (h : ∀ i ∈ is, i = .txSof ∨ i = .txEof ∨ ∃ d, i = .txByte d) (s : State) :
    SameButTx s (issueAll is s) := by
  induction is generalizing s with
  | nil => exact .refl s
  | cons i is ih =>
    exact (issue_sameButTx i (h i (by simp)) s).trans (ih (fun j hj => h j (by simp [hj])) _)

theorem frameProgram_some {k : FrameKind} {h p : List Byte} (hk : headerOk k h = true)
    (hp : p.length ≤ constants.maxPayload) :
    frameProgram k h p = some (.txSof :: (h.map .txByte ++ p.map .txByte ++ [.txEof])) := by
  unfold frameProgram txFrame
  rw [if_pos hk, if_pos hp]

theorem frameActs_commands (k : FrameKind) (h p : List Byte) :
    (frameActs k h p).flatMap HostAct.commands = .txSof :: (h.map .txByte ++ p.map .txByte ++ [.txEof]) := by
  have header : ∀ xs : List Byte, (xs.map HostAct.txHeader).flatMap HostAct.commands = xs.map .txByte := by
    intro xs
    induction xs with
    | nil => rfl
    | cons x xs ih => simp [ih, HostAct.commands]
  have payload : ∀ xs : List Byte, (xs.map HostAct.txPayload).flatMap HostAct.commands = xs.map .txByte := by
    intro xs
    induction xs with
    | nil => rfl
    | cons x xs ih => simp [ih, HostAct.commands]
  simp only [frameActs, List.flatMap_cons, List.flatMap_append, header, payload]
  rfl

/-- A frame performed in `TX_IDLE` appends `encode(h, p)` and changes nothing else of the block but `CRC_TX`. -/
theorem perform_frame_block {k : FrameKind} {h p : List Byte} (hp : p.length ≤ constants.maxPayload) {s : Session}
    (hs : s.block.txState = .txIdle) :
    (perform (frameActs k h p) s).block =
      { s.block with txLine := s.block.txLine ++ encodeFrame h p, crcTx := bodyFcs (h ++ p) } := by
  have hsome : txFrame h p = some (.txSof :: (h.map .txByte ++ p.map .txByte ++ [.txEof])) := by
    unfold txFrame
    rw [if_pos hp]
  simp only [perform, frameActs_commands]
  exact issueAll_txFrame hsome hs

theorem perform_frame_sameButTx (k : FrameKind) (h p : List Byte) (s : Session) :
    SameButTx s.block (perform (frameActs k h p) s).block := by
  refine issueAll_sameButTx _ ?_ _
  intro i hi
  simp only [frameActs_commands, List.mem_cons, List.mem_append, List.mem_map, List.not_mem_nil, or_false] at hi
  rcases hi with rfl | (⟨d, _, rfl⟩ | ⟨d, _, rfl⟩) | rfl
  · exact .inl rfl
  · exact .inr (.inr ⟨d, rfl⟩)
  · exact .inr (.inr ⟨d, rfl⟩)
  · exact .inr (.inl rfl)

/-! ### Headers -/

theorem hdrSeqIndex_ne : Config.hdrSeqIndex ≠ Config.hdrTypeIndex := by
  unfold Config.hdrSeqIndex
  split <;> omega

/-- A header that R212 asks for exists, whatever the open positions are. -/
@[simp] theorem isSequencedHeader_seqHeader (v : Byte) (p : List Byte) : isSequencedHeader (seqHeader v p) v = true := by
  have h1 : Config.hdrTypeIndex < max Config.hdrTypeIndex Config.hdrSeqIndex + 1 + Config.hdrExtra v p := by omega
  have h2 : Config.hdrSeqIndex < max Config.hdrTypeIndex Config.hdrSeqIndex + 1 + Config.hdrExtra v p := by omega
  simp [isSequencedHeader, isType, typeOf, seqOf, seqHeader, h1, h2, hdrSeqIndex_ne, tagByte]

@[simp] theorem isAckHeader_ackHeader (b : List Byte) : isAckHeader (ackHeader b) = true := by
  have h1 : Config.hdrTypeIndex < Config.hdrTypeIndex + 1 + Config.ackExtra b := by omega
  simp [isAckHeader, isType, typeOf, ackHeader, h1, tagByte]

/-- The tags of two types of frame differ (R201). -/
theorem isType_unique {a b : FrameType} {body : List Byte} (ha : isType a body = true) (hb : isType b body = true) :
    a = b := by
  simp only [isType, beq_iff_eq] at ha hb
  rw [ha] at hb
  cases a <;> cases b <;> first | rfl | exact absurd hb (by decide)

theorem padChunk_length_le {pkg c : List Byte} (hc : c ∈ chunks pkg) : (padChunk c).length ≤ constants.maxPayload := by
  simp only [chunks, List.mem_map, List.mem_range] at hc
  obtain ⟨k, -, rfl⟩ := hc
  simp [padChunk, constants]
  omega

/-! ### `RX.FRAME` -/

/-- One symbol touches the receiver and `EVT` only. -/
theorem rxSymbol_next (x : LineSymbol) (s : State) : ∃ t, rxSymbol x s = .next t ∧
    t.txState = s.txState ∧ t.crcTx = s.crcTx ∧ t.txLine = s.txLine ∧ t.seq = s.seq ∧ t.params = s.params ∧
    t.rxLine = s.rxLine ∧ (t.evt = s.evt ∨ ∃ e, t.evt = s.evt ++ [e]) := by
  have st : ∀ b n, ∃ t, storeLogical b n s = t ∧ t.txState = s.txState ∧ t.crcTx = s.crcTx ∧ t.txLine = s.txLine ∧
      t.seq = s.seq ∧ t.params = s.params ∧ t.rxLine = s.rxLine ∧ (t.evt = s.evt ∨ ∃ e, t.evt = s.evt ++ [e]) := by
    intro b n
    refine ⟨_, rfl, ?_⟩
    rcases storeLogical_cases s b n with ⟨-, h⟩ | ⟨-, h⟩ <;> rw [h] <;> simp
  unfold rxSymbol decodeSymbol
  split
  · exact ⟨_, rfl, by simp [raise_eq]⟩
  · split
    · split <;> exact ⟨_, rfl, by simp⟩
    · split
      · exact ⟨_, rfl, by simp⟩
      · split <;> exact ⟨_, rfl, by simp⟩
    · split
      · exact ⟨_, rfl, by simp⟩
      · split <;> exact ⟨_, rfl, by simp⟩
    · split
      · exact ⟨_, rfl, by simp⟩
      · obtain ⟨t, ht, h⟩ := st (symByte x) s.rxState
        exact ⟨t, by rw [← ht]; rfl, h⟩
    · split
      · obtain ⟨t, ht, h⟩ := st constants.dle .body
        exact ⟨t, by rw [← ht]; rfl, h⟩
      · split
        · exact ⟨_, rfl, by simp⟩
        · exact ⟨_, rfl, by simp [raise_eq]⟩
    · exact ⟨_, rfl, by simp⟩
    · refine ⟨_, rfl, ?_⟩
      split <;> simp [raise_eq, event]

theorem rxFrame_cons_silent {x : LineSymbol} {s t : State} (h : rxSymbol x s = .next t) (he : t.evt = s.evt)
    (xs : List LineSymbol) : rxFrame s (x :: xs) = rxFrame t xs := by
  simp [rxFrame, h, he]

theorem rxFrame_cons_event {x : LineSymbol} {s t : State} {e : Event} (h : rxSymbol x s = .next t)
    (he : t.evt = s.evt ++ [e]) (xs : List LineSymbol) : rxFrame s (x :: xs) = some (e, t, xs) := by
  simp [rxFrame, h, he]

/-- What `RX.FRAME` leaves alone, and that it consumes something. -/
theorem rxFrame_some {s t : State} {xs rest : List LineSymbol} {e : Event} (h : rxFrame s xs = some (e, t, rest)) :
    t.txState = s.txState ∧ t.crcTx = s.crcTx ∧ t.txLine = s.txLine ∧ t.seq = s.seq ∧ t.params = s.params ∧
    t.evt = s.evt ++ [e] ∧ rest.length < xs.length := by
  induction xs generalizing s with
  | nil => simp [rxFrame] at h
  | cons x xs ih =>
    obtain ⟨u, hu, h1, h2, h3, h4, h5, -, h7⟩ := rxSymbol_next x s
    rcases h7 with h7 | ⟨f, h7⟩
    · rw [rxFrame_cons_silent hu h7] at h
      obtain ⟨g1, g2, g3, g4, g5, g6, g7⟩ := ih h
      exact ⟨g1.trans h1, g2.trans h2, g3.trans h3, g4.trans h4, g5.trans h5, by rw [g6, h7],
        by simp only [List.length_cons]; omega⟩
    · rw [rxFrame_cons_event hu h7] at h
      cases h
      exact ⟨h1, h2, h3, h4, h5, h7, by simp⟩

theorem receiveFrame_some {s t : State} {e : Event} (h : receiveFrame s = some (e, t)) :
    t.txState = s.txState ∧ t.crcTx = s.crcTx ∧ t.txLine = s.txLine ∧ t.seq = s.seq ∧ t.params = s.params ∧
    t.evt = s.evt ++ [e] ∧ t.rxLine.length < s.rxLine.length := by
  unfold receiveFrame at h
  cases hf : rxFrame s s.rxLine with
  | none => rw [hf] at h; cases h
  | some r =>
    obtain ⟨f, u, rest⟩ := r
    rw [hf] at h
    cases h
    obtain ⟨h1, h2, h3, h4, h5, h6, h7⟩ := rxFrame_some hf
    exact ⟨h1, h2, h3, h4, h5, h6, h7⟩

theorem rxFeed_keeps (xs : List LineSymbol) (s : State) :
    (rxFeed s xs).txState = s.txState ∧ (rxFeed s xs).txLine = s.txLine ∧ (rxFeed s xs).seq = s.seq ∧
    (rxFeed s xs).params = s.params := by
  induction xs generalizing s with
  | nil => simp [rxFeed]
  | cons x xs ih =>
    obtain ⟨u, hu, h1, -, h3, h4, h5, -⟩ := rxSymbol_next x s
    simp only [rxFeed, hu]
    obtain ⟨g1, g2, g3, g4⟩ := ih u
    exact ⟨g1.trans h1, g2.trans h3, g3.trans h4, g4.trans h5⟩

theorem rxFrame_none {s : State} {xs : List LineSymbol} (h : rxFrame s xs = none) : (rxFeed s xs).evt = s.evt := by
  induction xs generalizing s with
  | nil => rfl
  | cons x xs ih =>
    obtain ⟨u, hu, -, -, -, -, -, -, h7⟩ := rxSymbol_next x s
    rcases h7 with h7 | ⟨f, h7⟩
    · rw [rxFrame_cons_silent hu h7] at h
      simp only [rxFeed, hu]
      rw [ih h, h7]
    · rw [rxFrame_cons_event hu h7] at h
      cases h

theorem receiveFrame_none {s : State} (h : receiveFrame s = none) :
    (drained s).evt = s.evt ∧ (drained s).txState = s.txState ∧ (drained s).txLine = s.txLine := by
  have hf : rxFrame s s.rxLine = none := by
    unfold receiveFrame at h
    cases hx : rxFrame s s.rxLine with
    | none => rfl
    | some r => rw [hx] at h; cases h
  have hk := rxFeed_keeps s.rxLine s
  exact ⟨rxFrame_none hf, hk.1, hk.2.1⟩

/-- R291 (c): a receiver left in `BODY` stays there, in silence, over any bytes without an escape byte. It is a hang
the block has: only `10 03`, end of stream, an overrun or a reset ends it. -/
theorem body_swallows (bs : List Byte) (hb : ∀ b ∈ bs, b ≠ 0x10#8) {s : State} (hs : s.rxState = .body)
    (hc : s.params.rxCap = none) (xs : List LineSymbol) :
    ∃ t : State, t.rxState = .body ∧ t.evt = s.evt ∧ t.rxBuf = s.rxBuf ++ bs ∧
      rxFrame s (bs.map byteSymbol ++ xs) = rxFrame t xs := by
  induction bs generalizing s with
  | nil => exact ⟨s, hs, rfl, by simp, rfl⟩
  | cons b bs ih =>
    have hd : decodeSymbol s.rxState (byteSymbol b) = .rxBodyData b := by
      have : b ≠ 0x10#8 := hb b (by simp)
      simp [decodeSymbol, hs, this]
    have hx : rxSymbol (byteSymbol b) s =
        .next { s with rxBuf := s.rxBuf ++ [b], crcRx := crcUpdate s.crcRx b } := by
      simp [rxSymbol, hd, exec, execRxBodyData, storeLogical, State.rxFull, hc, push]
    obtain ⟨t, h1, h2, h3, h4⟩ := ih (fun c hcm => hb c (by simp [hcm])) (s := { s with
      rxBuf := s.rxBuf ++ [b], crcRx := crcUpdate s.crcRx b }) hs hc
    refine ⟨t, h1, h2, by rw [h3]; simp, ?_⟩
    rw [List.map_cons, List.cons_append, rxFrame_cons_silent hx rfl, h4]

/-! ### Acts and duties -/

theorem dutyRun_append (evt : List Event) (q : DutyState) (a b : List HostAct) :
    dutyRun evt q (a ++ b) = (dutyRun evt q a).bind fun r => dutyRun evt r b := by
  induction a generalizing q with
  | nil => rfl
  | cons x a ih =>
    simp only [List.cons_append, dutyRun]
    cases dutyStep evt q x with
    | none => rfl
    | some r => exact ih r

theorem dutyRun_header {evt : List Event} (xs : List Byte) {q : DutyState} {f : OpenFrame} (hr : q.running = true)
    (hf : q.frame = some f) (hp : f.payload = []) :
    dutyRun evt q (xs.map .txHeader) = some { q with frame := some { f with header := f.header ++ xs } } := by
  induction xs generalizing q f with
  | nil => simp [dutyRun, ← hf]
  | cons x xs ih =>
    have h1 : dutyStep evt q (.txHeader x) = some { q with frame := some { f with header := f.header ++ [x] } } := by
      simp [dutyStep, hf, hr, hp]
    simp only [List.map_cons, dutyRun, h1]
    rw [ih (q := { q with frame := some { f with header := f.header ++ [x] } }) hr rfl hp]
    simp

theorem dutyRun_payload {evt : List Event} (xs : List Byte) {q : DutyState} {f : OpenFrame} (hr : q.running = true)
    (hf : q.frame = some f) (hl : f.payload.length + xs.length ≤ constants.maxPayload) :
    dutyRun evt q (xs.map .txPayload) = some { q with frame := some { f with payload := f.payload ++ xs } } := by
  induction xs generalizing q f with
  | nil => simp [dutyRun, ← hf]
  | cons x xs ih =>
    have h1 : dutyStep evt q (.txPayload x) = some { q with frame := some { f with payload := f.payload ++ [x] } } := by
      have : f.payload.length < constants.maxPayload := by simp only [List.length_cons] at hl; omega
      simp only [dutyStep, hf, hr, decide_eq_true this, Bool.and_self, if_true]
    simp only [List.map_cons, dutyRun, h1]
    rw [ih (q := { q with frame := some { f with payload := f.payload ++ [x] } }) hr rfl (by
      simp only [List.length_append, List.length_cons, List.length_nil] at hl ⊢
      omega)]
    simp

/-- A frame of the right header and a fitting payload keeps the duties where it may be opened (R134, R220). -/
theorem dutyRun_frame {evt : List Event} {k : FrameKind} {h p : List Byte} (hk : (OpenFrame.mk k h p).complete = true)
    (hp : p.length ≤ constants.maxPayload) {q : DutyState} (hr : q.running = true) (ho : q.mayOpen k = true) :
    dutyRun evt q (frameActs k h p) = some ((q.frameOpened k).frameSent k) := by
  have h1 : dutyStep evt q (.txSof k) = some (q.frameOpened k) := by simp [dutyStep, hr, ho]
  have e1 := dutyRun_header (evt := evt) h (q := q.frameOpened k) (f := ⟨k, [], []⟩) hr rfl rfl
  have e2 := dutyRun_payload (evt := evt) p (q := { q.frameOpened k with frame := some ⟨k, h, []⟩ })
    (f := ⟨k, h, []⟩) hr rfl (by simpa using hp)
  simp only [List.nil_append] at e1 e2
  have h2 : dutyStep evt { q.frameOpened k with frame := some ⟨k, h, p⟩ } .txEof =
      some ((q.frameOpened k).frameSent k) := by
    have : DutyState.running { q.frameOpened k with frame := some ⟨k, h, p⟩ } = true := hr
    simp only [dutyStep, this, hk, Bool.and_self, if_true]
    cases k <;> rfl
  simp only [frameActs, dutyRun, h1, dutyRun_append, e1, e2, Option.bind_some, h2]

/-- `TX_STATE` is `TX_BODY` exactly while a frame of the host is open. -/
def InStep (q : DutyState) (s : State) : Prop := s.txState = .txBody ↔ q.frame.isSome = true

theorem txState_idle {s : State} (h : s.txState ≠ .txBody) : s.txState = .txIdle := by
  cases hs : s.txState with
  | txIdle => rfl
  | txBody => exact absurd hs h

/-- R138, R220: the commands of an act that keeps the duties are never refused; they append no event. -/
theorem dutyStep_not_refused {evt : List Event} {q r : DutyState} {a : HostAct} (h : dutyStep evt q a = some r) {s : State}
    (hs : InStep q s) : (issueAll a.commands s).evt = s.evt ∧ InStep r (issueAll a.commands s) := by
  cases a with
  | reset =>
    simp only [dutyStep] at h
    split at h
    · cases h; exact ⟨rfl, hs⟩
    · cases h
  | txSof k =>
    simp only [dutyStep] at h
    split at h
    · rename_i hc
      cases h
      have hn : q.frame.isSome ≠ true := by
        simp only [DutyState.mayOpen, Bool.and_eq_true] at hc
        cases hq : q.frame <;> simp_all
      have hi := txState_idle fun hb => hn (hs.1 hb)
      have : issue .txSof s = { s with txLine := s.txLine ++ startMarker, crcTx := 0x0000#16, txState := .txBody } :=
        issue_eq rfl (by simp [exec, execTxSof, State.txOpen, hi, emit])
      simp [HostAct.commands, issueAll, this, InStep, DutyState.frameOpened]
    · cases h
  | txHeader b =>
    simp only [dutyStep] at h
    split at h
    · rename_i f hf
      split at h
      · cases h
        have hb := issueAll_txByte [b] s (hs.2 (by simp [hf]))
        simp only [List.map_cons, List.map_nil] at hb
        simp [HostAct.commands, hb, InStep, hs.2 (by simp [hf])]
      · cases h
    · cases h
  | txPayload b =>
    simp only [dutyStep] at h
    split at h
    · rename_i f hf
      split at h
      · cases h
        have hb := issueAll_txByte [b] s (hs.2 (by simp [hf]))
        simp only [List.map_cons, List.map_nil] at hb
        simp [HostAct.commands, hb, InStep, hs.2 (by simp [hf])]
      · cases h
    · cases h
  | txEof =>
    simp only [dutyStep] at h
    split at h
    · rename_i f hf
      split at h
      · cases h
        have hb : s.txState = .txBody := hs.2 (by simp [hf])
        have : issue .txEof s = { s with
            txLine := s.txLine ++ (endMarker ++ [lo8 (crcUpdate s.crcTx 0x03#8), hi8 (crcUpdate s.crcTx 0x03#8)])
            crcTx := crcUpdate s.crcTx 0x03#8, txState := .txIdle } :=
          issue_eq rfl (by simp [exec, execTxEof, State.txOpen, hb, emit])
        cases hk : f.kind <;> simp [HostAct.commands, issueAll, this, InStep, DutyState.frameSent]
      · cases h
    · cases h
  | crcUpd acc data =>
    simp only [dutyStep] at h
    split at h
    · cases h
      have : issue (.crcUpd acc data) s = { s with replies := s.replies ++ [.word16 (crcUpdate acc data)] } :=
        issue_eq rfl rfl
      simp only [HostAct.commands, issueAll, this]
      exact ⟨trivial, hs⟩
    · cases h
  | seqRd =>
    simp only [dutyStep] at h
    split at h
    · cases h
      simp only [HostAct.commands, issueAll, issue_seqRd]
      exact ⟨trivial, hs⟩
    · cases h
  | seqInc =>
    simp only [dutyStep] at h
    split at h
    · cases h
      simp only [HostAct.commands, issueAll, issue_seqInc]
      exact ⟨trivial, hs⟩
    · cases h
  | took w e =>
    simp only [dutyStep] at h
    split at h
    · cases h
      exact ⟨rfl, hs⟩
    · cases h
  | release =>
    simp only [dutyStep] at h
    split at h
    · cases h; exact ⟨rfl, hs⟩
    · cases h

/-- The same of any acts in a row: a host that keeps its duties meets no `CmdRefused`. -/
theorem dutyRun_not_refused {evt : List Event} {as : List HostAct} {q r : DutyState}
    (h : dutyRun evt q as = some r) {s : State}
    (hs : InStep q s) :
    (issueAll (as.flatMap HostAct.commands) s).evt = s.evt ∧ InStep r (issueAll (as.flatMap HostAct.commands) s) := by
  induction as generalizing q s with
  | nil => cases h; exact ⟨rfl, hs⟩
  | cons a as ih =>
    simp only [dutyRun] at h
    cases ha : dutyStep evt q a with
    | none => rw [ha] at h; cases h
    | some u =>
      rw [ha] at h
      obtain ⟨h1, h2⟩ := dutyStep_not_refused ha hs
      rw [List.flatMap_cons, issueAll_append]
      exact ⟨(ih h h2).1.trans h1, (ih h h2).2⟩

/-! ### Traces of acts -/

/-- Where a host stands between its frames. -/
structure Standing where
  outstanding : Outstanding
  /-- dock frames to acknowledge -/
  dock : Nat
  requesting : Bool
  released : Bool

/-- The standing of a host that begins. -/
def Standing.opening : Standing := ⟨.nothing, 0, true, false⟩

/-- The standing of a host with nothing due, after step 1. -/
def Standing.clean : Standing := ⟨.nothing, 0, false, false⟩

/-- Nothing that must be done before the stream is released. -/
def Standing.mayStop (q : Standing) : Prop := q.outstanding ≠ .acknowledged ∧ q.dock = 0 ∧ q.released = false

/-- The duties' state of a session: no frame open, every event of `EVT` taken. -/
def Standing.at (q : Standing) (s : Session) : DutyState :=
  ⟨true, none, q.outstanding, q.dock, q.requesting, s.block.evt.length, q.released⟩

/-- From one session with `TX_IDLE` to a later one `EVT` has grown, the acts done keep the duties beside it, lead from
standing `q` to standing `r` and hold `n` `SEQ.INC`, by which `SEQ` has advanced. -/
def Trace (q : Standing) (s : Session) (n : Nat) (r : Standing) (t : Session) : Prop :=
  s.block.txState = .txIdle → t.block.txState = .txIdle ∧ t.block.seq = s.block.seq + BitVec.ofNat 8 n ∧
    s.block.evt <+: t.block.evt ∧
    ∃ acts, t.acts = s.acts ++ acts ∧ acts.count .seqInc = n ∧
      ∀ evt, t.block.evt <+: evt → dutyRun evt (q.at s) acts = some (r.at t)

theorem Trace.same {q : Standing} {s t : Session} (h1 : t.block.txState = s.block.txState)
    (h2 : t.block.seq = s.block.seq) (h3 : t.block.evt = s.block.evt) (h4 : t.acts = s.acts) : Trace q s 0 q t :=
  fun hi => ⟨h1.trans hi, by simp [h2], by rw [h3], [], by simp [h4], rfl,
    fun _ _ => by simp [dutyRun, Standing.at, h3]⟩

theorem Trace.refl (q : Standing) (s : Session) : Trace q s 0 q s := .same rfl rfl rfl rfl

theorem Trace.trans {q r p : Standing} {s t u : Session} {m n : Nat} (h : Trace q s m r t) (g : Trace r t n p u) :
    Trace q s (m + n) p u := by
  intro hi
  obtain ⟨ht, hq, he, a, ha, hc, hd⟩ := h hi
  obtain ⟨gt, gq, ge, b, gb, gc, gd⟩ := g ht
  refine ⟨gt, ?_, he.trans ge, a ++ b, by rw [gb, ha, List.append_assoc], by simp [hc, gc], fun evt hu => ?_⟩
  · rw [gq, hq, BitVec.add_assoc, ← BitVec.ofNat_add]
  · rw [dutyRun_append, hd evt (ge.trans hu)]
    exact gd evt hu

/-- A payload frame sent with nothing due. -/
theorem trace_payloadFrame {k : FrameKind} {h p : List Byte} {v : Byte} (hk : headerOk k h = true)
    (hp : p.length ≤ constants.maxPayload) (hn : k.awaited = some v) (s : Session) :
    Trace .clean s 0 ⟨.sent v, 0, false, false⟩ (perform (frameActs k h p) s) := by
  intro hi
  have hb := perform_frame_block (k := k) (h := h) hp hi
  refine ⟨by rw [hb]; exact hi, by rw [hb]; simp, by rw [hb], frameActs k h p, rfl, ?_,
    fun evt _ => ?_⟩
  · simp [frameActs, List.count_eq_zero]
  · cases k with
    | disconnect w => cases hn
    | acknowledgement => cases hn
    | sequenced w =>
      cases hn
      rw [dutyRun_frame (by simp [OpenFrame.complete, hk]) hp rfl rfl]
      simp [DutyState.frameSent, DutyState.frameOpened, Standing.at, Standing.clean, hb]
    | capability w =>
      cases hn
      rw [dutyRun_frame (by simp [OpenFrame.complete, hk]) hp rfl rfl]
      simp [DutyState.frameSent, DutyState.frameOpened, Standing.at, Standing.clean, hb]

theorem disconnectPayload_fits : disconnectPayload.length ≤ constants.maxPayload := by decide

/-- The disconnect frame, after which nothing is due (R211, C5). -/
theorem trace_disconnectFrame (v : Byte) (s : Session) : Trace .clean s 0 ⟨.disconnected, 0, false, false⟩
    (perform (frameActs (.disconnect v) (seqHeader v disconnectPayload) disconnectPayload) s) := by
  intro hi
  have hb := perform_frame_block (k := .disconnect v) (h := seqHeader v disconnectPayload) disconnectPayload_fits hi
  refine ⟨by rw [hb]; exact hi, by rw [hb]; simp, by rw [hb], _, rfl, ?_, fun evt _ => ?_⟩
  · simp [frameActs, List.count_eq_zero]
  · rw [dutyRun_frame (by simp [OpenFrame.complete, headerOk]) disconnectPayload_fits rfl rfl]
    simp [DutyState.frameSent, DutyState.frameOpened, Standing.at, Standing.clean, hb]

/-- The acknowledgement frame for a dock frame taken. -/
theorem trace_ackFrame (b : List Byte) (o : Outstanding) (n : Nat) (q : Bool) (s : Session) :
    Trace ⟨o, n + 1, q, false⟩ s 0 ⟨o, n, q, false⟩ (perform (frameActs .acknowledgement (ackHeader b) []) s) := by
  intro hi
  have hb := perform_frame_block (k := .acknowledgement) (h := ackHeader b) (p := []) (by simp) hi
  refine ⟨by rw [hb]; exact hi, by rw [hb]; simp, by rw [hb],
    frameActs .acknowledgement (ackHeader b) [], rfl, ?_, fun evt _ => ?_⟩
  · simp [frameActs, List.count_eq_zero]
  · rw [dutyRun_frame (k := .acknowledgement) (by simp [OpenFrame.complete, headerOk]) (by simp) rfl
      (by simp [DutyState.mayOpen, Standing.at])]
    simp [DutyState.frameSent, DutyState.frameOpened, Standing.at, hb]

/-- `SEQ.INC` after an acknowledgement. -/
theorem trace_seqInc (s : Session) : Trace ⟨.acknowledged, 0, false, false⟩ s 1 .clean (perform [.seqInc] s) := by
  intro hi
  have hb : (perform [.seqInc] s).block = { s.block with seq := inc8 s.block.seq } := issue_seqInc _
  refine ⟨by rw [hb]; exact hi, by rw [hb]; simp [inc8_eq], by rw [hb], [.seqInc], rfl, rfl,
    fun evt _ => ?_⟩
  simp [dutyRun, dutyStep, DutyState.running, Standing.at, Standing.clean, hb]

/-- The release of the stream. -/
theorem trace_release (q : Standing) (hq : q.released = false) (s : Session) :
    Trace q s 0 { q with released := true } (releaseStream s) := by
  intro hi
  refine ⟨hi, by simp [releaseStream, perform, HostAct.commands, issueAll], List.prefix_rfl, [.release], rfl, rfl,
    fun evt _ => ?_⟩
  simp [dutyRun, dutyStep, DutyState.running, Standing.at, hq, releaseStream, perform, HostAct.commands, issueAll]

/-- The standing a wait begins with. -/
def Wait.before : Wait → Standing
  | .request => .opening
  | .dock => .clean
  | .ack v => ⟨.sent v, 0, false, false⟩

/-- The standing a wait ends with. -/
def Wait.after : Wait → Standing
  | .request => .clean
  | .dock => ⟨.nothing, 1, false, false⟩
  | .ack _ => ⟨.acknowledged, 0, false, false⟩

/-- What a host owes after an event, which the event alone decides, is what its reaction in the wait provides for. -/
theorem eventTaken_reaction (w : Wait) (closed : Bool) (e : Event) (s t : Session)
    (hl : t.block.evt.length = s.block.evt.length + 1) :
    (w.before.at s).eventTaken (some w) e = Standing.at
      (match waitReaction w closed e with
        | .acknowledgeDock _ => { w.before with dock := 1 }
        | .succeed _ => w.after
        | .discard _ => w.before
        | .failClosed => w.before) t := by
  cases e with
  | cmdRefused => cases w <;> simp [waitReaction, DutyState.eventTaken, Standing.at, Wait.before, Standing.opening,
      Standing.clean, stillRequesting, hl]
  | failed k => cases w <;> cases k <;> cases closed <;> simp [waitReaction, DutyState.eventTaken, Standing.at,
      Wait.before, Standing.opening, Standing.clean, stillRequesting, hl]
  | frameOk body =>
    cases w with
    | request =>
      by_cases h : isType .req body = true <;>
        simp [waitReaction, frameReaction, h, DutyState.eventTaken, Standing.at, Wait.before, Wait.after,
          Standing.opening, Standing.clean, stillRequesting, Outstanding.received, hl]
    | dock =>
      by_cases h : isType .dock body = true <;>
        simp [waitReaction, frameReaction, h, DutyState.eventTaken, Standing.at, Wait.before, Wait.after,
          Standing.clean, stillRequesting, Outstanding.received, hl]
    | ack v =>
      by_cases h : isType .dock body = true
      · have hn : isType .dack body = false := by
          rw [Bool.eq_false_iff]
          intro h2
          cases isType_unique h h2
        simp [waitReaction, frameReaction, h, hn, DutyState.eventTaken, Standing.at, Wait.before,
          stillRequesting, Outstanding.received, hl]
      · by_cases h2 : isType .dack body = true ∧ seqOf body = some v <;>
          simp [waitReaction, frameReaction, h, h2, DutyState.eventTaken, Standing.at, Wait.before, Wait.after,
            stillRequesting, Outstanding.received, hl]

/-- An event taken in a wait. -/
theorem trace_took {w : Wait} {e : Event} {b : State} {s : Session} (hf : receiveFrame s.block = some (e, b)) :
    Trace w.before s 0
      (match waitReaction w (judge e s.judgements).1 e with
        | .acknowledgeDock _ => { w.before with dock := 1 }
        | .succeed _ => w.after
        | .discard _ => w.before
        | .failClosed => w.before) (takeEvent w e b s) := by
  intro hi
  obtain ⟨h1, -, -, h4, -, h6, -⟩ := receiveFrame_some hf
  have he : (takeEvent w e b s).block.evt = s.block.evt ++ [e] := h6
  refine ⟨h1.trans hi, by simp [takeEvent, h4], by rw [he]; exact List.prefix_append _ _, [.took (some w) e], rfl, rfl,
    ?_⟩
  rintro evt ⟨rest, rfl⟩
  have hm : (w.before.at s).mayTake (some w) = true := by
    cases w <;> simp [DutyState.mayTake, Standing.at, Wait.before, Standing.opening, Standing.clean]
  have hr : (w.before.at s).running = true := by cases w <;> rfl
  have hg : ((takeEvent w e b s).block.evt ++ rest)[(w.before.at s).taken]? = some e := by
    simp [he, Standing.at]
  simp only [dutyRun, dutyStep, hm, hr, hg, Bool.and_self, beq_self_eq_true, if_true]
  rw [eventTaken_reaction w (judge e s.judgements).1 e s (takeEvent w e b s) (by simp [he])]

/-- What every procedure of the host does, started in standing `q`: completed, it has kept the duties, left them in `r`
and issued `n` `SEQ.INC`; stopped, it is not stuck, it is refused by the assembler only where the payloads do not fit,
and no `SEQ.INC` and no acknowledgement of a dock frame is due. -/
def Keeps {α : Type} (fit : Prop) (q : Standing) (s : Session) (n : Nat) (r : Standing) : Ran α → Prop
  | .done _ t => Trace q s n r t
  | .stopped why t => why ≠ .stuck ∧ (why = .refused → ¬fit) ∧ ∃ m p, p.mayStop ∧ Trace q s m p t

theorem Trace.keeps {α : Type} {fit : Prop} {q r p : Standing} {s t : Session} {m n : Nat} (h : Trace q s m r t)
    {x : Ran α} (hx : Keeps fit r t n p x) : Keeps fit q s (m + n) p x := by
  cases x with
  | done a u => exact h.trans hx
  | stopped why u =>
    obtain ⟨h1, h2, k, o, h3, h4⟩ := hx
    exact ⟨h1, h2, m + k, o, h3, h.trans h4⟩

theorem Keeps.andThen {α β : Type} {fit : Prop} {q r p : Standing} {s : Session} {m n : Nat} {x : Ran α}
    (hx : Keeps fit q s m r x) {f : α → Session → Ran β} (hf : ∀ a t, Keeps fit r t n p (f a t)) :
    Keeps fit q s (m + n) p (x.andThen f) := by
  cases x with
  | stopped why t => exact hx
  | done a t => exact hx.keeps (hf a t)

/-! ### What each procedure keeps -/

theorem readNumber_eq (s : Session) : readNumber s = .done s.block.seq { s with
    block := { s.block with replies := s.block.replies ++ [.byte s.block.seq] }
    acts := s.acts ++ [.seqRd] } := by
  simp [readNumber, readSeq_eq]

theorem sendFrame_eq {k : FrameKind} {h p : List Byte} (hk : headerOk k h = true)
    (hp : p.length ≤ constants.maxPayload) (s : Session) :
    sendFrame k h p s = .done () (perform (frameActs k h p) s) := by
  simp [sendFrame, frameProgram_some hk hp]

/-- R93: the assembler refuses a frame whose payload is over `MAX_PAYLOAD`; nothing of it is sent. -/
theorem sendFrame_refused {k : FrameKind} {h p : List Byte} (hp : ¬p.length ≤ constants.maxPayload) (s : Session) :
    sendFrame k h p s = .stopped .refused s := by
  have : frameProgram k h p = none := by
    unfold frameProgram txFrame
    rw [if_neg hp]
    exact ite_self _
  simp [sendFrame, this]

theorem acknowledge_eq (b : List Byte) (s : Session) :
    acknowledge b s = .done () (perform (frameActs .acknowledgement (ackHeader b) []) s) :=
  sendFrame_eq (k := .acknowledgement) (isAckHeader_ackHeader b) (by simp) s

theorem Wait.before_mayStop (w : Wait) : w.before.mayStop := by
  cases w <;> exact ⟨nofun, rfl, rfl⟩

theorem waitLoop_keeps {fit : Prop} (w : Wait) (n : Nat) (s : Session) :
    Keeps fit w.before s 0 w.after (waitLoop w n s) := by
  induction n generalizing s with
  | zero => exact ⟨nofun, nofun, 0, _, w.before_mayStop, .refl _ _⟩
  | succ n ih =>
    unfold waitLoop
    cases hf : receiveFrame s.block with
    | none =>
      refine ⟨nofun, nofun, 0, _, w.before_mayStop, .same ?_ ?_ ?_ rfl⟩
      · exact (rxFeed_keeps s.block.rxLine s.block).1
      · exact (rxFeed_keeps s.block.rxLine s.block).2.2.1
      · exact (receiveFrame_none hf).1
    | some eb =>
      obtain ⟨e, b⟩ := eb
      have ht := trace_took (w := w) hf
      simp only []
      cases hr : waitReaction w (judge e s.judgements).1 e with
      | acknowledgeDock body =>
        rw [hr] at ht
        simp only [acknowledge_eq, Ran.andThen]
        have hw : ⟨w.before.outstanding, 0, w.before.requesting, false⟩ = w.before := by cases w <;> rfl
        have hd : ({ w.before with dock := 1 } : Standing) =
            ⟨w.before.outstanding, 0 + 1, w.before.requesting, false⟩ := by cases w <;> rfl
        simp only [hd] at ht
        have h2 := ht.trans (trace_ackFrame body w.before.outstanding 0 w.before.requesting (takeEvent w e b s))
        rw [hw] at h2
        exact h2.keeps (ih _)
      | succeed body =>
        rw [hr] at ht
        exact ht
      | discard r =>
        rw [hr] at ht
        exact ht.keeps (ih _)
      | failClosed =>
        rw [hr] at ht
        exact ⟨nofun, nofun, 0, _, w.before_mayStop, ht⟩

theorem waitFor_keeps {fit : Prop} (w : Wait) (s : Session) : Keeps fit w.before s 0 w.after (waitFor w s) :=
  waitLoop_keeps w _ s

theorem takeDock_keeps {fit : Prop} (s : Session) : Keeps fit .clean s 0 .clean (takeDock s) :=
  (waitFor_keeps .dock s).andThen (n := 0) fun body t => by
    simp only [acknowledge_eq, Ran.andThen]
    exact trace_ackFrame body .nothing 0 false t

theorem sendAcknowledged_keeps {fit : Prop} {k : FrameKind} {h p : List Byte} {v : Byte} (hk : headerOk k h = true)
    (hp : fit → p.length ≤ constants.maxPayload) (hn : k.awaited = some v) (s : Session) :
    Keeps fit .clean s 1 .clean (sendAcknowledged k h p v s) := by
  by_cases hl : p.length ≤ constants.maxPayload
  · simp only [sendAcknowledged, sendFrame_eq hk hl, Ran.andThen]
    exact (trace_payloadFrame hk hl hn s).keeps ((waitFor_keeps (.ack v) _).andThen (n := 1)
      (f := fun _ u => .done () (perform [.seqInc] u)) fun _ t => trace_seqInc t)
  · simp only [sendAcknowledged, sendFrame_refused hl, Ran.andThen]
    exact ⟨nofun, fun _ hf => hl (hp hf), 0, .clean, ⟨nofun, rfl, rfl⟩, .refl _ _⟩

theorem trace_readNumber (q : Standing) (hq : q.released = false) (s : Session) : Trace q s 0 q { s with
    block := { s.block with replies := s.block.replies ++ [.byte s.block.seq] }
    acts := s.acts ++ [.seqRd] } :=
  fun hi => ⟨hi, by simp, List.prefix_rfl, [.seqRd], rfl, rfl,
    fun _ _ => by simp [dutyRun, dutyStep, DutyState.running, Standing.at, hq]⟩

theorem sendSeq_keeps {fit : Prop} {p : List Byte} (hp : fit → p.length ≤ constants.maxPayload) (s : Session) :
    Keeps fit .clean s 1 .clean (sendSeq p s) := by
  simp only [sendSeq, readNumber_eq, Ran.andThen]
  exact (trace_readNumber .clean rfl s).keeps
    (sendAcknowledged_keeps (k := .sequenced s.block.seq) (isSequencedHeader_seqHeader _ p) hp rfl _)

theorem negotiate_keeps {fit : Prop} {p : List Byte} (hp : fit → p.length ≤ constants.maxPayload) (s : Session) :
    Keeps fit .clean s 1 .clean (negotiate p s) := by
  simp only [negotiate, readNumber_eq, Ran.andThen]
  exact (trace_readNumber .clean rfl s).keeps (sendAcknowledged_keeps (k := .capability s.block.seq) rfl hp rfl _)

theorem sendChunks_keeps {fit : Prop} {pkg : List Byte} (cs : List (List Byte)) (hcs : ∀ c ∈ cs, c ∈ chunks pkg)
    (total sent : Nat) (s : Session) : Keeps fit .clean s cs.length .clean (sendChunks total sent cs s) := by
  induction cs generalizing sent s with
  | nil => exact .refl _ _
  | cons c cs ih =>
    rw [List.length_cons, Nat.add_comm]
    refine (sendSeq_keeps (fun _ => padChunk_length_le (hcs c (by simp))) s).andThen fun _ t => ?_
    have h : Trace .clean t 0 .clean { t with progress := t.progress ++ [(sent + countedLength c, total)] } :=
      .same rfl rfl rfl rfl
    simpa using h.keeps (ih (fun d hd => hcs d (by simp [hd])) (sent + countedLength c) _)

theorem noteTransfer_keeps {fit : Prop} {s : Session} {n : Nat} {r : Ran Unit} (h : Keeps fit .clean s n .clean r) :
    Keeps fit .clean s n .clean (noteTransfer r) := by
  cases r with
  | done a t => exact h
  | stopped why t =>
    cases why with
    | failed e => exact ⟨nofun, nofun, h.2.2⟩
    | aborted => exact h
    | waiting w => exact h
    | refused => exact h
    | stuck => exact h

theorem transfer_keeps {fit : Prop} (pkg : List Byte) (s : Session) :
    Keeps fit .clean s (transferPayloads pkg).length .clean (transfer pkg s) := by
  have hp : (packageBeginPayload (BitVec.ofNat 32 pkg.length)).length ≤ constants.maxPayload := by
    simp [packageBeginPayload, newtdock, be32, constants]
  have hl : (transferPayloads pkg).length = 1 + (chunks pkg).length := by
    simp [transferPayloads, Nat.add_comm]
  rw [hl]
  exact noteTransfer_keeps ((sendSeq_keeps (fun _ => hp) s).andThen fun _ t =>
    sendChunks_keeps _ (fun _ h => h) _ _ t)

/-- The payloads of a step fit a frame; those of a transfer always do. -/
def HostStep.fits : HostStep → Prop
  | .awaitRequest => True
  | .negotiate p => p.length ≤ constants.maxPayload
  | .awaitDock => True
  | .awaitIdentity => True
  | .sendSeq p => p.length ≤ constants.maxPayload
  | .transfer _ => True
  | .disconnect => True

/-- The standing before a step: only step 1 is taken before any other act. -/
def HostStep.before : HostStep → Standing
  | .awaitRequest => .opening
  | .negotiate _ | .awaitDock | .awaitIdentity | .sendSeq _ | .transfer _ | .disconnect => .clean

/-- The standing after a step: after the disconnect frame nothing is due, and the stream is released. -/
def HostStep.after : HostStep → Standing
  | .disconnect => ⟨.disconnected, 0, false, true⟩
  | .awaitRequest | .negotiate _ | .awaitDock | .awaitIdentity | .sendSeq _ | .transfer _ => .clean

/-- The disconnect step (R211): `SEQ.RD`, the frame with the current number, the release, and nothing else. -/
theorem disconnect_eq (s : Session) :
    disconnect s = .done () (releaseStream (perform
      (frameActs (.disconnect s.block.seq) (seqHeader s.block.seq disconnectPayload) disconnectPayload) { s with
        block := { s.block with replies := s.block.replies ++ [.byte s.block.seq] }
        acts := s.acts ++ [.seqRd] })) := by
  simp only [disconnect, readNumber_eq, Ran.andThen,
    sendFrame_eq (k := .disconnect _) (isSequencedHeader_seqHeader _ _) disconnectPayload_fits]

/-- R194: a completed step has issued its number of `SEQ.INC`, and kept the duties. -/
theorem runStep_keeps {fit : Prop} (st : HostStep) (hst : fit → st.fits) (s : Session) :
    Keeps fit st.before s (incsOf st) st.after (runStep st s) := by
  cases st with
  | awaitRequest => exact (waitFor_keeps .request s).andThen (n := 0) fun _ t => .refl _ _
  | negotiate p => exact negotiate_keeps hst s
  | awaitDock => exact (takeDock_keeps s).andThen (n := 0) fun _ t => .refl _ _
  | awaitIdentity =>
    refine (takeDock_keeps s).andThen (n := 0) fun body t => ?_
    have h1 : (decodeOwner body t).acts = t.acts := by unfold decodeOwner; split <;> rfl
    have h2 : (decodeOwner body t).block = t.block := by unfold decodeOwner; split <;> rfl
    exact .same (by rw [h2]) (by rw [h2]) (by rw [h2]) h1
  | sendSeq p => exact sendSeq_keeps hst s
  | transfer pkg => exact transfer_keeps pkg s
  | disconnect =>
    simp only [runStep, disconnect_eq]
    exact ((trace_readNumber .clean rfl s).trans (trace_disconnectFrame s.block.seq _)).trans (trace_release _ rfl _)

/-- A script and then another. -/
theorem runScript_append (a b : List HostStep) (k : Nat) (s : Session) :
    runScript k (a ++ b) s = (runScript k a s).andThen fun _ t => runScript (k + a.length) b t := by
  induction a generalizing k s with
  | nil => rfl
  | cons st a ih =>
    simp only [List.cons_append, runScript, List.length_cons]
    split
    · rfl
    · cases runStep st { s with phase := phaseIn k st } with
      | done u t =>
        simp only [Ran.andThen]
        rw [ih, show k + 1 + a.length = k + (a.length + 1) by omega]
        rfl
      | stopped why t => rfl

/-- A script that begins with a step and goes on keeping the duties. -/
theorem runScript_cons_keeps {fit : Prop} {st : HostStep} {sts : List HostStep} {n : Nat} {q : Standing}
    (hst : fit → st.fits) (ha : st.after = .clean) (hb : st.before.mayStop) {k : Nat}
    (ih : ∀ t, Keeps fit .clean t n q (runScript (k + 1) sts t)) (s : Session) :
    Keeps fit st.before s (incsOf st + n) q (runScript k (st :: sts) s) := by
  simp only [runScript]
  split
  · exact ⟨nofun, nofun, 0, _, hb, .refl _ _⟩
  · have h0 : Trace st.before s 0 st.before { s with phase := phaseIn k st } := .same rfl rfl rfl rfl
    have h1 := runStep_keeps st hst { s with phase := phaseIn k st }
    rw [ha] at h1
    simpa using h0.keeps (h1.andThen (f := fun _ t => runScript (k + 1) sts t) fun _ t => ih t)

/-- R194, R220: a script without step 1 and without a disconnect, completed, has issued its number of `SEQ.INC` and kept
the duties. -/
theorem runScript_keeps {fit : Prop} (sts : List HostStep)
    (hf : ∀ st ∈ sts, (fit → st.fits) ∧ st.before = .clean ∧ st.after = .clean) (k : Nat) (s : Session) :
    Keeps fit .clean s ((sts.map incsOf).sum) .clean (runScript k sts s) := by
  induction sts generalizing k s with
  | nil => exact .refl _ _
  | cons st sts ih =>
    obtain ⟨h1, h2, h3⟩ := hf st (by simp)
    have h := runScript_cons_keeps h1 h3 (by rw [h2]; exact ⟨nofun, rfl, rfl⟩)
      (fun t => ih (fun x hx => hf x (by simp [hx])) (k + 1) t) s
    rw [h2] at h
    exact h

/-! ### The session -/

/-- The host's open byte strings leave its payloads within `MAX_PAYLOAD`. -/
abbrev HostFits (h : HostParams) : Prop :=
  (identityPayload h).length ≤ constants.maxPayload ∧ (readyPayload h).length ≤ constants.maxPayload

/-- The handshake after step 1. -/
def handshakeTail (h : HostParams) : List HostStep :=
  [.negotiate Config.capBlob.toList, .awaitDock, .sendSeq (identityPayload h), .awaitIdentity,
    .sendSeq (readyPayload h), .awaitDock]

theorem handshakeTail_fits (h : HostParams) :
    ∀ st ∈ handshakeTail h, (HostFits h → st.fits) ∧ st.before = .clean ∧ st.after = .clean := by
  intro st hst
  simp only [handshakeTail, List.mem_cons, List.not_mem_nil, or_false] at hst
  rcases hst with rfl | rfl | rfl | rfl | rfl | rfl
  · exact ⟨fun _ => by simp [HostStep.fits, constants], rfl, rfl⟩
  · exact ⟨fun _ => trivial, rfl, rfl⟩
  · exact ⟨fun f => f.1, rfl, rfl⟩
  · exact ⟨fun _ => trivial, rfl, rfl⟩
  · exact ⟨fun f => f.2, rfl, rfl⟩
  · exact ⟨fun _ => trivial, rfl, rfl⟩

theorem transfers_fit {fit : Prop} (packages : List (List Byte)) : ∀ st ∈ packages.map HostStep.transfer,
    (fit → st.fits) ∧ st.before = .clean ∧ st.after = .clean := by
  intro st hst
  obtain ⟨pkg, -, rfl⟩ := List.mem_map.1 hst
  exact ⟨fun _ => trivial, rfl, rfl⟩

theorem transfers_keep {fit : Prop} (packages : List (List Byte)) (k : Nat) (s : Session) :
    Keeps fit .clean s (((packages.map HostStep.transfer).map incsOf).sum) .clean
      (runScript k (packages.map HostStep.transfer) s) := runScript_keeps _ (transfers_fit packages) k s

/-- Step 1 and what follows it without a disconnect. -/
theorem runScript_request_keeps {fit : Prop} (sts : List HostStep)
    (hf : ∀ st ∈ sts, (fit → st.fits) ∧ st.before = .clean ∧ st.after = .clean) (s : Session) :
    Keeps fit .opening s ((sts.map incsOf).sum) .clean (runScript 0 (.awaitRequest :: sts) s) := by
  have h := runScript_cons_keeps (st := .awaitRequest) (fun _ => trivial) rfl ⟨nofun, rfl, rfl⟩
    (fun t => runScript_keeps sts hf 1 t) s
  simpa only [incsOf, HostStep.before, Nat.zero_add] using h

/-- R194: the handshake, completed, has issued three `SEQ.INC`. -/
theorem handshake_keeps (h : HostParams) (s : Session) :
    Keeps (HostFits h) .opening s 3 .clean (runScript 0 (handshake h) s) :=
  runScript_request_keeps (handshakeTail h) (handshakeTail_fits h) s

/-- Steps 1 to 7 of a session. -/
theorem sessionBody_keeps (h : HostParams) (packages : List (List Byte)) (s : Session) :
    Keeps (HostFits h) .opening s (((handshake h ++ packages.map HostStep.transfer).map incsOf).sum) .clean
      (runScript 0 (handshake h ++ packages.map HostStep.transfer) s) := by
  have hk := runScript_request_keeps (fit := HostFits h) (handshakeTail h ++ packages.map HostStep.transfer) (fun st hst => by
    rcases List.mem_append.1 hst with g | g
    · exact handshakeTail_fits h st g
    · exact transfers_fit packages st g) s
  simpa [handshake, handshakeTail, incsOf] using hk

/-- The whole script of a session: stopped, it is not stuck, and the assembler refuses a frame only where the host's byte
strings are too long; completed, it has run steps 1 to 7 and then the disconnect step, in the state where they left
off. -/
theorem runScript_session (h : HostParams) (packages : List (List Byte)) (s : Session) :
    match runScript 0 (session h packages) s with
    | .done _ t => ∃ u ph, runScript 0 (handshake h ++ packages.map HostStep.transfer) s = .done () u ∧
        disconnect { u with phase := ph } = .done () t
    | .stopped why t => why ≠ .stuck ∧ (why = .refused → ¬HostFits h) ∧ ∃ m q, q.mayStop ∧ Trace .opening s m q t := by
  have hk := sessionBody_keeps h packages s
  rw [session, runScript_append]
  cases hr : runScript 0 (handshake h ++ packages.map HostStep.transfer) s with
  | stopped why u => rw [hr] at hk; exact hk
  | done a u =>
    rw [hr] at hk
    simp only [Ran.andThen, runScript]
    by_cases hx : u.abortBefore = some (0 + (handshake h ++ packages.map HostStep.transfer).length)
    · rw [if_pos hx]
      exact ⟨nofun, nofun, _, .clean, ⟨nofun, rfl, rfl⟩, hk⟩
    · rw [if_neg hx]
      simp only [runStep, disconnect_eq]
      exact ⟨u, _, rfl, rfl⟩

/-- No procedure of a session is left without a reply. -/
theorem runScript_not_stuck (h : HostParams) (packages : List (List Byte)) (s t : Session) :
    runScript 0 (session h packages) s ≠ .stopped .stuck t := by
  intro hr
  have := runScript_session h packages s
  rw [hr] at this
  exact this.1 rfl

/-- R93: the assembler refuses a frame of a session only for payloads over `MAX_PAYLOAD`. -/
theorem runScript_not_refused {h : HostParams} (hf : HostFits h) (packages : List (List Byte)) (s t : Session) :
    runScript 0 (session h packages) s ≠ .stopped .refused t := by
  intro hr
  have := runScript_session h packages s
  rw [hr] at this
  exact this.2.1 rfl hf

theorem startSession_seq (s : Session) : (startSession s).block.seq = s.block.params.seqInit := rfl

theorem startSession_duty (evt : List Event) (s : Session) :
    dutyRun evt .start (startSession s).acts = some (Standing.opening.at (startSession s)) := rfl

/-- The acts of a session up to a point of its script keep the duties from the reset on, beside the `EVT` of its block. -/
theorem Trace.fromStart {s t : Session} {n : Nat} {q : Standing} (h : Trace .opening (startSession s) n q t) :
    dutyRun t.block.evt .start t.acts = some (q.at t) := by
  obtain ⟨-, -, -, l, hl, -, hd⟩ := h rfl
  rw [hl, dutyRun_append, startSession_duty]
  exact hd _ List.prefix_rfl

/-- R194, R216, R220: a `run` that returns has kept every duty of the host, the reset before any command and the release
of the stream included; closed, it has advanced `SEQ` from `SEQ_INIT` once per acknowledged payload frame; failed, it has
logged the reason. -/
theorem runSession_returns (packages : List (List Byte)) (s t : Session) (r : SessionResult)
    (h : runSession packages s = (some r, t)) :
    keepsDuties t.block.evt t.acts = true ∧ t.released = true ∧
    (r = .closed → t.phase = .closed ∧
      t.block.seq = s.block.params.seqInit + BitVec.ofNat 8 (((session s.host packages).map incsOf).sum)) ∧
    (∀ reason, r = .failed reason → t.phase = .failed ∧ LogMessage.terminal reason ∈ t.log) := by
  have hs := runScript_session s.host packages (startSession s)
  have rel : ∀ (u : Session) m q, q.mayStop → Trace .opening (startSession s) m q u →
      keepsDuties u.block.evt (u.acts ++ [HostAct.release]) = true := by
    intro u m q ⟨h1, h2, h3⟩ hu
    have := (hu.trans (trace_release q h3 u)).fromStart
    rw [show (releaseStream u).acts = u.acts ++ [.release] from rfl,
      show (releaseStream u).block = u.block from rfl] at this
    simp [keepsDuties, this, Standing.at, h1, h2]
  unfold runSession at h
  cases hr : runScript 0 (session s.host packages) (startSession s) with
  | done a u =>
    rw [hr] at hs h
    cases h
    obtain ⟨u0, ph, h1, h2⟩ := hs
    have hb := sessionBody_keeps s.host packages (startSession s)
    rw [h1] at hb
    have hd := runStep_keeps (fit := True) .disconnect (fun _ => trivial)
      { u0 with phase := ph }
    simp only [runStep, h2] at hd
    have h0 : Trace .clean u0 0 .clean { u0 with phase := ph } := .same rfl rfl rfl rfl
    have ht := (hb.trans h0).trans hd
    refine ⟨?_, ?_, fun _ => ⟨rfl, ?_⟩, nofun⟩
    · show keepsDuties u.block.evt u.acts = true
      simp [keepsDuties, ht.fromStart, Standing.at, HostStep.after]
    · rw [disconnect_eq] at h2
      cases h2
      rfl
    · have := (ht rfl).2.1
      rw [startSession_seq] at this
      simpa [session, incsOf] using this
  | stopped why u =>
    rw [hr] at hs h
    obtain ⟨-, -, m, q, hq, hu⟩ := hs
    cases why with
    | failed e => cases h; exact ⟨rel u m q hq hu, rfl, nofun, fun r h => by cases h; exact ⟨rfl, by simp⟩⟩
    | aborted => cases h; exact ⟨rel u m q hq hu, rfl, nofun, fun r h => by cases h; exact ⟨rfl, by simp⟩⟩
    | waiting w => cases h
    | refused => cases h
    | stuck => cases h

end Sys2Proof.Machine
end

