-- ==== Sys2Proof/Laws/PerInstr.lean ====
section
/-!
SUPPORT. The family `RowPattern`: the encoding of every instruction has the pattern of its own row of
spec/opcode_table.json.
-/

namespace Sys2Proof.Laws.RowPattern

/-- The instruction's encoding is of the format of its row and agrees with the row's value under the row's mask. -/
def Statement (i : Instr) : Prop :=
  match encode i with
  | .command w => i.isCommand = true ∧ ∃ r ∈ commandTable, r.op = i.opName ∧ r.covers w = true
  | .symbol x => i.isCommand = false ∧ ∃ r ∈ symbolTable, r.op = i.opName ∧ x &&& r.mask = r.value

theorem cmdWord_mask (op : BitVec 4) (acc : Word16) (data : Byte) :
    cmdWord op acc data &&& 0xFF000000#32 = cmdWord op 0#16 0#8 := by
  apply BitVec.eq_of_getLsbD_eq
  intro i hi
  simp only [cmdWord, BitVec.getLsbD_and, BitVec.getLsbD_append]
  interval_cases i <;> simp

theorem cmdWord_mask_data (op : BitVec 4) (data : Byte) :
    cmdWord op 0#16 data &&& 0xFFFFFF00#32 = cmdWord op 0#16 0#8 := by
  apply BitVec.eq_of_getLsbD_eq
  intro i hi
  simp only [cmdWord, BitVec.getLsbD_and, BitVec.getLsbD_append]
  interval_cases i <;> simp

theorem byteSymbol_mask (b : Byte) : byteSymbol b &&& 0x100#9 = 0x000#9 := by
  revert b; decide

theorem crcUpd (acc : Word16) (data : Byte) : Statement (.crcUpd acc data) :=
  ⟨rfl, ⟨.crcUpd, 0x10000000#32, 0xFF000000#32⟩, by decide, rfl, by
    simp only [CommandRow.covers, cmdWord_mask]; decide⟩

theorem txSof : Statement .txSof := ⟨rfl, ⟨.txSof, 0x20000000#32, 0xFFFFFFFF#32⟩, by decide, rfl, by decide⟩

theorem txByte (data : Byte) : Statement (.txByte data) :=
  ⟨rfl, ⟨.txByte, 0x30000000#32, 0xFFFFFF00#32⟩, by decide, rfl, by
    simp only [CommandRow.covers, cmdWord_mask_data]; decide⟩

theorem txEof : Statement .txEof := ⟨rfl, ⟨.txEof, 0x40000000#32, 0xFFFFFFFF#32⟩, by decide, rfl, by decide⟩

theorem seqRd : Statement .seqRd := ⟨rfl, ⟨.seqRd, 0x50000000#32, 0xFFFFFFFF#32⟩, by decide, rfl, by decide⟩

theorem seqInc : Statement .seqInc := ⟨rfl, ⟨.seqInc, 0x60000000#32, 0xFFFFFFFF#32⟩, by decide, rfl, by decide⟩

theorem rxEos : Statement .rxEos :=
  ⟨rfl, ⟨.rxEos, 0x100#9, 0x100#9, [.hunt0, .hunt1, .hunt2, .body, .esc, .fcs0, .fcs1], 0⟩, by decide, rfl,
    by decide⟩

theorem rxHuntSyn : Statement .rxHuntSyn :=
  ⟨rfl, ⟨.rxHuntSyn, 0x016#9, 0x1FF#9, [.hunt0, .hunt1, .hunt2], 1⟩, by decide, rfl, by decide⟩

theorem rxHuntDle : Statement .rxHuntDle :=
  ⟨rfl, ⟨.rxHuntDle, 0x010#9, 0x1FF#9, [.hunt1], 1⟩, by decide, rfl, by decide⟩

theorem rxHuntStx : Statement .rxHuntStx :=
  ⟨rfl, ⟨.rxHuntStx, 0x002#9, 0x1FF#9, [.hunt2], 1⟩, by decide, rfl, by decide⟩

theorem rxHuntMiss (b : Byte) : Statement (.rxHuntMiss b) :=
  ⟨rfl, ⟨.rxHuntMiss, 0x000#9, 0x100#9, [.hunt0, .hunt1, .hunt2], 2⟩, by decide, rfl, byteSymbol_mask b⟩

theorem rxBodyDle : Statement .rxBodyDle :=
  ⟨rfl, ⟨.rxBodyDle, 0x010#9, 0x1FF#9, [.body], 1⟩, by decide, rfl, by decide⟩

theorem rxBodyData (b : Byte) : Statement (.rxBodyData b) :=
  ⟨rfl, ⟨.rxBodyData, 0x000#9, 0x100#9, [.body], 2⟩, by decide, rfl, byteSymbol_mask b⟩

theorem rxEscDle : Statement .rxEscDle :=
  ⟨rfl, ⟨.rxEscDle, 0x010#9, 0x1FF#9, [.esc], 1⟩, by decide, rfl, by decide⟩

theorem rxEscEtx : Statement .rxEscEtx :=
  ⟨rfl, ⟨.rxEscEtx, 0x003#9, 0x1FF#9, [.esc], 1⟩, by decide, rfl, by decide⟩

theorem rxEscBad (b : Byte) : Statement (.rxEscBad b) :=
  ⟨rfl, ⟨.rxEscBad, 0x000#9, 0x100#9, [.esc], 2⟩, by decide, rfl, byteSymbol_mask b⟩

theorem rxFcsLo (b : Byte) : Statement (.rxFcsLo b) :=
  ⟨rfl, ⟨.rxFcsLo, 0x000#9, 0x100#9, [.fcs0], 1⟩, by decide, rfl, byteSymbol_mask b⟩

theorem rxFcsHi (b : Byte) : Statement (.rxFcsHi b) :=
  ⟨rfl, ⟨.rxFcsHi, 0x000#9, 0x100#9, [.fcs1], 1⟩, by decide, rfl, byteSymbol_mask b⟩

end Sys2Proof.Laws.RowPattern
end

