-- ==== Sys2Proof/Laws/Run.lean ====
section
/-!
SUPPORT. Running a number of steps.
-/

namespace Sys2Proof.Machine

@[simp] theorem run_zero (s : State) : run 0 s = .next s := rfl

theorem run_succ_of_next {s t : State} (h : step s = .next t) (n : Nat) : run (n + 1) s = run n t := by
  simp [run, h]

/-- `run` is the host's run of the machine. -/
theorem run_eq_core_run (n : Nat) (s : State) : run n s = Sys2Proof.core.run n s := by
  induction n generalizing s with
  | zero => rfl
  | succ n ih =>
    cases h : step s with
    | next t =>
      have hc : Sys2Proof.core.step s = .next t := h
      simp only [run, h, ih, Host.Core.run, hc]; rfl
    | fault r =>
      have hc : Sys2Proof.core.step s = .fault r := h
      simp only [run, h, Host.Core.run, hc]; rfl
    | refused r =>
      have hc : Sys2Proof.core.step s = .refused r := h
      simp only [run, h, Host.Core.run, hc]; rfl

theorem run_add {m : Nat} {s t : State} (h : run m s = .next t) (n : Nat) : run (m + n) s = run n t := by
  induction m generalizing s with
  | zero => simp at h; subst h; simp
  | succ m ih =>
    rw [show m + 1 + n = (m + n) + 1 by omega]
    cases hs : step s with
    | next u => simp only [run, hs] at h ⊢; exact ih h
    | fault r => simp [run, hs] at h
    | refused r => simp [run, hs] at h

end Sys2Proof.Machine
end

