-- ==== Sys2Proof/Laws/Session.lean ====
section
/-!
SUPPORT. Two laws of the host's procedures: `WAIT.ACK` run over the block is `waitAck` of the events it takes, with each
dock frame acknowledged on the line (S8), and a session against a peer that always acknowledges runs from
`AwaitingPeerRequest` to `Closed` (R218, S7).
-/

namespace Sys2Proof.Machine

/-! ### `WAIT.ACK` -/

/-- The wire form of the acknowledgements of dock frames. -/
def dockAcks (acked : List (List Byte)) : List Byte := acked.flatMap fun b => encodeFrame (ackHeader b) []

/-- From one session to a later one `WAIT.ACK v` has taken some events: their reactions give the verdict, and exactly
the dock frames among them, up to the end of the wait, have been acknowledged on the line. -/
def Seen (v : Byte) (s t : Session) (verdict : WaitVerdict) : Prop :=
  ∃ evs, (waitAck v evs).2 = verdict ∧ t.block.evt = s.block.evt ++ evs.map Prod.fst ∧
    t.block.txLine = s.block.txLine ++ dockAcks (waitAck v evs).1 ∧ t.block.txState = .txIdle

/-- What a `WAIT.ACK v` may end in. -/
def AckWait (v : Byte) (s : Session) : Ran (List Byte) → Prop
  | .done body t => Seen v s t .succeeded ∧ typeOf body = some 0x05#8 ∧ seqOf body = some v
  | .stopped (.waiting _) t => Seen v s t .waiting
  | .stopped (.failed _) t => Seen v s t .streamClosed
  | .stopped .aborted _ => False
  | .stopped .refused _ => False
  | .stopped .stuck _ => False

theorem waitAck_cons (v : Byte) (e : Event) (c : Bool) (rest : List (Event × Bool)) :
    waitAck v ((e, c) :: rest) = match waitReaction (.ack v) c e with
      | .acknowledgeDock body => (body :: (waitAck v rest).1, (waitAck v rest).2)
      | .succeed _ => ([], .succeeded)
      | .discard _ => waitAck v rest
      | .failClosed => ([], .streamClosed) := rfl

/-- R202, R203: what each reaction of `WAIT.ACK v` says of the event. -/
theorem waitReaction_ack (v : Byte) (c : Bool) (e : Event) :
    match waitReaction (.ack v) c e with
    | .acknowledgeDock body => e = .frameOk body ∧ typeOf body = some 0x04#8
    | .succeed body => e = .frameOk body ∧ typeOf body = some 0x05#8 ∧ seqOf body = some v
    | .discard _ => ∀ body, e = .frameOk body → typeOf body ≠ some 0x04#8
    | .failClosed => e = .failed .frameIncomplete ∧ c = true := by
  cases e with
  | cmdRefused => exact nofun
  | failed k => cases k <;> cases c <;> simp [waitReaction]
  | frameOk b =>
    simp only [waitReaction, frameReaction, isType, tagByte, constants, Bool.and_eq_true, beq_iff_eq]
    by_cases h4 : typeOf b = some 0x04#8
    · simp [h4]
    · by_cases h5 : typeOf b = some 0x05#8 ∧ seqOf b = some v
      · simp [h5]
      · simp [h4, h5]

/-- R202, R203: what `WAIT.ACK` does, whatever the peer sends. -/
theorem waitLoop_ack (v : Byte) (n : Nat) (s : Session) (hs : s.block.txState = .txIdle) :
    AckWait v s (waitLoop (.ack v) n s) := by
  induction n generalizing s with
  | zero => exact ⟨[], rfl, by simp, by simp [waitAck, dockAcks], hs⟩
  | succ n ih =>
    unfold waitLoop
    cases hf : receiveFrame s.block with
    | none =>
      obtain ⟨h1, h2, h3⟩ := receiveFrame_none hf
      exact ⟨[], rfl, by simp [h1], by simp [waitAck, dockAcks, h3], h2.trans hs⟩
    | some eb =>
      obtain ⟨e, b⟩ := eb
      obtain ⟨h1, -, h3, -, -, h6, -⟩ := receiveFrame_some hf
      have hb : (takeEvent (.ack v) e b s).block = b := rfl
      have hidle : b.txState = .txIdle := h1.trans hs
      simp only []
      cases hr : waitReaction (.ack v) (judge e s.judgements).1 e with
      | succeed body =>
        refine ⟨⟨[(e, (judge e s.judgements).1)], by rw [waitAck_cons, hr],
          by rw [hb, h6]; rfl, by rw [waitAck_cons, hr, hb, h3]; simp [dockAcks], hidle⟩, ?_⟩
        have hv := waitReaction_ack v (judge e s.judgements).1 e
        rw [hr] at hv
        exact hv.2
      | failClosed =>
        exact ⟨[(e, (judge e s.judgements).1)], by rw [waitAck_cons, hr],
          by rw [hb, h6]; rfl, by rw [waitAck_cons, hr, hb, h3]; simp [dockAcks], hidle⟩
      | discard r =>
        have lift : ∀ t vd, Seen v (takeEvent (.ack v) e b s) t vd → Seen v s t vd := by
          rintro t vd ⟨evs, g1, g2, g3, g4⟩
          refine ⟨(e, (judge e s.judgements).1) :: evs, ?_, ?_, ?_, g4⟩
          · rw [waitAck_cons, hr]; exact g1
          · rw [g2, hb, h6]; simp
          · rw [g3, hb, h3, waitAck_cons, hr]
        have h := ih (takeEvent (.ack v) e b s) hidle
        simp only []
        cases hw : waitLoop (.ack v) n (takeEvent (.ack v) e b s) with
        | done body t => rw [hw] at h; exact ⟨lift _ _ h.1, h.2⟩
        | stopped why t =>
          rw [hw] at h
          cases why with
          | waiting w => exact lift _ _ h
          | failed f => exact lift _ _ h
          | aborted => exact h
          | refused => exact h
          | stuck => exact h
      | acknowledgeDock body =>
        simp only [acknowledge_eq, Ran.andThen]
        have hp := perform_frame_block (k := .acknowledgement) (h := ackHeader body) (p := []) (by simp)
          (s := takeEvent (.ack v) e b s) hidle
        rw [hb] at hp
        have lift : ∀ t vd, Seen v (perform (frameActs .acknowledgement (ackHeader body) [])
            (takeEvent (.ack v) e b s)) t vd → Seen v s t vd := by
          rintro t vd ⟨evs, g1, g2, g3, g4⟩
          refine ⟨(e, (judge e s.judgements).1) :: evs, ?_, ?_, ?_, g4⟩
          · rw [waitAck_cons, hr]; exact g1
          · rw [g2, hp, h6]; simp
          · rw [g3, hp, h3, waitAck_cons, hr]; simp [dockAcks]
        have h := ih (perform (frameActs .acknowledgement (ackHeader body) []) (takeEvent (.ack v) e b s))
          (by rw [hp]; exact hidle)
        cases hw : waitLoop (.ack v) n
            (perform (frameActs .acknowledgement (ackHeader body) []) (takeEvent (.ack v) e b s)) with
        | done body t => rw [hw] at h; exact ⟨lift _ _ h.1, h.2⟩
        | stopped why t =>
          rw [hw] at h
          cases why with
          | waiting w => exact lift _ _ h
          | failed f => exact lift _ _ h
          | aborted => exact h
          | refused => exact h
          | stuck => exact h

/-- `WAIT.ACK v` run over the block agrees with `waitAck` on the events it takes (R202, R203). -/
theorem waitFor_ack_cases (v : Byte) (s : Session) (hs : s.block.txState = .txIdle) :
    AckWait v s (waitFor (.ack v) s) := waitLoop_ack v _ s hs

/-! ### A frame on the line -/

theorem rxFrame_stuff (ys : List Byte) {s : State} (hs : s.rxState = .body)
    (hc : ∀ cap, s.params.rxCap = some cap → s.rxBuf.length + ys.length ≤ cap) (xs : List LineSymbol) :
    rxFrame s ((stuff ys).map byteSymbol ++ xs) =
      rxFrame { s with rxBuf := s.rxBuf ++ ys, crcRx := crcBytes s.crcRx ys } xs := by
  induction ys generalizing s with
  | nil => simp
  | cons y ys ih =>
    have hfull : s.params.rxCap ≠ some s.rxBuf.length := by
      intro h
      have := hc _ h
      simp only [List.length_cons] at this
      omega
    have hrec : ∀ cap, s.params.rxCap = some cap → (s.rxBuf ++ [y]).length + ys.length ≤ cap := by
      intro cap h
      have := hc cap h
      simp only [List.length_append, List.length_cons, List.length_nil] at this ⊢
      omega
    have key := ih (s := { s with rxBuf := s.rxBuf ++ [y], crcRx := crcUpdate s.crcRx y }) hs hrec
    by_cases hy : y = 0x10#8
    · subst hy
      have h1 : rxSymbol (byteSymbol 0x10#8) s = .next { s with rxState := .esc } := by
        rw [rxSymbol, show decodeSymbol s.rxState (byteSymbol 0x10#8) = .rxBodyDle by rw [hs]; decide]; rfl
      have h2 : rxSymbol (byteSymbol 0x10#8) { s with rxState := .esc } =
          .next { s with rxBuf := s.rxBuf ++ [0x10#8], crcRx := crcUpdate s.crcRx 0x10#8 } := by
        have : rxSymbol (byteSymbol 0x10#8) { s with rxState := .esc } = exec .rxEscDle { s with rxState := .esc } := rfl
        rw [this]
        simp [exec, execRxEscDle, storeLogical, State.rxFull, hfull, push, hs]
      rw [stuff_cons_dle, List.map_cons, List.map_cons, List.cons_append, List.cons_append,
        rxFrame_cons_silent h1 rfl, rxFrame_cons_silent h2 rfl, key]
      simp
    · have hd : decodeSymbol s.rxState (byteSymbol y) = .rxBodyData y := by
        simp [decodeSymbol, hs, hy]
      have h1 : rxSymbol (byteSymbol y) s =
          .next { s with rxBuf := s.rxBuf ++ [y], crcRx := crcUpdate s.crcRx y } := by
        simp [rxSymbol, hd, exec, execRxBodyData, storeLogical, State.rxFull, hfull, push]
      rw [stuff_cons_of_ne hy, List.map_cons, List.cons_append, rxFrame_cons_silent h1 rfl, key]
      simp

/-- A whole frame on the line is one `RX.FRAME`, and its result is the body. -/
theorem rxFrame_encodeBody (b : List Byte) {s : State} (hs : isHunt s.rxState = true)
    (hc : ∀ cap, s.params.rxCap = some cap → b.length ≤ cap) (xs : List LineSymbol) :
    ∃ t, rxFrame s ((encodeBody b).map byteSymbol ++ xs) = some (.frameOk b, t, xs) ∧ t.rxState = .hunt0 := by
  have h1 : rxSymbol (byteSymbol 0x16#8) s = .next { s with rxState := .hunt1 } := by
    rcases (isHunt_iff _).1 hs with h | h | h <;> rw [rxSymbol, h] <;> rfl
  let s3 : State := { s with rxState := .body, rxBuf := [], crcRx := 0x0000#16 }
  have h2 : rxSymbol (byteSymbol 0x10#8) { s with rxState := .hunt1 } = .next { s with rxState := .hunt2 } := rfl
  have h3 : rxSymbol (byteSymbol 0x02#8) { s with rxState := .hunt2 } = .next s3 := rfl
  let s4 : State := { s with rxState := .body, rxBuf := b, crcRx := crcBytes 0x0000#16 b }
  have h4 : ∀ ys, rxFrame s3 ((stuff b).map byteSymbol ++ ys) = rxFrame s4 ys := by
    intro ys
    rw [rxFrame_stuff b rfl (by intro cap h; simpa [s3] using hc cap h)]
    simp [s3, s4]
  let s6 : State := { s4 with rxState := .fcs0, crcRx := bodyFcs b }
  have h5 : rxSymbol (byteSymbol 0x10#8) s4 = .next { s4 with rxState := .esc } := rfl
  have h6 : rxSymbol (byteSymbol 0x03#8) { s4 with rxState := .esc } = .next s6 := by
    have : rxSymbol (byteSymbol 0x03#8) { s4 with rxState := .esc } = exec .rxEscEtx { s4 with rxState := .esc } := rfl
    rw [this]
    simp [exec, execRxEscEtx, s4, s6, bodyFcs_eq]
  let s7 : State := { s6 with rxState := .fcs1, rxFcsLo := lo8 (bodyFcs b) }
  have h7 : rxSymbol (byteSymbol (lo8 (bodyFcs b))) s6 = .next s7 := by
    simp [rxSymbol, decodeSymbol, s6, s7, exec, execRxFcsLo]
  let s8 : State := { s7 with evt := s.evt ++ [.frameOk b], rxBuf := [], rxState := .hunt0 }
  have h8 : rxSymbol (byteSymbol (hi8 (bodyFcs b))) s7 = .next s8 := by
    simp [rxSymbol, decodeSymbol, s7, s8, s6, s4, exec, execRxFcsHi, State.fcsMatches, event]
  refine ⟨s8, ?_, rfl⟩
  simp only [encodeBody, startMarker, endMarker, constants_syn, constants_dle, constants_stx, constants_etx,
    List.map_append, List.map_cons, List.map_nil, List.cons_append, List.nil_append, List.append_assoc]
  rw [rxFrame_cons_silent h1 rfl, rxFrame_cons_silent h2 rfl, rxFrame_cons_silent h3 rfl, h4,
    rxFrame_cons_silent h5 rfl, rxFrame_cons_silent h6 rfl, rxFrame_cons_silent h7 rfl,
    rxFrame_cons_event (e := .frameOk b) h8 rfl]

/-! ### A peer that always acknowledges -/

/-- The receiver hunts, no frame is being sent, the peer still sends frames of the given bodies and then `xs`, the
operator does not abort. -/
def Ready (s : Session) (bodies : List (List Byte)) (xs : List LineSymbol) : Prop :=
  isHunt s.block.rxState = true ∧ s.block.rxLine = framesOnLine bodies ++ xs ∧ s.abortBefore = none ∧
  (∀ cap, s.block.params.rxCap = some cap → ∀ b ∈ bodies, b.length ≤ cap) ∧ s.block.txState = .txIdle

theorem Ready.perform_frame {s : Session} {bodies : List (List Byte)} {xs : List LineSymbol} (h : Ready s bodies xs)
    (k : FrameKind) (hd : List Byte) {p : List Byte} (hp : p.length ≤ constants.maxPayload) :
    Ready (perform (frameActs k hd p) s) bodies xs := by
  obtain ⟨h1, h2, h3, h4, h5⟩ := h
  have hb := perform_frame_block (k := k) (h := hd) hp h5
  exact ⟨by rw [hb]; exact h1, by rw [hb]; exact h2, h3, by rw [hb]; exact h4, by rw [hb]; exact h5⟩

theorem Ready.perform_seqInc {s : Session} {bodies : List (List Byte)} {xs : List LineSymbol} (h : Ready s bodies xs) :
    Ready (perform [.seqInc] s) bodies xs := by
  obtain ⟨h1, h2, h3, h4, h5⟩ := h
  have : (perform [.seqInc] s).block = { s.block with seq := inc8 s.block.seq } := issue_seqInc _
  exact ⟨by rw [this]; exact h1, by rw [this]; exact h2, h3, by rw [this]; exact h4, by rw [this]; exact h5⟩

/-- The frame waited for ends the wait at once. -/
theorem waitFor_answer {w : Wait} {s : Session} {b : List Byte} {bodies : List (List Byte)} {xs : List LineSymbol}
    (h : Ready s (b :: bodies) xs) (hb : frameReaction b w = .succeed b) :
    ∃ t, waitFor w s = .done b t ∧ Ready t bodies xs ∧ t.block.seq = s.block.seq := by
  obtain ⟨h1, h2, h3, h4, h5⟩ := h
  have hline : s.block.rxLine = (encodeBody b).map byteSymbol ++ (framesOnLine bodies ++ xs) := by
    rw [h2]; simp [framesOnLine]
  obtain ⟨t, ht, hu⟩ := rxFrame_encodeBody b h1 (fun cap hc => h4 cap hc b (by simp)) (framesOnLine bodies ++ xs)
  have hk := rxFrame_some ht
  have hr : receiveFrame s.block = some (.frameOk b, { t with rxLine := framesOnLine bodies ++ xs }) := by
    rw [receiveFrame, hline, ht]
  have hn : ∃ n, s.block.rxLine.length = n + 1 := by
    rw [hline]
    exact ⟨_, by simp [encodeBody, startMarker]; rfl⟩
  obtain ⟨n, hn⟩ := hn
  refine ⟨takeEvent w (.frameOk b) { t with rxLine := framesOnLine bodies ++ xs } s, ?_, ?_, ?_⟩
  · simp [waitFor, hn, waitLoop, hr, waitReaction, hb]
  · refine ⟨by simp [takeEvent, hu, isHunt], rfl, h3, ?_, hk.1.trans h5⟩
    intro cap hc c hcm
    exact h4 cap (by rw [← hk.2.2.2.2.1]; exact hc) c (by simp [hcm])
  · exact hk.2.2.2.1

theorem frameReaction_ack {b : List Byte} {v : Byte} (h : isAnswer b (.dack, some v)) :
    frameReaction b (.ack v) = .succeed b := by
  obtain ⟨h1, h2⟩ := h
  have h3 : isType .dock b = false := by
    simp only [isType, tagByte, beq_iff_eq] at h1 ⊢
    rw [h1]; decide
  simp only [frameReaction, h3, Bool.false_eq_true, if_false]
  simp [h1, h2 v rfl]

theorem frameReaction_request {b : List Byte} (h : isAnswer b (.req, none)) : frameReaction b .request = .succeed b := by
  have h1 : isType .req b = true := h.1
  simp [frameReaction, h1]

theorem frameReaction_dock {b : List Byte} (h : isAnswer b (.dock, none)) : frameReaction b .dock = .succeed b := by
  have h1 : isType .dock b = true := h.1
  simp [frameReaction, h1]

theorem takeDock_answer {s : Session} {b : List Byte} {bodies : List (List Byte)} {xs : List LineSymbol}
    (h : Ready s (b :: bodies) xs) (hb : isAnswer b (.dock, none)) :
    ∃ t, takeDock s = .done b t ∧ Ready t bodies xs := by
  obtain ⟨t, ht, hr, -⟩ := waitFor_answer h (frameReaction_dock hb)
  exact ⟨perform (frameActs .acknowledgement (ackHeader b) []) t,
    by simp only [takeDock, ht, Ran.andThen, acknowledge_eq], hr.perform_frame _ _ (by simp)⟩

theorem sendAcknowledged_answer {k : FrameKind} {hd p : List Byte} (hk : headerOk k hd = true)
    (hp : p.length ≤ constants.maxPayload) {v : Byte} {s : Session} {b : List Byte} {bodies : List (List Byte)}
    {xs : List LineSymbol} (h : Ready s (b :: bodies) xs) (hb : isAnswer b (.dack, some v)) :
    ∃ t, sendAcknowledged k hd p v s = .done () t ∧ Ready t bodies xs := by
  obtain ⟨t, ht, hr, -⟩ := waitFor_answer (h.perform_frame k hd hp) (frameReaction_ack hb)
  exact ⟨_, by simp only [sendAcknowledged, sendFrame_eq hk hp, Ran.andThen, ht], hr.perform_seqInc⟩

theorem sendSeq_answer {p : List Byte} (hp : p.length ≤ constants.maxPayload) {s : Session} {b : List Byte}
    {bodies : List (List Byte)} {xs : List LineSymbol} (h : Ready s (b :: bodies) xs)
    (hb : isAnswer b (.dack, some s.block.seq)) :
    ∃ t, sendSeq p s = .done () t ∧ Ready t bodies xs ∧ t.block.seq = s.block.seq + 1#8 := by
  have hk := sendSeq_keeps (fit := True) (fun _ => hp) s
  simp only [sendSeq, readNumber_eq, Ran.andThen] at hk ⊢
  obtain ⟨t, ht, hr⟩ := sendAcknowledged_answer (k := .sequenced s.block.seq)
    (isSequencedHeader_seqHeader s.block.seq p) hp
    (s := { s with
      block := { s.block with replies := s.block.replies ++ [.byte s.block.seq] }, acts := s.acts ++ [.seqRd] }) h hb
  rw [ht] at hk
  exact ⟨t, ht, hr, (hk h.2.2.2.2).2.1⟩

theorem negotiate_answer {p : List Byte} (hp : p.length ≤ constants.maxPayload) {s : Session} {b : List Byte}
    {bodies : List (List Byte)} {xs : List LineSymbol} (h : Ready s (b :: bodies) xs)
    (hb : isAnswer b (.dack, some s.block.seq)) :
    ∃ t, negotiate p s = .done () t ∧ Ready t bodies xs := by
  simp only [negotiate, readNumber_eq, Ran.andThen]
  exact sendAcknowledged_answer (k := .capability s.block.seq) rfl hp
    (s := { s with
      block := { s.block with replies := s.block.replies ++ [.byte s.block.seq] }, acts := s.acts ++ [.seqRd] }) h hb

/-- The acknowledgements of `m` sequenced frames in a row. -/
def ackRun (v : Byte) (m : Nat) : List (FrameType × Option Byte) :=
  (List.range m).map fun k => (.dack, some (v + BitVec.ofNat 8 k))

theorem ackRun_succ (v : Byte) (m : Nat) : ackRun v (m + 1) = (.dack, some v) :: ackRun (v + 1#8) m := by
  simp only [ackRun, List.range_succ_eq_map, List.map_cons, List.map_map]
  congr 1
  · simp
  · apply List.map_congr_left
    intro k _
    simp only [Function.comp_apply, Nat.succ_eq_add_one]
    rw [Nat.add_comm, BitVec.ofNat_add, BitVec.add_assoc]

theorem sendChunks_answers {pkg : List Byte} (cs : List (List Byte)) (hcs : ∀ c ∈ cs, c ∈ chunks pkg) (total sent : Nat)
    {s : Session} {bs rest : List (List Byte)} {xs : List LineSymbol} (h : Ready s (bs ++ rest) xs)
    (hb : List.Forall₂ isAnswer bs (ackRun s.block.seq cs.length)) :
    ∃ t, sendChunks total sent cs s = .done () t ∧ Ready t rest xs := by
  induction cs generalizing sent s bs with
  | nil =>
    cases hb
    exact ⟨s, rfl, h⟩
  | cons c cs ih =>
    rw [List.length_cons, ackRun_succ] at hb
    cases hb with
    | cons hb1 hb2 =>
      obtain ⟨t, ht, hr, hq⟩ := sendSeq_answer (padChunk_length_le (hcs c (by simp))) h hb1
      obtain ⟨u, hu, hru⟩ := ih (fun d hd => hcs d (by simp [hd])) (sent + countedLength c)
        (s := { t with progress := t.progress ++ [(sent + countedLength c, total)] }) hr (by rw [← hq] at hb2; exact hb2)
      exact ⟨u, by simp only [sendChunks, ht, Ran.andThen]; exact hu, hru⟩

/-- Against such a peer every step of the script completes and takes exactly the answers to it. -/
theorem runStep_answers {st : HostStep} (hst : st.fits) {s : Session} {bs rest : List (List Byte)}
    {xs : List LineSymbol} (h : Ready s (bs ++ rest) xs)
    (hb : List.Forall₂ isAnswer bs (answersTo s.block.seq st)) :
    ∃ t, runStep st s = .done () t ∧ Ready t rest xs := by
  cases st with
  | awaitRequest =>
    cases hb with
    | cons hb1 hb2 =>
      cases hb2
      obtain ⟨t, ht, hr, -⟩ := waitFor_answer h (frameReaction_request hb1)
      exact ⟨t, by simp only [runStep, ht, Ran.andThen], hr⟩
  | negotiate p =>
    cases hb with
    | cons hb1 hb2 => cases hb2; exact negotiate_answer hst h hb1
  | awaitDock =>
    cases hb with
    | cons hb1 hb2 =>
      cases hb2
      obtain ⟨t, ht, hr⟩ := takeDock_answer h hb1
      exact ⟨t, by simp only [runStep, ht, Ran.andThen], hr⟩
  | awaitIdentity =>
    cases hb with
    | cons hb1 hb2 =>
      rename_i body _
      cases hb2
      obtain ⟨t, ht, hr⟩ := takeDock_answer h hb1
      refine ⟨decodeOwner body t, by simp only [runStep, ht, Ran.andThen], ?_⟩
      unfold decodeOwner
      split <;> exact hr
  | sendSeq p =>
    cases hb with
    | cons hb1 hb2 =>
      cases hb2
      obtain ⟨t, ht, hr, -⟩ := sendSeq_answer hst h hb1
      exact ⟨t, ht, hr⟩
  | transfer pkg =>
    have hp : (packageBeginPayload (BitVec.ofNat 32 pkg.length)).length ≤ constants.maxPayload := by
      simp [packageBeginPayload, newtdock, be32, constants]
    have hl : (transferPayloads pkg).length = (chunks pkg).length + 1 := by simp [transferPayloads]
    have hb' : List.Forall₂ isAnswer bs (ackRun s.block.seq ((chunks pkg).length + 1)) := by
      rw [← hl]; exact hb
    rw [ackRun_succ] at hb'
    cases hb' with
    | cons hb1 hb2 =>
      obtain ⟨t, ht, hr, hq⟩ := sendSeq_answer hp h hb1
      obtain ⟨u, hu, hru⟩ := sendChunks_answers (pkg := pkg) (chunks pkg) (fun _ h => h) pkg.length 0 hr
        (by rw [← hq] at hb2; exact hb2)
      exact ⟨u, by simp only [runStep, transfer, ht, Ran.andThen, hu, noteTransfer], hru⟩
  | disconnect =>
    cases hb
    refine ⟨_, by rw [runStep, disconnect_eq], ?_⟩
    exact Ready.perform_frame (k := .disconnect s.block.seq) (hd := seqHeader s.block.seq disconnectPayload) (s := { s with
      block := { s.block with replies := s.block.replies ++ [.byte s.block.seq] }, acts := s.acts ++ [.seqRd] })
      h disconnectPayload_fits

theorem runScript_answers (sts : List HostStep) (hf : ∀ st ∈ sts, st.fits) (k : Nat) {s : Session}
    {bodies : List (List Byte)} {xs : List LineSymbol} (h : Ready s bodies xs)
    (hb : List.Forall₂ isAnswer bodies (answers s.block.seq sts)) :
    ∃ t, runScript k sts s = .done () t ∧ Ready t [] xs := by
  induction sts generalizing k s bodies with
  | nil =>
    cases hb
    exact ⟨s, rfl, h⟩
  | cons st sts ih =>
    have hb1 := List.forall₂_take_append _ _ _ hb
    have hb2 := List.forall₂_drop_append _ _ _ hb
    rw [← List.take_append_drop (answersTo s.block.seq st).length bodies] at h
    have hk := runStep_keeps (fit := True) st (fun _ => hf st (by simp)) { s with phase := phaseIn k st }
    obtain ⟨t, ht, hr⟩ := runStep_answers (hf st (by simp)) (s := { s with phase := phaseIn k st }) h hb1
    rw [ht] at hk
    have hq : t.block.seq = s.block.seq + BitVec.ofNat 8 (incsOf st) := (hk h.2.2.2.2).2.1
    obtain ⟨u, hu, hru⟩ := ih (fun x hx => hf x (by simp [hx])) (k + 1) hr (by rw [hq]; exact hb2)
    refine ⟨u, ?_, hru⟩
    have ha : s.abortBefore = none := h.2.2.1
    rw [runScript, if_neg (by rw [ha]; exact nofun)]
    simp only [ht, Ran.andThen, hu]

/-- S7, R218: against a peer that always responds with valid acknowledgements a full session runs from
`AwaitingPeerRequest` to `Closed`, for every number of packages, and takes every frame the peer sends for it. -/
theorem runSession_closes (packages : List (List Byte)) (s : Session) (bodies : List (List Byte))
    (xs : List LineSymbol) (hline : s.block.rxLine = framesOnLine bodies ++ xs) (habort : s.abortBefore = none)
    (hcap : ∀ cap, s.block.params.rxCap = some cap → ∀ b ∈ bodies, b.length ≤ cap)
    (hpeer : List.Forall₂ isAnswer bodies (answers s.block.params.seqInit (session s.host packages)))
    (hfit : HostFits s.host) :
    (startSession s).phase = .awaitingPeerRequest ∧
    ∃ t, runSession packages s = (some .closed, t) ∧ t.phase = .closed ∧ t.block.rxLine = xs := by
  have hfits : ∀ st ∈ session s.host packages, st.fits := by
    intro st hst
    rcases List.mem_append.1 hst with hst | hst
    · rcases List.mem_append.1 hst with h | h
      · rcases List.mem_cons.1 h with rfl | h
        · trivial
        · exact (handshakeTail_fits s.host st h).1 hfit
      · exact (transfers_fit packages st h).1 trivial
    · simp only [List.mem_cons, List.not_mem_nil, or_false] at hst
      subst hst
      trivial
  obtain ⟨t, ht, hr⟩ := runScript_answers (session s.host packages) hfits 0 (s := startSession s) (bodies := bodies) (xs := xs)
    ⟨rfl, hline, habort, hcap, rfl⟩ hpeer
  exact ⟨rfl, { t with phase := .closed }, by rw [runSession, ht]; rfl, rfl, by simpa [framesOnLine] using hr.2.1⟩

/-- There is such a peer, whatever the open positions in a header are: a header of each answer's type and number. -/
theorem answers_exist (as : List (FrameType × Option Byte)) : ∃ bodies, List.Forall₂ isAnswer bodies as := by
  induction as with
  | nil => exact ⟨[], .nil⟩
  | cons a as ih =>
    obtain ⟨bodies, hb⟩ := ih
    let n := max Config.hdrTypeIndex Config.hdrSeqIndex + 1
    have h1 : Config.hdrTypeIndex < n := by omega
    have h2 : Config.hdrSeqIndex < n := by omega
    refine ⟨((List.range n).map fun i =>
      if i = Config.hdrTypeIndex then tagByte a.1 else a.2.getD 0x00#8) :: bodies, .cons ⟨?_, ?_⟩ hb⟩
    · simp [isType, typeOf, h1]
    · intro v hv
      simp [seqOf, h2, hdrSeqIndex_ne, hv]

end Sys2Proof.Machine
end

