-- ==== Sys2Proof/Laws/Step.lean ====
section
/-!
SUPPORT. What one step can do, said once: an inversion lemma with a case per kind of input.
-/

namespace Sys2Proof.Machine

/-- Every way a step can answer a next state. -/
theorem step_cases {s t : State} (h : step s = .next t) :
    (s.turns = [] ∧ t = s) ∨
    (∃ ts, s.turns = .reset :: ts ∧ t = resetInput { s with turns := ts }) ∨
    (∃ ts, s.turns = .host :: ts ∧ s.cmdPort = [] ∧ t = { s with turns := ts }) ∨
    (∃ ts w ws i, s.turns = .host :: ts ∧ s.cmdPort = w :: ws ∧ decodeCommand w = .ok i ∧
      exec i { s with turns := ts, cmdPort := ws } = .next t) ∨
    (∃ ts w ws e, s.turns = .host :: ts ∧ s.cmdPort = w :: ws ∧ decodeCommand w = .error e ∧
      t = refuse { s with turns := ts, cmdPort := ws }) ∨
    (∃ ts, s.turns = .line :: ts ∧ s.rxLine = [] ∧ t = { s with turns := ts }) ∨
    (∃ ts x xs, s.turns = .line :: ts ∧ s.rxLine = x :: xs ∧
      exec (decodeSymbol s.rxState x) { s with turns := ts, rxLine := xs } = .next t) := by
  cases ht : s.turns with
  | nil =>
    simp only [step, fetch, ht, Host.Outcome.next.injEq] at h
    exact .inl ⟨rfl, h.symm⟩
  | cons a ts =>
    cases a with
    | reset =>
      simp only [step, fetch, ht, Host.Outcome.next.injEq] at h
      exact .inr (.inl ⟨ts, rfl, h.symm⟩)
    | host =>
      cases hp : s.cmdPort with
      | nil =>
        simp only [step, fetch, ht, fetchCommand, hp, Host.Outcome.next.injEq] at h
        exact .inr (.inr (.inl ⟨ts, rfl, rfl, h.symm⟩))
      | cons w ws =>
        cases hd : decodeCommand w with
        | ok i =>
          simp only [step, fetch, ht, fetchCommand, hp, hd] at h
          exact .inr (.inr (.inr (.inl ⟨ts, w, ws, i, rfl, rfl, hd, h⟩)))
        | error e =>
          simp only [step, fetch, ht, fetchCommand, hp, hd, Host.Outcome.next.injEq] at h
          exact .inr (.inr (.inr (.inr (.inl ⟨ts, w, ws, e, rfl, rfl, hd, h.symm⟩))))
    | line =>
      cases hl : s.rxLine with
      | nil =>
        simp only [step, fetch, ht, fetchSymbol, hl, Host.Outcome.next.injEq] at h
        exact .inr (.inr (.inr (.inr (.inr (.inl ⟨ts, rfl, rfl, h.symm⟩)))))
      | cons x xs =>
        simp only [step, fetch, ht, fetchSymbol, hl] at h
        exact .inr (.inr (.inr (.inr (.inr (.inr ⟨ts, x, xs, rfl, rfl, h⟩)))))

end Sys2Proof.Machine
end

