-- ==== Sys2Proof/Tests/Slice0.lean ====
section
/-!
SUPPORT. The model's own tests: ill-formed terms, encoded words written out bit by bit, single steps, and a witness
for the hypotheses of each statement. Expected values are those of spec/95_test_vectors.md (named V-..) and of the
examples in the rules.
-/

namespace Sys2Proof.Tests

open Sys2Proof.Machine

/-! ### Ill-formed terms -/

theorem test_wf_refuses_hunt_miss_of_syn : (Instr.rxHuntMiss 0x16#8).wf = false := by decide
theorem test_wf_takes_hunt_miss_of_dle : (Instr.rxHuntMiss 0x10#8).wf = true := by decide
theorem test_wf_refuses_body_data_of_dle : (Instr.rxBodyData 0x10#8).wf = false := by decide
theorem test_wf_refuses_esc_bad_of_dle : (Instr.rxEscBad 0x10#8).wf = false := by decide
theorem test_wf_refuses_esc_bad_of_etx : (Instr.rxEscBad 0x03#8).wf = false := by decide

/-! ### Decoding: every row, its word written bit by bit from R80, R81, R87, R88 -/

/-- V-U17: `op` 0001, `rsv` 0000, `acc` C0C1, `data` 41. -/
theorem test_decode_crc_upd :
    decodeCommand 0b00010000110000001100000101000001#32 = .ok (.crcUpd 0xC0C1#16 0x41#8) := by decide
theorem test_decode_tx_sof :
    decodeCommand 0b00100000000000000000000000000000#32 = .ok .txSof := by decide
theorem test_decode_tx_byte :
    decodeCommand 0b00110000000000000000000011101111#32 = .ok (.txByte 0xEF#8) := by decide
theorem test_decode_tx_eof :
    decodeCommand 0b01000000000000000000000000000000#32 = .ok .txEof := by decide
theorem test_decode_seq_rd :
    decodeCommand 0b01010000000000000000000000000000#32 = .ok .seqRd := by decide
theorem test_decode_seq_inc :
    decodeCommand 0b01100000000000000000000000000000#32 = .ok .seqInc := by decide
theorem test_decode_rx_eos : decodeSymbol .fcs1 0b100000000#9 = .rxEos := by decide
/-- R81: the byte is ignored when `eos` is 1. -/
theorem test_decode_rx_eos_ignores_byte : decodeSymbol .esc 0b100000011#9 = .rxEos := by decide
theorem test_decode_rx_hunt_syn : decodeSymbol .hunt2 0b000010110#9 = .rxHuntSyn := by decide
theorem test_decode_rx_hunt_dle : decodeSymbol .hunt1 0b000010000#9 = .rxHuntDle := by decide
theorem test_decode_rx_hunt_stx : decodeSymbol .hunt2 0b000000010#9 = .rxHuntStx := by decide
/-- R154: "`16 10 10` returns to `HUNT0` on the second `10`". -/
theorem test_decode_rx_hunt_miss : decodeSymbol .hunt2 0b000010000#9 = .rxHuntMiss 0x10#8 := by decide
theorem test_decode_rx_body_dle : decodeSymbol .body 0b000010000#9 = .rxBodyDle := by decide
/-- R155: "a `16` does not restart the scan". -/
theorem test_decode_rx_body_data : decodeSymbol .body 0b000010110#9 = .rxBodyData 0x16#8 := by decide
theorem test_decode_rx_esc_dle : decodeSymbol .esc 0b000010000#9 = .rxEscDle := by decide
theorem test_decode_rx_esc_etx : decodeSymbol .esc 0b000000011#9 = .rxEscEtx := by decide
theorem test_decode_rx_esc_bad : decodeSymbol .esc 0b000010110#9 = .rxEscBad 0x16#8 := by decide
/-- R160: "`b = 0x10` and `b = 0x16` are plain values here". -/
theorem test_decode_rx_fcs_lo : decodeSymbol .fcs0 0b000010000#9 = .rxFcsLo 0x10#8 := by decide
theorem test_decode_rx_fcs_hi : decodeSymbol .fcs1 0b010101000#9 = .rxFcsHi 0xA8#8 := by decide

/-- V-Q: "Malformed words `50000001`, `60000100`, `51000000` are refused". -/
theorem test_decode_reserved_operands :
    decodeCommand 0x50000001#32 = .error .dataNotZero ∧ decodeCommand 0x60000100#32 = .error .accNotZero ∧
    decodeCommand 0x51000000#32 = .error .rsvNotZero := by decide
/-- R89: `op` 0 and 7 to F. -/
theorem test_decode_reserved_op :
    decodeCommand 0x00000000#32 = .error (.reservedOp 0x0#4) ∧
    decodeCommand 0x70000000#32 = .error (.reservedOp 0x7#4) ∧
    decodeCommand 0xF0000000#32 = .error (.reservedOp 0xF#4) := by decide
/-- P1, P3, P5: words the spec writes out. -/
theorem test_encode_words :
    [Instr.crcUpd 0x0000#16 0x03#8, .txSof, .txByte 0xDE#8, .txEof, .seqRd, .seqInc].map encode =
      [.command 0x10000003#32, .command 0x20000000#32, .command 0x300000DE#32, .command 0x40000000#32,
        .command 0x50000000#32, .command 0x60000000#32] := by decide

/-! ### The table words of the host's question -/

theorem test_table_word_command : decodeTableWord 32 0x30000041 = some (.txByte 0x41#8) := by decide
theorem test_table_word_reserved : decodeTableWord 32 0x70000000 = none := by decide
theorem test_table_word_symbols :
    [0x100, 0x016, 0x010, 0x002, 0x003, 0x000].map (decodeTableWord 16) =
      [some .rxEos, some .rxHuntSyn, some .rxHuntDle, some .rxHuntStx, some .rxEscEtx,
        some (.rxHuntMiss 0x00#8)] := by decide
theorem test_table_word_too_wide : decodeTableWord 16 0x200 = none := by decide

/-! ### The checksum engine -/

/-- V-B1 to V-B9. -/
theorem test_crc_bit :
    [crcBit 0x0000#16 false, crcBit 0x0000#16 true, crcBit 0x0001#16 false, crcBit 0x0001#16 true,
      crcBit 0xFFFF#16 false, crcBit 0xFFFF#16 true, crcBit 0x8000#16 false, crcBit 0xA001#16 true,
      crcBit 0xA001#16 false] =
      [0x0000#16, 0xA001#16, 0xA001#16, 0x0000#16, 0xDFFE#16, 0x7FFF#16, 0x4000#16, 0x5000#16, 0xF001#16] := by
  decide
/-- V-U2, V-U8 to V-U17: the pair 01 and 80 tells the bit orders apart. -/
theorem test_crc_update :
    [crcUpdate 0x0000#16 0x01#8, crcUpdate 0x0000#16 0x80#8, crcUpdate 0x0000#16 0xFF#8,
      crcUpdate 0xFFFF#16 0x00#8, crcUpdate 0xFFFF#16 0x01#8, crcUpdate 0xFFFF#16 0xFF#8,
      crcUpdate 0x0001#16 0x01#8, crcUpdate 0x8000#16 0x00#8, crcUpdate 0xA001#16 0x00#8] =
      [0xC0C1#16, 0xA001#16, 0x4040#16, 0x40BF#16, 0x807E#16, 0x00FF#16, 0x0000#16, 0x0080#16, 0xC061#16] := by
  decide
set_option maxRecDepth 8000 in
/-- V-S4, the check value over "123456789". -/
theorem test_crc_bytes_check_value :
    crcBytes 0x0000#16 [0x31#8, 0x32#8, 0x33#8, 0x34#8, 0x35#8, 0x36#8, 0x37#8, 0x38#8, 0x39#8] = 0xBB3D#16 := by
  decide
/-- V-T: entries 10, 7F, 80 and FF of the table. -/
theorem test_crc_table :
    [crcTable 0x10#8, crcTable 0x7F#8, crcTable 0x80#8, crcTable 0xFF#8] =
      [0xCC01#16, 0xE041#16, 0xA001#16, 0x4040#16] := by decide
set_option maxRecDepth 8000 in
/-- V-F4, V-F6 and V-F10d. -/
theorem test_encode_frame :
    encodeFrame [0x02#8, 0x01#8] [0x10#8, 0x41#8] =
      [0x16#8, 0x10#8, 0x02#8, 0x02#8, 0x01#8, 0x10#8, 0x10#8, 0x41#8, 0x10#8, 0x03#8, 0x09#8, 0xA8#8] ∧
    encodeFrame [0x10#8, 0x10#8] [0x10#8] =
      [0x16#8, 0x10#8, 0x02#8, 0x10#8, 0x10#8, 0x10#8, 0x10#8, 0x10#8, 0x10#8, 0x10#8, 0x03#8, 0x48#8, 0xC4#8] ∧
    encodeFrame [0xF4#8, 0x3F#8] [] =
      [0x16#8, 0x10#8, 0x02#8, 0xF4#8, 0x3F#8, 0x10#8, 0x03#8, 0x10#8, 0x03#8] := by decide

/-! ### Single steps -/

/-- A small state with no value of its own kind repeated. -/
def base : State where
  txState := .txIdle
  crcTx := 0x1234#16
  rxState := .hunt0
  crcRx := 0x5678#16
  rxBuf := []
  rxFcsLo := 0x9A#8
  seq := 0x07#8
  txLine := [0xEE#8]
  rxLine := []
  evt := [.cmdRefused]
  replies := []
  cmdPort := []
  turns := []
  resets := 3
  params := ⟨0x2A#8, some 4⟩

/-- The next state, if the outcome is one. -/
def nextOf : Host.Outcome State Fault Refusal → Option State
  | .next t => some t
  | .fault _ => none
  | .refused _ => none

/-- V-U17. -/
theorem test_crc_upd :
    nextOf (exec (.crcUpd 0xC0C1#16 0x41#8) base) = some { base with replies := [.word16 0xA0C1#16] } := by decide
/-- R131, R138. -/
theorem test_tx_sof :
    nextOf (exec .txSof base) = some { base with
      txLine := [0xEE#8, 0x16#8, 0x10#8, 0x02#8], crcTx := 0x0000#16, txState := .txBody } := by decide
theorem test_tx_sof_refused :
    nextOf (exec .txSof { base with txState := .txBody }) =
      some { base with txState := .txBody, evt := [.cmdRefused, .cmdRefused] } := by decide
/-- R132: "with `CRC_TX = 0xA0C0`, `TX.BYTE 0x10` emits `10 10` and sets `CRC_TX = 0x9CA1`". -/
theorem test_tx_byte_doubles_dle :
    nextOf (exec (.txByte 0x10#8) { base with txState := .txBody, crcTx := 0xA0C0#16 }) =
      some { base with txState := .txBody, crcTx := 0x9CA1#16, txLine := [0xEE#8, 0x10#8, 0x10#8] } := by decide
theorem test_tx_byte_refused :
    nextOf (exec (.txByte 0x41#8) base) = some { base with evt := [.cmdRefused, .cmdRefused] } := by decide
/-- R133: "with `CRC_TX = 0x889D`, `TX.EOF` emits `10 03 09 A8`". -/
theorem test_tx_eof :
    nextOf (exec .txEof { base with txState := .txBody, crcTx := 0x889D#16 }) =
      some { base with crcTx := 0xA809#16, txLine := [0xEE#8, 0x10#8, 0x03#8, 0x09#8, 0xA8#8] } := by decide
/-- P3: the empty frame. -/
theorem test_tx_eof_empty :
    nextOf (exec .txEof { base with txState := .txBody, crcTx := 0x0000#16 }) =
      some { base with crcTx := 0x0140#16, txLine := [0xEE#8, 0x10#8, 0x03#8, 0x40#8, 0x01#8] } := by decide
/-- R191. -/
theorem test_seq_rd : nextOf (exec .seqRd base) = some { base with replies := [.byte 0x07#8] } := by decide
/-- R192: "`0xFF` goes to `0x00`". -/
theorem test_seq_inc_wraps :
    nextOf (exec .seqInc { base with seq := 0xFF#8 }) = some { base with seq := 0x00#8 } := by decide
/-- R151. -/
theorem test_rx_hunt_syn :
    nextOf (exec .rxHuntSyn { base with rxState := .hunt2 }) = some { base with rxState := .hunt1 } := by decide
/-- R152. -/
theorem test_rx_hunt_dle :
    nextOf (exec .rxHuntDle { base with rxState := .hunt1 }) = some { base with rxState := .hunt2 } := by decide
/-- R153. -/
theorem test_rx_hunt_stx :
    nextOf (exec .rxHuntStx { base with rxState := .hunt2 }) =
      some { base with rxState := .body, crcRx := 0x0000#16 } := by decide
/-- R154. -/
theorem test_rx_hunt_miss :
    nextOf (exec (.rxHuntMiss 0x03#8) { base with rxState := .hunt2 }) = some base := by decide
/-- R155: "`RX_BUF = [0x02]`, `CRC_RX = 0xC181`, symbol `01`". -/
theorem test_rx_body_data :
    nextOf (exec (.rxBodyData 0x01#8) { base with rxState := .body, rxBuf := [0x02#8], crcRx := 0xC181#16 }) =
      some { base with rxState := .body, rxBuf := [0x02#8, 0x01#8], crcRx := 0xA0C0#16 } := by decide
/-- V-R7. -/
theorem test_rx_body_data_overrun :
    nextOf (exec (.rxBodyData 0x03#8)
      { base with rxState := .body, rxBuf := [0x01#8, 0x02#8], crcRx := 0x5180#16, params := ⟨0x00#8, some 2⟩ }) =
      some { base with
        evt := [.cmdRefused, .failed .rxOverrun], crcRx := 0x5180#16, params := ⟨0x00#8, some 2⟩ } := by decide
/-- R156. -/
theorem test_rx_body_dle :
    nextOf (exec .rxBodyDle { base with rxState := .body, rxBuf := [0x02#8] }) =
      some { base with rxState := .esc, rxBuf := [0x02#8] } := by decide
/-- R157: "`RX_BUF = [0x02, 0x01]`, `CRC_RX = 0xA0C0`, symbol `10`". -/
theorem test_rx_esc_dle :
    nextOf (exec .rxEscDle { base with rxState := .esc, rxBuf := [0x02#8, 0x01#8], crcRx := 0xA0C0#16 }) =
      some { base with rxState := .body, rxBuf := [0x02#8, 0x01#8, 0x10#8], crcRx := 0x9CA1#16 } := by decide
theorem test_rx_esc_dle_overrun :
    nextOf (exec .rxEscDle { base with rxState := .esc, params := ⟨0x00#8, some 0⟩ }) =
      some { base with evt := [.cmdRefused, .failed .rxOverrun], params := ⟨0x00#8, some 0⟩ } := by decide
/-- R158: "`CRC_RX = 0x889D`, symbol `03`". -/
theorem test_rx_esc_etx :
    nextOf (exec .rxEscEtx { base with rxState := .esc, rxBuf := [0x02#8], crcRx := 0x889D#16 }) =
      some { base with rxState := .fcs0, rxBuf := [0x02#8], crcRx := 0xA809#16 } := by decide
/-- R159, V-F11a. -/
theorem test_rx_esc_bad :
    nextOf (exec (.rxEscBad 0x41#8) { base with rxState := .esc, rxBuf := [0x41#8] }) =
      some { base with evt := [.cmdRefused, .failed .escapeViolation] } := by decide
/-- V-F11b: the byte `16` puts the receiver in `HUNT1`. -/
theorem test_rx_esc_bad_syn :
    nextOf (exec (.rxEscBad 0x16#8) { base with rxState := .esc, rxBuf := [0x41#8] }) =
      some { base with evt := [.cmdRefused, .failed .escapeViolation], rxState := .hunt1 } := by decide
/-- R160. -/
theorem test_rx_fcs_lo :
    nextOf (exec (.rxFcsLo 0x09#8) { base with rxState := .fcs0 }) =
      some { base with rxFcsLo := 0x09#8, rxState := .fcs1 } := by decide
/-- R161: "symbol `A8`", and "symbol `A9` instead". -/
theorem test_rx_fcs_hi_ok :
    nextOf (exec (.rxFcsHi 0xA8#8)
      { base with rxState := .fcs1, rxBuf := [0x02#8, 0x01#8], crcRx := 0xA809#16, rxFcsLo := 0x09#8 }) =
      some { base with
        evt := [.cmdRefused, .frameOk [0x02#8, 0x01#8]], crcRx := 0xA809#16, rxFcsLo := 0x09#8 } := by decide
theorem test_rx_fcs_hi_mismatch :
    nextOf (exec (.rxFcsHi 0xA9#8)
      { base with rxState := .fcs1, rxBuf := [0x02#8, 0x01#8], crcRx := 0xA809#16, rxFcsLo := 0x09#8 }) =
      some { base with
        evt := [.cmdRefused, .failed .checksumMismatch], crcRx := 0xA809#16, rxFcsLo := 0x09#8 } := by decide
/-- R162: "state `ESC`, `RX_BUF = [0x02, 0x01]`, symbol `EOS`". -/
theorem test_rx_eos :
    nextOf (exec .rxEos { base with rxState := .esc, rxBuf := [0x02#8, 0x01#8] }) =
      some { base with evt := [.cmdRefused, .failed .frameIncomplete] } := by decide
/-- V-R4 (a): `EOS` in `HUNT0`. -/
theorem test_rx_eos_hunting :
    nextOf (exec .rxEos base) = some { base with evt := [.cmdRefused, .failed .frameIncomplete] } := by decide

/-- P3, line 7: a reserved word on the port. -/
theorem test_step_reserved_word :
    nextOf (step { base with cmdPort := [0x70000000#32, 0x50000000#32], turns := [.host, .host] }) =
      some { base with
        cmdPort := [0x50000000#32], turns := [.host], evt := [.cmdRefused, .cmdRefused] } := by decide
/-- P1, line 8. -/
theorem test_step_symbol :
    nextOf (step { base with rxLine := [0x016#9, 0x010#9], turns := [.line] }) =
      some { base with rxLine := [0x010#9], rxState := .hunt1 } := by decide
/-- A state in the middle of a frame on both sides, with a symbol waiting and the reset input next. -/
def busy : State :=
  { base with turns := [.reset], txState := .txBody, rxState := .esc, rxBuf := [0x01#8], rxLine := [0x010#9] }

/-- R280: what the reset leaves that the spec fixes. -/
theorem test_step_reset :
    (nextOf (step busy)).map (fun t => (t.txState, t.rxState, t.rxBuf, t.seq)) =
      some (.txIdle, .hunt0, [], 0x2A#8) ∧
    (nextOf (step busy)).map (fun t => (t.evt, t.txLine, t.rxLine)) = some ([], [], [0x010#9]) := by decide

/-- What the host asks of `withFetchWord`, on two rows: it runs after reset. -/
theorem test_fetch_word_command :
    (nextOf (step (State.reset.withFetchWord 32 0x20000000))).map (fun t => (t.txState, t.txLine)) =
      some (.txBody, [0x16#8, 0x10#8, 0x02#8]) := by decide
theorem test_fetch_word_symbol :
    (nextOf (step (State.reset.withFetchWord 9 0x002))).map (fun t => (t.rxState, t.crcRx)) =
      some (.body, 0x0000#16) := by decide

/-! ### Programs and the host -/

/-- R92: "`CRC.UPD 0xC0C1, 0x41`, `TX.BYTE 0x10`", "`RX 0x16`", "`RX EOS`". -/
theorem test_program_lines :
    [programLine .hunt0 (.command 0x10C0C141#32), programLine .hunt0 (.command 0x30000010#32),
      programLine .hunt0 (.symbol 0x016#9), programLine .esc (.symbol 0x100#9),
      programLine .hunt0 (.command 0x70000000#32)] =
      [some "CRC.UPD 0xC0C1, 0x41", some "TX.BYTE 0x10", some "RX 0x16 ; RX.HUNT.SYN", some "RX EOS ; RX.EOS",
        none] := by decide

/-- R163 on V-F11b's first six symbols: the result, where the receiver stands, what is left. -/
theorem test_rx_frame :
    (rxFrame base ([0x16#8, 0x10#8, 0x02#8, 0x41#8, 0x10#8, 0x16#8, 0x10#8].map byteSymbol)).map
      (fun r => (r.1, r.2.1.rxState, r.2.2)) = some (.failed .escapeViolation, .hunt1, [0x010#9]) := by decide
/-- V-C1 to V-C9: how many chunks. -/
theorem test_chunk_count :
    [0, 1, 255, 256, 257, 300, 512, 513].map chunkCount = [0, 1, 1, 1, 2, 2, 2, 3] := by decide
/-- V-C2: `[data_byte, 00, 00, 00]`; V-C4. -/
theorem test_pad_chunk :
    padChunk [0x41#8] = [0x41#8, 0x00#8, 0x00#8, 0x00#8] ∧
    padChunk [0x41#8, 0x42#8, 0x43#8, 0x44#8] = [0x41#8, 0x42#8, 0x43#8, 0x44#8] := by decide
/-- R215: the package-begin payload for 300 bytes, and the disconnect payload. -/
theorem test_payloads :
    packageBeginPayload 300#32 = [0x6E#8, 0x65#8, 0x77#8, 0x74#8, 0x64#8, 0x6F#8, 0x63#8, 0x6B#8,
      0x6C#8, 0x70#8, 0x6B#8, 0x67#8, 0x00#8, 0x00#8, 0x01#8, 0x2C#8] ∧
    disconnectPayload = [0x6E#8, 0x65#8, 0x77#8, 0x74#8, 0x64#8, 0x6F#8, 0x63#8, 0x6B#8,
      0x64#8, 0x69#8, 0x73#8, 0x63#8, 0x00#8, 0x00#8, 0x00#8, 0x00#8] := by decide
/-- V-Q5, V-Q6: the number compared with is what `SEQ.RD` replies. -/
theorem test_seq_chk :
    [(0x7F#8, 0x7F#8), (0x80#8, 0x7F#8), (0x00#8, 0xFF#8)].map (fun p =>
      (seqChk p.1 { base with seq := p.2 }).map (fun r => (r.1, r.2.replies.drop base.replies.length))) =
    [some (true, [.byte 0x7F#8]), some (false, [.byte 0x7F#8]), some (false, [.byte 0xFF#8])] := by decide
/-- R220, R194: `SEQ.INC` once per acknowledged payload frame: not without a frame sent, not twice, not on another frame
than the acknowledgement with its number, not left out before the next send; the event alone decides, and it is one of
`EVT`. -/
theorem test_duties_seq_inc (body : List Byte) (ht : isType .dack body = true) (hs : seqOf body = some 0x05#8) :
    let evt := [Event.frameOk body]
    let sent := [HostAct.reset] ++ frameActs (.capability 0x05#8) [] [0x41#8]
    let acked := sent ++ [.took (some (.ack 0x05#8)) (.frameOk body)]
    keepsDuties evt (acked ++ [.seqInc, .release]) = true ∧
    dutyRun evt .start [.reset, .took (some (.ack 0x05#8)) (.frameOk body)] = none ∧
    dutyRun evt .start (acked ++ [.seqInc, .seqInc]) = none ∧
    dutyRun [.frameOk []] .start (sent ++ [.took (some (.ack 0x05#8)) (.frameOk []), .seqInc]) = none ∧
    dutyRun [.frameOk []] .start acked = none ∧
    dutyRun evt .start (acked ++ [.txSof (.capability 0x05#8)]) = none ∧
    keepsDuties evt (acked ++ [.release]) = false := by
  have hd : isType .dock body = false := by
    rw [Bool.eq_false_iff]
    intro h
    cases isType_unique ht h
  have hne : body ≠ [] := by
    rintro rfl
    simp [isType, typeOf] at ht
  simp [keepsDuties, dutyRun, dutyStep, frameActs, DutyState.start, DutyState.running, DutyState.mayOpen,
    DutyState.frameOpened, DutyState.frameSent, DutyState.mayTake, DutyState.eventTaken, OpenFrame.complete, headerOk,
    constants, Outstanding.received, stillRequesting, ht, hs, hd, hne]
  simp [isType, typeOf]
/-- R220: inside a frame `SEQ.RD` and `CRC.UPD` may stand, another `TX.SOF` and a header byte after a payload byte may
not. -/
theorem test_duties_frame :
    let start := [HostAct.reset, .txSof (.capability 0x05#8), .txHeader 0x01#8, .seqRd, .crcUpd 0x0000#16 0x01#8,
      .txPayload 0x02#8]
    (dutyRun [] .start (start ++ [.txEof])).isSome = true ∧
    dutyRun [] .start (start ++ [.txSof (.capability 0x05#8)]) = none ∧
    dutyRun [] .start (start ++ [.txHeader 0x01#8]) = none ∧
    dutyRun [] .start [.reset, .txEof] = none ∧ dutyRun [] .start [.seqRd] = none := by decide
/-- R203, R204, R288: a dock frame read while a frame is open is acknowledged after that frame, not inside it, and before
any other event is taken; taken in step 1's wait it owes nothing, and step 1's wait is over once a frame has been sent. -/
theorem test_duties_dock (body : List Byte) (ht : isType .dock body = true) :
    let evt := [Event.frameOk body, .failed .checksumMismatch]
    let read := [HostAct.reset, .txSof (.capability 0x05#8), .took none (.frameOk body)]
    let ack := frameActs .acknowledgement (ackHeader []) []
    (dutyRun evt .start (read ++ [.txEof] ++ ack ++
      [.took (some (.ack 0x05#8)) (.failed .checksumMismatch)])).isSome = true ∧
    dutyRun evt .start (read ++ ack) = none ∧
    dutyRun evt .start (read ++ [.txEof, .txSof .acknowledgement, .took none (.failed .checksumMismatch)]) = none ∧
    dutyRun evt .start (read ++ [.txEof, .took (some (.ack 0x05#8)) (.failed .checksumMismatch)]) = none ∧
    (dutyRun evt .start [.reset, .took (some .request) (.frameOk body),
      .took (some .request) (.failed .checksumMismatch)]).isSome = true ∧
    dutyRun evt .start [.reset, .txSof (.capability 0x05#8), .txEof, .took (some .request) (.frameOk body)] = none := by
  have hd : isType .dack body = false := by
    rw [Bool.eq_false_iff]
    intro h
    cases isType_unique ht h
  have hq : isType .req body = false := by
    rw [Bool.eq_false_iff]
    intro h
    cases isType_unique ht h
  intro evt read ack
  have hack : ∀ q : DutyState, q.running = true → q.mayOpen .acknowledgement = true →
      dutyRun evt q ack = some ((q.frameOpened .acknowledgement).frameSent .acknowledgement) := fun q h1 h2 =>
    dutyRun_frame (k := .acknowledgement) (by simp [OpenFrame.complete, headerOk]) (by simp) h1 h2
  have hread : dutyRun evt .start read =
      some ⟨true, some ⟨.capability 0x05#8, [], []⟩, .nothing, 1, false, 1, false⟩ := by
    simp [read, evt, dutyRun, dutyStep, DutyState.start, DutyState.running, DutyState.mayOpen, DutyState.frameOpened,
      DutyState.mayTake, DutyState.eventTaken, Outstanding.received, ht]
  refine ⟨?_, ?_, ?_, ?_, ?_, ?_⟩
  · rw [List.append_assoc, List.append_assoc, dutyRun_append, hread, Option.bind_some, dutyRun_append]
    simp only [dutyRun, dutyStep, DutyState.running, OpenFrame.complete, headerOk, DutyState.frameSent, Bool.not_false,
      Bool.and_self, if_true, Option.bind_some, dutyRun_append]
    rw [hack _ rfl rfl]
    rfl
  · rw [dutyRun_append, hread]
    rfl
  · rw [dutyRun_append, hread]
    rfl
  · rw [dutyRun_append, hread]
    rfl
  · simp [evt, dutyRun, dutyStep, DutyState.start, DutyState.running, DutyState.mayTake, DutyState.eventTaken,
      stillRequesting, Outstanding.received, hq]
  · rfl

/-- R194, R211, C5: no `SEQ.INC` for the disconnect frame, even if an acknowledgement of it is taken, and no wait. -/
theorem test_duties_disconnect (body : List Byte) (ht : isType .dack body = true) :
    let evt := [Event.frameOk body]
    let off := [HostAct.reset] ++ frameActs (.disconnect 0x05#8) (seqHeader 0x05#8 disconnectPayload) disconnectPayload
    keepsDuties evt (off ++ [.release]) = true ∧
    keepsDuties evt (off ++ [.took none (.frameOk body), .release]) = true ∧
    dutyRun evt .start (off ++ [.took none (.frameOk body), .seqInc]) = none ∧
    dutyRun evt .start (off ++ [.took (some (.ack 0x05#8)) (.frameOk body)]) = none := by
  have hd : isType .dock body = false := by
    rw [Bool.eq_false_iff]
    intro h
    cases isType_unique ht h
  intro evt off
  have hoff : dutyRun evt .start off = some ⟨true, none, .disconnected, 0, false, 0, false⟩ := by
    rw [dutyRun_append]
    exact dutyRun_frame (k := .disconnect 0x05#8) (by simp [OpenFrame.complete, headerOk]) disconnectPayload_fits
      (q := ⟨true, none, .nothing, 0, true, 0, false⟩) rfl rfl
  simp [keepsDuties, dutyRun_append, hoff, dutyRun, dutyStep, DutyState.running, DutyState.mayTake,
    DutyState.eventTaken, Outstanding.received, evt, hd]

/-! ### Witnesses: a state and operands that meet the hypotheses of each statement that has any -/

/-- DecodeOfEncode: boundary operands of the three rows that take "any other byte". -/
theorem witness_decode_of_encode :
    (Instr.rxHuntMiss 0x10#8).wf = true ∧ (Instr.rxHuntMiss 0x10#8).selectedIn .hunt0 = true ∧
    (Instr.rxHuntMiss 0x10#8).selectedIn .hunt1 = false ∧
    (Instr.rxBodyData 0x11#8).wf = true ∧ (Instr.rxBodyData 0x11#8).selectedIn .body = true ∧
    (Instr.rxEscBad 0x16#8).wf = true ∧ (Instr.rxEscBad 0x16#8).selectedIn .esc = true ∧
    (Instr.crcUpd 0xFFFF#16 0xFF#8).wf = true ∧ (Instr.crcUpd 0xFFFF#16 0xFF#8).selectedIn .fcs1 = true := by decide

/-- EncodeOfDecode, InputSelectsOneTableRow: a word that decodes, and one that does not. -/
theorem witness_decode_command :
    decodeCommand 0x10FFFFFF#32 = .ok (.crcUpd 0xFFFF#16 0xFF#8) ∧
    decodeCommand 0x10FFFFFF#32 ≠ .error .rsvNotZero ∧ decodeCommand 0x11000000#32 = .error .rsvNotZero := by decide

/-- A state whose next input is a given command word. -/
def issuing (s : State) (w : CmdWord) : State := { s with cmdPort := [w], turns := [.host] }

/-- A state whose next input is a given symbol. -/
def receiving (s : State) (x : LineSymbol) : State := { s with rxLine := [x], turns := [.line] }

/-- ReservedWordIsRefused. -/
theorem witness_reserved_word :
    decodeCommand 0x20000001#32 = .error .dataNotZero ∧ (issuing base 0x20000001#32).turns = .host :: [] ∧
    (issuing base 0x20000001#32).cmdPort = 0x20000001#32 :: [] := by decide

/-- StepRunsDecodedInstruction, both clauses; RefusalsAreExactlyListed. -/
theorem witness_step_runs :
    (issuing base 0x60000000#32).turns = .host :: [] ∧ (issuing base 0x60000000#32).cmdPort = [0x60000000#32] ∧
    decodeCommand 0x60000000#32 = .ok .seqInc ∧
    (receiving base 0x016#9).turns = .line :: [] ∧ (receiving base 0x016#9).rxLine = [0x016#9] := by decide

/-- RefusalsAreExactlyListed: each of its four cases. -/
theorem witness_refusals :
    (decodeCommand 0x20000000#32 = .ok .txSof ∧ (issuing busy 0x20000000#32).txState = .txBody) ∧
    (decodeCommand 0x300000FF#32 = .ok (.txByte 0xFF#8) ∧ (issuing base 0x300000FF#32).txState = .txIdle) ∧
    (decodeCommand 0x40000000#32 = .ok .txEof ∧ (issuing base 0x40000000#32).txState = .txIdle) ∧
    decodeCommand 0x00000000#32 = .error (.reservedOp 0x0#4) := by decide

/-- StepWaitsWithoutInput, its three clauses. -/
theorem witness_step_waits :
    base.turns = [] ∧
    { base with turns := [.host] }.cmdPort = [] ∧ { base with turns := [.host] }.turns = .host :: [] ∧
    { base with turns := [.line] }.rxLine = [] ∧ { base with turns := [.line] }.turns = .line :: [] := by decide

/-- PlacedTableWordRunsNext: a command and a line operation, the widest numbers of each format. -/
theorem witness_placed_word :
    decodeTableWord 32 0x10FFFFFF = some (.crcUpd 0xFFFF#16 0xFF#8) ∧
    (Instr.crcUpd 0xFFFF#16 0xFF#8).isCommand = true ∧
    decodeTableWord 16 0x1FF = some .rxEos ∧ Instr.rxEos.isCommand = false := by decide

/-- ResetInputReturnsToResetState. -/
theorem witness_reset_input : busy.turns = .reset :: [] := by decide

/-- CrcBitBitByBit: the bounds of `k`. -/
theorem witness_crc_bit : (0 < 16) ∧ (15 < 16) := by decide

/-- CrcLinearOverXor. -/
theorem witness_crc_linear : ([0x01#8, 0x02#8] : List Byte).length = ([0xFF#8, 0x10#8] : List Byte).length := by decide

/-- OneChangedByteChangesChecksum. -/
theorem witness_one_changed_byte : (0x41#8 : Byte) ≠ 0x10#8 := by decide

/-- TxSofOpensFrame, TxByteSendsLogicalByte, TxEofClosesFrame: open and closed, doubled and not. -/
theorem witness_tx :
    base.txState = .txIdle ∧ base.txState ≠ .txBody ∧ busy.txState = .txBody ∧ busy.txState ≠ .txIdle ∧
    (0x10#8 : Byte) = 0x10#8 ∧ (0x11#8 : Byte) ≠ 0x10#8 ∧
    (0x0140#16 : Word16) = crcUpdate { base with crcTx := 0x0000#16 }.crcTx 0x03#8 := by decide

/-- OpenFrameEndsByEofOrReset: both ways. -/
theorem witness_open_frame_ends :
    (issuing busy 0x40000000#32).txState = .txBody ∧
    (nextOf (step (issuing busy 0x40000000#32))).map (·.txState) = some .txIdle ∧
    (nextOf (step busy)).map (·.txState) = some .txIdle := by decide

/-- StuffLengthAndInjective, StuffedRunsEvenAndNoMarker: two runs, the first of length 4. -/
theorem witness_stuff :
    stuff [0x10#8, 0x10#8, 0x41#8, 0x10#8] =
      [] ++ List.replicate 4 0x10#8 ++ [0x41#8, 0x10#8, 0x10#8] ∧
    ([] : List Byte).getLast? ≠ some 0x10#8 ∧ ([0x41#8, 0x10#8, 0x10#8] : List Byte).head? ≠ some 0x10#8 := by decide

/-- FrameWireLength: the longest payload. -/
theorem witness_frame_length : (List.replicate 256 0x10#8).length ≤ 256 := by rw [List.length_replicate]

/-- The frame of V-F2 as symbols. -/
def shortFrame : List LineSymbol :=
  [0x016#9, 0x010#9, 0x002#9, 0x001#9, 0x010#9, 0x003#9, 0x041#9, 0x091#9]

/-- TxFrameEmitsEncode: the empty frame. -/
theorem witness_tx_frame :
    txFrame [] [] = some [.txSof, .txEof] ∧ base.txState = .txIdle ∧
    commandWords ([Instr.txSof, .txEof].map encode) = [0x20000000#32, 0x40000000#32] ∧
    { base with turns := [.host, .host] }.turns = List.replicate 2 .host ++ [] := by decide

/-- LinesMoveOneWay, OneEventPerStep: a step on each side that is no reset; DirectionsTouchDisjointState. -/
theorem witness_one_step :
    (nextOf (step (issuing base 0x40000000#32))).map (·.evt) = some (base.evt ++ [.cmdRefused]) ∧
    (nextOf (step (receiving base 0x100#9))).map (·.evt) = some (base.evt ++ [.failed .frameIncomplete]) ∧
    (nextOf (step (issuing base 0x50000000#32))).map (·.evt) = some base.evt ∧
    Instr.seqRd.isCommand = true ∧ (nextOf (exec .seqRd base)).isSome = true ∧
    Instr.rxEos.isCommand = false ∧ (nextOf (exec .rxEos base)).isSome = true := by decide

theorem witness_no_reset (w : CmdWord) (x : LineSymbol) :
    (∀ ts, (issuing base w).turns ≠ .reset :: ts) ∧ ∀ ts, (receiving base x).turns ≠ .reset :: ts := by
  constructor <;> intro ts h <;> simp [issuing, receiving] at h

/-- RxBodyDataStoresOrOverruns, RxEscDleUnstuffs: a full buffer, one byte short of full, and unbounded. -/
theorem witness_rx_cap :
    ({ base with params := ⟨0x00#8, some 0⟩ } : State).params.rxCap = some base.rxBuf.length ∧
    ({ base with params := ⟨0x00#8, some 1⟩ } : State).params.rxCap ≠ some base.rxBuf.length ∧
    ({ base with params := ⟨0x00#8, none⟩ } : State).params.rxCap ≠ some base.rxBuf.length := by decide

/-- RxFcsHiVerdict: equal, and different in the lowest bit of the high byte. -/
theorem witness_rx_fcs_hi :
    (0x56#8 ++ { base with rxFcsLo := 0x78#8 }.rxFcsLo : BitVec 16) = base.crcRx ∧
    (0x57#8 ++ { base with rxFcsLo := 0x78#8 }.rxFcsLo : BitVec 16) ≠ base.crcRx := by decide

/-- HuntIsTheScan, ScanFindsFirstMarker: an overlapping false start (V-R2), and no marker. -/
theorem witness_scan :
    base.rxState = .hunt0 ∧
    ([0x16#8, 0x16#8, 0x10#8, 0x02#8] : List Byte) = [0x16#8] ++ [0x16#8, 0x10#8, 0x02#8] ∧
    ¬ [0x16#8, 0x10#8, 0x02#8] <:+: ([0x16#8] ++ [0x16#8, 0x10#8] : List Byte) ∧
    ¬ [0x16#8, 0x10#8, 0x02#8] <:+: ([0x16#8, 0x10#8, 0x10#8, 0x02#8] : List Byte) := by decide

set_option maxRecDepth 8000 in
/-- FrameRoundTrip, TrailerDecidesVerdict: V-F2 on the line, with a buffer that just holds it. -/
theorem witness_frame_round_trip :
    let s : State := { base with
      params := ⟨0x00#8, some 1⟩, turns := List.replicate 8 .line, rxLine := shortFrame }
    (s.rxState = .hunt0 ∨ s.rxState = .hunt1 ∨ s.rxState = .hunt2) ∧
    (∀ cap, s.params.rxCap = some cap → ([0x01#8] ++ [] : List Byte).length ≤ cap) ∧
    s.turns = List.replicate (encodeFrame [0x01#8] []).length .line ++ [] ∧
    s.rxLine = (encodeFrame [0x01#8] []).map byteSymbol ++ [] ∧
    encodeFrame [0x01#8] [] =
      [0x16#8, 0x10#8, 0x02#8] ++ stuff [0x01#8] ++ [0x10#8, 0x03#8] ++ [0x41#8, 0x91#8] := by
  refine ⟨.inl rfl, ?_, by decide, by decide, by decide⟩
  intro cap h
  cases h
  decide

set_option maxRecDepth 8000 in
/-- ChangedBodyByteIsMismatch: V-F2 with its body byte changed from `01` to `02`. -/
theorem witness_changed_byte :
    (0x01#8 : Byte) ≠ 0x02#8 ∧ (0x01#8 : Byte) ≠ 0x10#8 ∧ (0x02#8 : Byte) ≠ 0x10#8 ∧
    ([0x16#8, 0x10#8, 0x02#8, 0x02#8, 0x10#8, 0x03#8, 0x41#8, 0x91#8] : List Byte) =
      [0x16#8, 0x10#8, 0x02#8] ++ stuff [] ++ [0x02#8] ++ stuff [] ++ [0x10#8, 0x03#8] ++
        [lo8 (bodyFcs ([] ++ 0x01#8 :: [])), hi8 (bodyFcs ([] ++ 0x01#8 :: []))] ∧
    ([0x016#9, 0x010#9, 0x002#9, 0x002#9, 0x010#9, 0x003#9, 0x041#9, 0x091#9] : List LineSymbol) =
      ([0x16#8, 0x10#8, 0x02#8, 0x02#8, 0x10#8, 0x03#8, 0x41#8, 0x91#8] : List Byte).map byteSymbol ++ [] := by
  decide

/-- FailureSequenceIsAll: every kind but an overrun, and the overrun. -/
theorem witness_failures :
    (nextOf (step (receiving base 0x100#9))).map (·.evt) = some (base.evt ++ [.failed .frameIncomplete]) ∧
    (nextOf (step (receiving { base with rxState := .fcs1 } 0x000#9))).map (·.evt) =
      some (base.evt ++ [.failed .checksumMismatch]) ∧
    (nextOf (step (receiving { base with rxState := .esc } 0x016#9))).map (·.evt) =
      some (base.evt ++ [.failed .escapeViolation]) ∧
    (nextOf (step (receiving { base with rxState := .body, params := ⟨0x00#8, some 0⟩ } 0x003#9))).map (·.evt) =
      some (base.evt ++ [.failed .rxOverrun]) := by decide

/-- RxFrameResult. -/
theorem witness_rx_frame : (rxFrame base [0x016#9, 0x100#9, 0x001#9]).isSome = true := by decide

/-- SeqCycle, for two increments; SeqChangesOnlyByIncOrReset, both ways. -/
theorem witness_seq :
    ({ base with turns := [.host, .host] } : State).turns = List.replicate 2 .host ++ [] ∧
    ({ base with cmdPort := [0x60000000#32, 0x60000000#32] } : State).cmdPort =
      List.replicate 2 0x60000000#32 ++ [] ∧
    (nextOf (step (issuing base 0x60000000#32))).map (·.seq) = some 0x08#8 ∧
    (nextOf (step busy)).map (·.seq) = some 0x2A#8 ∧ busy.seq = 0x07#8 := by decide

/-- InterleavingIndependent: two orders of one refused command and one symbol. -/
theorem witness_interleaving :
    [Agent.host, .line].Perm [.line, .host] ∧ Agent.reset ∉ [Agent.host, .line] := by decide

/-- StepKeepsInvariants, EveryRunIsSafe: a state with a frame open on both sides meets the invariants, and steps. -/
theorem witness_invariants :
    let s : State := { receiving base 0x010#9 with
      txState := .txBody, txLine := [0xEE#8, 0x16#8, 0x10#8, 0x02#8, 0x10#8, 0x10#8], crcTx := 0xCC01#16
      rxState := .body, rxBuf := [0x01#8], crcRx := 0xC0C1#16 }
    s.Inv ∧ (nextOf (step s)).isSome = true := by
  refine ⟨⟨fun _ => ⟨[0xEE#8], [0x10#8], by decide, by decide⟩, fun _ => by decide, ?_, ?_, ?_⟩, by decide⟩
  · intro h; rcases h with h | h <;> cases h
  · intro h; rcases h with h | h | h <;> cases h
  · intro cap h
    cases h
    decide

/-- ChunksRebuildPackage: packages with no chunk, and with one. -/
theorem witness_chunks : chunks [] = [] ∧ [0x41#8] ∈ chunks [0x41#8] := by decide

/-- WaitNeedsMatchingAcknowledgement: a body long enough to hold both header bytes wherever they are, each `05`. -/
theorem witness_wait :
    ∃ body, (waitAck 0x05#8 [(.failed .checksumMismatch, false), (.frameOk body, false)]).2 = .succeeded := by
  let body := List.replicate (max Config.hdrTypeIndex Config.hdrSeqIndex + 1) 0x05#8
  have ht : typeOf body = some 0x05#8 := by
    have : Config.hdrTypeIndex < max Config.hdrTypeIndex Config.hdrSeqIndex + 1 := by omega
    simp [body, typeOf, this]
  have hs : seqOf body = some 0x05#8 := by
    have : Config.hdrSeqIndex < max Config.hdrTypeIndex Config.hdrSeqIndex + 1 := by omega
    simp [body, seqOf, this]
  refine ⟨body, ?_⟩
  simp [waitAck, waitReaction, frameReaction, isType, tagByte, constants, ht, hs]

/-- S7, R218, SessionIncrements: some peer takes a session of two packages to `Closed`, and a silent one leaves it waiting
(R291). -/
theorem witness_session : (∃ line, (runSession [[], [0x41#8]] ⟨{ State.reset with rxLine := line }, ⟨[], []⟩, [], none,
      .awaitingPeerRequest, [], [], [], none, false⟩).1 = some .closed) ∧
    (runSession [] ⟨State.reset, ⟨[], []⟩, [], none, .awaitingPeerRequest, [], [], [], none, false⟩).1 = none := by
  refine ⟨?_, rfl⟩
  obtain ⟨bodies, hb⟩ := answers_exist (answers Config.seqInit (session ⟨[], []⟩ [[], [0x41#8]]))
  obtain ⟨-, t, ht, -⟩ := runSession_closes [[], [0x41#8]] ⟨{ State.reset with rxLine := framesOnLine bodies }, ⟨[], []⟩,
      [], none, .awaitingPeerRequest, [], [], [], none, false⟩ bodies [] (by simp) rfl (by intro cap h; cases h) hb
      (by decide : HostFits ⟨[], []⟩)
  exact ⟨_, by rw [ht]⟩

/-- R6, R93: `ID_FIELDS` of any length is a value of the parameter; 244 bytes fit a frame, and 245 are refused. -/
theorem test_id_fields :
    (identityPayload ⟨List.replicate 5 0x01#8, []⟩).length = 17 ∧
    txFrame [] (identityPayload ⟨List.replicate 244 0x01#8, []⟩) ≠ none ∧
    txFrame [] (identityPayload ⟨List.replicate 245 0x01#8, []⟩) = none := by
  have h : ∀ n, (identityPayload ⟨List.replicate n 0x01#8, []⟩).length = 12 + n := by
    intro n
    simp only [identityPayload, newtdock, List.length_append, List.length_replicate]
    rfl
  unfold txFrame
  rw [h, h, h]
  exact ⟨rfl, nofun, rfl⟩

end Sys2Proof.Tests
end

section
/-! What each register holds after reset (R34), one lemma per register the spec gives a value. -/

namespace Sys2Proof.Machine

namespace State

variable (p : Params)

@[simp] theorem resetWith_txState : (resetWith p).txState = .txIdle := rfl

@[simp] theorem resetWith_rxState : (resetWith p).rxState = .hunt0 := rfl

@[simp] theorem resetWith_rxBuf : (resetWith p).rxBuf = [] := rfl

@[simp] theorem resetWith_seq : (resetWith p).seq = p.seqInit := rfl

@[simp] theorem resetWith_evt : (resetWith p).evt = [] := rfl

@[simp] theorem resetWith_txLine : (resetWith p).txLine = [] := rfl

@[simp] theorem resetWith_params : (resetWith p).params = p := rfl

theorem reset_eq_resetWith : reset = resetWith ⟨Config.seqInit, none⟩ := rfl

end State

/-- Settles O10, from the value of each register after reset; `State.reset` is the case of the open `SEQ_INIT` and no
`RX_CAP`. -/
theorem stateAfterReset : Obligations.StateAfterReset := by
  refine ⟨fun p => ?registers, ?params, ?rxCap⟩
  case registers =>
    exact ⟨State.resetWith_txState p, State.resetWith_rxState p, State.resetWith_rxBuf p, State.resetWith_seq p,
      State.resetWith_evt p, State.resetWith_txLine p⟩
  case params => rw [State.reset_eq_resetWith, State.resetWith_params]
  case rxCap => rw [State.reset_eq_resetWith, State.resetWith_params]

end Sys2Proof.Machine
end

section
/-! What a command and a line symbol can do to the state, said once each: an inductive predicate with a constructor
per effect, an inversion lemma for `exec`, and the consequences for the parts of the state the other side owns
(R60). -/

namespace Sys2Proof.Machine

variable {i j : Instr} {w : CmdWord} {x : LineSymbol} {b : Byte} {st : RxState} {s t : State}

/-! ### The commands of the transmit side -/

theorem exec_txSof_of_txIdle (h : s.txState = .txIdle) :
    exec .txSof s =
      .next { s with txLine := s.txLine ++ startMarker, crcTx := 0x0000#16, txState := .txBody } := by
  simp [exec, execTxSof, State.txOpen, h, emit]

theorem exec_txSof_of_txBody (h : s.txState = .txBody) : exec .txSof s = .next (refuse s) := by
  simp [exec, execTxSof, State.txOpen, h]

theorem exec_txByte_of_txBody (h : s.txState = .txBody) :
    exec (.txByte b) s =
      .next { s with txLine := s.txLine ++ stuff [b], crcTx := crcUpdate s.crcTx b } := by
  simp [exec, execTxByte, State.txOpen, h, emit, stuff]

theorem exec_txByte_of_txIdle (h : s.txState = .txIdle) : exec (.txByte b) s = .next (refuse s) := by
  simp [exec, execTxByte, State.txOpen, h]

theorem exec_txEof_of_txBody (h : s.txState = .txBody) :
    exec .txEof s = .next { s with
      txLine := s.txLine ++
        (endMarker ++ [lo8 (crcUpdate s.crcTx 0x03#8), hi8 (crcUpdate s.crcTx 0x03#8)])
      crcTx := crcUpdate s.crcTx 0x03#8
      txState := .txIdle } := by
  simp [exec, execTxEof, State.txOpen, h, emit]

theorem exec_txEof_of_txIdle (h : s.txState = .txIdle) : exec .txEof s = .next (refuse s) := by
  simp [exec, execTxEof, State.txOpen, h]

/-! ### What a command can do -/

/-- The effect of a command, with a constructor per branch of its rule: it replies (R113, R191), advances `SEQ` (R192),
opens a frame, appends to it or closes it, or is refused (R131 to R133). -/
inductive CommandEffect (s : State) : Instr → State → Prop where
  | repliesCrc (acc : Word16) (data : Byte) :
      CommandEffect s (.crcUpd acc data) (reply (.word16 (crcUpdate acc data)) s)
  | repliesSeq : CommandEffect s .seqRd (reply (.byte s.seq) s)
  | advances : CommandEffect s .seqInc { s with seq := inc8 s.seq }
  | opens (h : s.txState = .txIdle) : CommandEffect s .txSof
      { s with txLine := s.txLine ++ startMarker, crcTx := 0x0000#16, txState := .txBody }
  | appends (h : s.txState = .txBody) (b : Byte) : CommandEffect s (.txByte b)
      { s with txLine := s.txLine ++ stuff [b], crcTx := crcUpdate s.crcTx b }
  | closes (h : s.txState = .txBody) : CommandEffect s .txEof { s with
      txLine := s.txLine ++
        (endMarker ++ [lo8 (crcUpdate s.crcTx 0x03#8), hi8 (crcUpdate s.crcTx 0x03#8)])
      crcTx := crcUpdate s.crcTx 0x03#8
      txState := .txIdle }
  | refusesSof (h : s.txState = .txBody) : CommandEffect s .txSof (refuse s)
  | refusesByte (h : s.txState = .txIdle) (b : Byte) : CommandEffect s (.txByte b) (refuse s)
  | refusesEof (h : s.txState = .txIdle) : CommandEffect s .txEof (refuse s)

theorem exec_command_effect (hi : i.isCommand = true) (h : exec i s = .next t) : CommandEffect s i t := by
  cases i
  case crcUpd acc data => cases h; exact .repliesCrc acc data
  case seqRd => cases h; exact .repliesSeq
  case seqInc => cases h; exact .advances
  case txSof =>
    cases hs : s.txState with
    | txIdle => cases (exec_txSof_of_txIdle hs).symm.trans h; exact .opens hs
    | txBody => cases (exec_txSof_of_txBody hs).symm.trans h; exact .refusesSof hs
  case txByte b =>
    cases hs : s.txState with
    | txIdle => cases (exec_txByte_of_txIdle hs).symm.trans h; exact .refusesByte hs b
    | txBody => cases (exec_txByte_of_txBody hs).symm.trans h; exact .appends hs b
  case txEof =>
    cases hs : s.txState with
    | txIdle => cases (exec_txEof_of_txIdle hs).symm.trans h; exact .refusesEof hs
    | txBody => cases (exec_txEof_of_txBody hs).symm.trans h; exact .closes hs
  all_goals cases hi

/-- R60: a command leaves the receiver, its line and the parameters alone. -/
theorem CommandEffect.frame (h : CommandEffect s i t) :
    t.rxState = s.rxState ∧ t.crcRx = s.crcRx ∧ t.rxBuf = s.rxBuf ∧ t.rxFcsLo = s.rxFcsLo ∧
    t.rxLine = s.rxLine ∧ t.params = s.params := by
  cases h <;> exact ⟨rfl, rfl, rfl, rfl, rfl, rfl⟩

theorem stuff_singleton_length_le (b : Byte) : (stuff [b]).length ≤ 2 := by
  by_cases hb : b = 0x10#8
  · simp [hb]
  · simp [stuff_cons_of_ne hb]

/-- R57: what a command emits is appended, and `TX.EOF` emits most, four bytes. -/
theorem CommandEffect.txLine (h : CommandEffect s i t) : ∃ bs, bs.length ≤ 4 ∧ t.txLine = s.txLine ++ bs := by
  cases h with
  | repliesCrc | repliesSeq | advances | refusesSof | refusesByte | refusesEof => exact ⟨[], by simp, by simp⟩
  | opens => exact ⟨startMarker, by simp, rfl⟩
  | appends _ b => exact ⟨stuff [b], (stuff_singleton_length_le b).trans (by omega), rfl⟩
  | closes => exact ⟨_, by simp, rfl⟩

theorem CommandEffect.seq (h : CommandEffect s i t) : t.seq = s.seq ∨ i = .seqInc := by
  cases h with
  | advances => exact .inr rfl
  | repliesCrc | repliesSeq | opens | appends | closes | refusesSof | refusesByte | refusesEof => exact .inl rfl

theorem eq_of_withoutAcc (h : withoutAcc w i = .ok j) : j = i := by
  unfold withoutAcc at h
  split at h
  · cases h; rfl
  · cases h

theorem eq_of_withoutOperands (h : withoutOperands w i = .ok j) : j = i := by
  unfold withoutOperands at h
  split at h
  · exact eq_of_withoutAcc h
  · cases h

/-- R87: a command word selects operations of format H only. -/
theorem isCommand_of_decodeCommand (h : decodeCommand w = .ok i) : i.isCommand = true := by
  unfold decodeCommand at h
  split at h
  case isFalse => cases h
  case isTrue =>
    split at h
    · cases h; rfl
    split at h
    · rw [eq_of_withoutOperands h]; rfl
    split at h
    · rw [eq_of_withoutAcc h]; rfl
    split at h
    · rw [eq_of_withoutOperands h]; rfl
    split at h
    · rw [eq_of_withoutOperands h]; rfl
    split at h
    · rw [eq_of_withoutOperands h]; rfl
    · cases h

/-! ### What a line symbol can do -/

/-- The effect of a symbol on the receiver: it raises a failure, moves the scan, opens a frame, stores a logical
byte, begins an escape, ends the body, latches the low checksum byte, or verifies the frame. -/
inductive SymbolEffect (s : State) : State → Prop where
  | raises (k : Failure) (n : RxState) (hn : isHunt n = true) : SymbolEffect s (raise k n s)
  | scans (h : isHunt s.rxState = true) (n : RxState) (hn : isHunt n = true) :
      SymbolEffect s { s with rxState := n }
  | opens (h : s.rxState = .hunt2) : SymbolEffect s { s with rxBuf := [], crcRx := 0x0000#16, rxState := .body }
  | stores (h : s.rxState = .body ∨ s.rxState = .esc) (hcap : s.params.rxCap ≠ some s.rxBuf.length) (b : Byte) :
      SymbolEffect s { s with rxBuf := s.rxBuf ++ [b], crcRx := crcUpdate s.crcRx b, rxState := .body }
  | escapes (h : s.rxState = .body) : SymbolEffect s { s with rxState := .esc }
  | ends (h : s.rxState = .esc) :
      SymbolEffect s { s with crcRx := crcUpdate s.crcRx 0x03#8, rxState := .fcs0 }
  | latches (h : s.rxState = .fcs0) (b : Byte) : SymbolEffect s { s with rxFcsLo := b, rxState := .fcs1 }
  | verifies (h : s.rxState = .fcs1) (b : Byte) (hb : word b s.rxFcsLo = s.crcRx) :
      SymbolEffect s { event (.frameOk s.rxBuf) s with rxBuf := [], rxState := .hunt0 }

theorem isHunt_hunt_hunt0 (b : Byte) : isHunt (hunt .hunt0 b) = true := by
  unfold hunt
  split <;> simp [isHunt]

/-- A logical byte read in the body overruns or is stored (R155, R157). -/
theorem storeLogical_effect (h : s.rxState = .body ∨ s.rxState = .esc) (b : Byte) :
    SymbolEffect s (storeLogical b .body s) := by
  rcases storeLogical_cases s b .body with ⟨-, heq⟩ | ⟨hcap, heq⟩ <;> rw [heq]
  · exact .raises .rxOverrun .hunt0 rfl
  · exact .stores h hcap b

/-- R161: both verdicts. -/
theorem exec_rxFcsHi_effect (h : s.rxState = .fcs1) (he : exec (.rxFcsHi b) s = .next t) : SymbolEffect s t := by
  cases he
  split
  case isTrue hb => exact .verifies h b ((fcsMatches_iff s b).1 hb)
  case isFalse => exact .raises .checksumMismatch .hunt0 rfl

/-- The effect of a symbol decoded in the receiver's own state, row by row of R88. -/
theorem exec_symbol_effect (h : exec (decodeSymbol st x) s = .next t) (hst : s.rxState = st) : SymbolEffect s t := by
  have scans (hh : isHunt st = true) (n : RxState) (hn : isHunt n = true) :
      SymbolEffect s { s with rxState := n } := .scans (hst ▸ hh) n hn
  unfold decodeSymbol at h
  split at h
  case isTrue => cases h; exact .raises .frameIncomplete .hunt0 rfl
  case isFalse =>
    cases st <;> dsimp only at h
    case hunt0 => split at h <;> cases h <;> exact scans rfl _ rfl
    case hunt1 =>
      split at h
      · cases h; exact scans rfl _ rfl
      · split at h <;> cases h <;> exact scans rfl _ rfl
    case hunt2 =>
      split at h
      · cases h; exact scans rfl _ rfl
      · split at h <;> cases h
        · exact .opens hst
        · exact scans rfl _ rfl
    case body =>
      split at h <;> cases h
      · exact .escapes hst
      · rw [hst]; exact storeLogical_effect (.inl hst) _
    case esc =>
      split at h
      · cases h; exact storeLogical_effect (.inr hst) _
      · split at h <;> cases h
        · exact .ends hst
        · exact .raises .escapeViolation _ (isHunt_hunt_hunt0 _)
    case fcs0 => cases h; exact .latches hst _
    case fcs1 => exact exec_rxFcsHi_effect hst h

/-- R60: a line operation leaves the transmitter, `SEQ`, the replies, both inputs and the parameters alone. -/
theorem SymbolEffect.frame (h : SymbolEffect s t) :
    t.txState = s.txState ∧ t.crcTx = s.crcTx ∧ t.txLine = s.txLine ∧ t.seq = s.seq ∧ t.replies = s.replies ∧
    t.cmdPort = s.cmdPort ∧ t.rxLine = s.rxLine ∧ t.params = s.params := by
  cases h <;> exact ⟨rfl, rfl, rfl, rfl, rfl, rfl, rfl, rfl⟩

/-- R9: `RX_BUF` grows by `push` alone. -/
theorem SymbolEffect.rxBuf_length_le (h : SymbolEffect s t) : t.rxBuf.length ≤ s.rxBuf.length + 1 := by
  cases h <;> simp

end Sys2Proof.Machine
end

section
/-! The invariants of R35: each part is kept by commands and by symbols, so by every step, and every run meets them. -/

namespace Sys2Proof.Machine

variable {i : Instr} {s t : State}

/-! ### States that meet a part of the invariants at once -/

theorem State.TxInv.of_txIdle (h : s.txState = .txIdle) : s.TxInv := by
  intro hb
  rw [h] at hb
  cases hb

/-- A receiver that scans with an empty buffer meets (b) to (e), whatever `CRC_RX` holds. -/
theorem State.RxInv.of_hunting (h : isHunt s.rxState = true) (hbuf : s.rxBuf = []) : s.RxInv := by
  refine ⟨?_, ?_, fun _ => hbuf, fun cap _ => by simp [hbuf]⟩
  · rintro (hs | hs) <;> rw [hs] at h <;> cases h
  · rintro (hs | hs) <;> rw [hs] at h <;> cases h

/-! ### The invariants depend on their side's registers only -/

theorem State.TxInv.congr (h : s.TxInv) (hs : t.txState = s.txState) (hl : t.txLine = s.txLine)
    (hc : t.crcTx = s.crcTx) : t.TxInv := by
  unfold State.TxInv at h ⊢
  rwa [hs, hl, hc]

theorem State.RxInv.congr (h : s.RxInv) (hs : t.rxState = s.rxState) (hc : t.crcRx = s.crcRx)
    (hb : t.rxBuf = s.rxBuf) (hp : t.params = s.params) : t.RxInv := by
  unfold State.RxInv at h ⊢
  rwa [hs, hc, hb, hp]

/-- Neither part looks at the inputs not taken yet. -/
theorem State.Inv.withInputs (h : s.Inv) (ts : List Agent) (ws : List CmdWord) (xs : List LineSymbol) :
    State.Inv { s with turns := ts, cmdPort := ws, rxLine := xs } :=
  let ⟨htx, hrx⟩ := h
  ⟨htx.congr rfl rfl rfl, hrx.congr rfl rfl rfl rfl⟩

/-- A refusal (R256) writes `EVT` alone, which neither part looks at. -/
theorem State.Inv.refuse (h : s.Inv) : (refuse s).Inv :=
  let ⟨htx, hrx⟩ := h
  ⟨htx.congr rfl rfl rfl, hrx.congr rfl rfl rfl rfl⟩

/-! ### Reset -/

theorem resetWith_inv (p : Params) : (State.resetWith p).Inv :=
  ⟨.of_txIdle (State.resetWith_txState p), .of_hunting rfl (State.resetWith_rxBuf p)⟩

theorem resetInput_inv (s : State) : (resetInput s).Inv :=
  ⟨.of_txIdle (resetInput_txState s), .of_hunting rfl (resetInput_rxBuf s)⟩

/-- Settles O55, from `resetWith_inv`; `State.reset` is one of its cases. -/
theorem resetMeetsInvariants : Obligations.ResetMeetsInvariants :=
  ⟨resetWith_inv _, resetWith_inv⟩

/-! ### Commands -/

/-- R35 (a) and (f): `TX.SOF` starts with no operand, `TX.BYTE` adds one to both sides, `TX.EOF` closes the frame. -/
theorem CommandEffect.txInv (h : CommandEffect s i t) (hinv : s.TxInv) : t.TxInv := by
  cases h with
  | repliesCrc | repliesSeq | advances | refusesSof | refusesByte | refusesEof => exact hinv.congr rfl rfl rfl
  | opens => exact fun _ => ⟨s.txLine, [], by simp, rfl⟩
  | appends hb b =>
    intro _
    obtain ⟨before, xs, hline, hcrc⟩ := hinv hb
    exact ⟨before, xs ++ [b], by simp [hline, stuff_append], by simp [hcrc, crcBytes_append]⟩
  | closes => exact .of_txIdle rfl

theorem CommandEffect.inv (h : CommandEffect s i t) (hinv : s.Inv) : t.Inv := by
  obtain ⟨hs, hc, hb, -, -, hp⟩ := h.frame
  obtain ⟨htx, hrx⟩ := hinv
  exact ⟨h.txInv htx, hrx.congr hs hc hb hp⟩

/-! ### Line symbols -/

/-- R35 (b) to (e): `CRC_RX` follows `RX_BUF` byte by byte, and each way back to the scan empties the buffer. -/
theorem SymbolEffect.rxInv (h : SymbolEffect s t) (hinv : s.RxInv) : t.RxInv := by
  obtain ⟨hbody, hfcs, hhunt, hcap⟩ := hinv
  cases h with
  | raises k n hn => exact .of_hunting hn rfl
  | scans h n hn => exact .of_hunting hn (hhunt ((isHunt_iff _).1 h))
  | opens h => exact ⟨fun _ => rfl, by simp, by simp, by simp⟩
  | stores h hroom b =>
    refine ⟨fun _ => ?_, by simp, by simp, fun cap hc => ?_⟩
    · simp [hbody h, crcBytes_append]
    · have hlt : s.rxBuf.length ≠ cap := fun heq => hroom (heq ▸ hc)
      have hle := hcap cap hc
      simp only [List.length_append, List.length_singleton]
      omega
  | escapes h => exact ⟨fun _ => hbody (.inl h), by simp, by simp, hcap⟩
  | ends h =>
    refine ⟨by simp, fun _ => ?_, by simp, hcap⟩
    simp [hbody (.inr h), crcBytes_append]
  | latches h b => exact ⟨by simp, fun _ => hfcs (.inl h), by simp, hcap⟩
  | verifies => exact .of_hunting rfl rfl

theorem SymbolEffect.inv (h : SymbolEffect s t) (hinv : s.Inv) : t.Inv := by
  obtain ⟨hs, hc, hl, -⟩ := h.frame
  obtain ⟨htx, hrx⟩ := hinv
  exact ⟨htx.congr hs hl hc, h.rxInv hrx⟩

/-! ### Steps and runs -/

/-- Settles O56, from the invariants kept by each kind of input. -/
theorem stepKeepsInvariants : Obligations.StepKeepsInvariants := by
  intro s t hinv h
  rcases step_cases h with ⟨-, rfl⟩ | ⟨ts, -, rfl⟩ | ⟨ts, -, -, rfl⟩ | ⟨ts, w, ws, i, -, -, hd, he⟩ |
    ⟨ts, w, ws, e, -, -, -, rfl⟩ | ⟨ts, -, -, rfl⟩ | ⟨ts, x, xs, -, -, he⟩
  · exact hinv
  · exact resetInput_inv _
  · exact hinv.withInputs ts s.cmdPort s.rxLine
  · exact (exec_command_effect (isCommand_of_decodeCommand hd) he).inv (hinv.withInputs ts ws s.rxLine)
  · exact (hinv.withInputs ts ws s.rxLine).refuse
  · exact hinv.withInputs ts s.cmdPort s.rxLine
  · exact (exec_symbol_effect he rfl).inv (hinv.withInputs ts s.cmdPort xs)

/-- R88: every instruction, in every state, answers a next state. -/
theorem exec_next (i : Instr) (s : State) : ∃ t, exec i s = .next t := by
  cases i <;> exact ⟨_, rfl⟩

/-- R88, R89, R291: whatever is supplied, or nothing, the block goes on. -/
theorem step_next (s : State) : ∃ t, step s = .next t := by
  unfold step
  cases fetch s with
  | idle u => exact ⟨u, rfl⟩
  | reset u => exact ⟨resetInput u, rfl⟩
  | run i u => exact exec_next i u
  | reserved e u => exact ⟨refuse u, rfl⟩

/-- Settles O57, by induction on the number of steps: each step goes on and keeps the invariants. -/
theorem everyRunIsSafe : Obligations.EveryRunIsSafe := by
  intro s n hinv
  induction n generalizing s with
  | zero => exact hinv
  | succ n ih =>
    obtain ⟨t, ht⟩ := step_next s
    exact ⟨hinv, t, ht, ih t (stepKeepsInvariants s t hinv ht)⟩

end Sys2Proof.Machine
end

section
/-! What a step can do to the lines, to `SEQ` and to the parameters. -/

namespace Sys2Proof.Machine

/-- Settles O28, from what a command emits and a symbol stores; a reset is shut out by the hypothesis. -/
theorem linesMoveOneWay : Obligations.LinesMoveOneWay := by
  intro s t h hreset
  have htx : ∃ bs : List Byte, bs.length ≤ 4 ∧ s.txLine = s.txLine ++ bs := ⟨[], by simp, by simp⟩
  have hrx : ∃ xs : List LineSymbol, xs.length ≤ 1 ∧ s.rxLine = xs ++ s.rxLine := ⟨[], by simp, rfl⟩
  have hbuf : s.rxBuf.length ≤ s.rxBuf.length + 1 := by omega
  rcases step_cases h with ⟨-, rfl⟩ | ⟨ts, hts, -⟩ | ⟨ts, -, -, rfl⟩ | ⟨ts, w, ws, i, -, -, hd, he⟩ |
    ⟨ts, w, ws, e, -, -, -, rfl⟩ | ⟨ts, -, -, rfl⟩ | ⟨ts, x, xs, -, hl, he⟩
  · exact ⟨htx, hrx, hbuf⟩
  · exact absurd hts (hreset ts)
  · exact ⟨htx, hrx, hbuf⟩
  · have heff := exec_command_effect (isCommand_of_decodeCommand hd) he
    obtain ⟨-, -, hb, -, hl, -⟩ := heff.frame
    exact ⟨heff.txLine, by rw [hl]; exact hrx, by rw [hb]; exact hbuf⟩
  · exact ⟨htx, hrx, hbuf⟩
  · exact ⟨htx, hrx, hbuf⟩
  · have heff := exec_symbol_effect he rfl
    obtain ⟨-, -, htl, -, -, -, hrl, -⟩ := heff.frame
    exact ⟨by rw [htl]; exact htx, ⟨[x], by simp, by rw [hrl, hl]; rfl⟩, heff.rxBuf_length_le⟩

/-- Settles O52: of the inputs that are no reset, only the command `SEQ.INC` has an effect on `SEQ`. -/
theorem seqChangesOnlyByIncOrReset : Obligations.SeqChangesOnlyByIncOrReset := by
  intro s t h
  rcases step_cases h with ⟨-, rfl⟩ | ⟨ts, hts, rfl⟩ | ⟨ts, -, -, rfl⟩ | ⟨ts, w, ws, i, hts, hw, hd, he⟩ |
    ⟨ts, w, ws, e, -, -, -, rfl⟩ | ⟨ts, -, -, rfl⟩ | ⟨ts, x, xs, -, -, he⟩
  · exact ⟨rfl, fun hne => absurd rfl hne⟩
  · exact ⟨rfl, fun _ => .inl ⟨ts, hts⟩⟩
  · exact ⟨rfl, fun hne => absurd rfl hne⟩
  · have heff := exec_command_effect (isCommand_of_decodeCommand hd) he
    obtain ⟨-, -, -, -, -, hp⟩ := heff.frame
    refine ⟨hp, fun hne => .inr ⟨ts, w, ws, hts, hw, ?_⟩⟩
    rcases heff.seq with hseq | rfl
    · exact absurd hseq hne
    · exact hd
  · exact ⟨rfl, fun hne => absurd rfl hne⟩
  · exact ⟨rfl, fun hne => absurd rfl hne⟩
  · obtain ⟨-, -, -, hseq, -, -, -, hp⟩ := (exec_symbol_effect he rfl).frame
    exact ⟨hp, fun hne => absurd hseq hne⟩

end Sys2Proof.Machine
end

section
/-! The next step in terms of whose turn it is and what is supplied: an equation per case of `fetch`. -/

namespace Sys2Proof.Machine

variable {s : State} {ts : List Agent} {w : CmdWord} {ws : List CmdWord} {x : LineSymbol} {xs : List LineSymbol}

theorem step_of_command {i : Instr} (hts : s.turns = .host :: ts) (hw : s.cmdPort = w :: ws)
    (hd : decodeCommand w = .ok i) : step s = exec i { s with turns := ts, cmdPort := ws } := by
  simp [step, fetch, fetchCommand, hts, hw, hd]

theorem step_of_reserved {e : DecodeError} (hts : s.turns = .host :: ts) (hw : s.cmdPort = w :: ws)
    (hd : decodeCommand w = .error e) : step s = .next (refuse { s with turns := ts, cmdPort := ws }) := by
  simp [step, fetch, fetchCommand, hts, hw, hd]

theorem step_of_no_command (hts : s.turns = .host :: ts) (hw : s.cmdPort = []) :
    step s = .next { s with turns := ts } := by
  simp [step, fetch, fetchCommand, hts, hw]

theorem step_of_symbol (hts : s.turns = .line :: ts) (hx : s.rxLine = x :: xs) :
    step s = exec (decodeSymbol s.rxState x) { s with turns := ts, rxLine := xs } := by
  simp [step, fetch, fetchSymbol, hts, hx]

theorem step_of_no_symbol (hts : s.turns = .line :: ts) (hx : s.rxLine = []) :
    step s = .next { s with turns := ts } := by
  simp [step, fetch, fetchSymbol, hts, hx]

/-- R88, R89, R291: a run of any length goes on to a next state. -/
theorem run_next (n : Nat) (s : State) : ∃ t, run n s = .next t := by
  induction n generalizing s with
  | zero => exact ⟨s, rfl⟩
  | succ n ih =>
    obtain ⟨t, ht⟩ := step_next s
    rw [run_succ_of_next ht]
    exact ih t

/-- Settles O6, from the equations of `step` for a command word and for a symbol. -/
theorem stepRunsDecodedInstruction : Obligations.StepRunsDecodedInstruction :=
  ⟨fun _ _ _ _ _ => step_of_command, fun _ _ _ _ => step_of_symbol⟩

end Sys2Proof.Machine
end

section
/-! R60: the two directions do not interfere. A state has a host's view, which blanks what the line side owns, and a
line's view, which blanks what the host side owns. An input of one side leaves the other side's view alone, and acts on
its own side's view as it acts on the state; so a run, seen from one side, is the run of that side's turns alone. -/

namespace Sys2Proof.Machine

/-- The host's side of a state (R21, R23, R24, with the refusals of `EVT`), with the schedule `us`. -/
def State.hostView (us : List Agent) (s : State) : State :=
  { s with
    rxState := .hunt0
    crcRx := 0
    rxBuf := []
    rxFcsLo := 0
    rxLine := []
    evt := s.evt.filter fun e => !e.fromReceiver
    turns := us }

/-- The line's side of a state (R22, R25 to R27, with the receiver's events of `EVT`), with the schedule `us`. -/
def State.lineView (us : List Agent) (s : State) : State :=
  { s with
    txState := .txIdle
    crcTx := 0
    seq := 0
    txLine := []
    replies := []
    cmdPort := []
    evt := s.evt.filter Event.fromReceiver
    turns := us }

variable {i : Instr} {s t u : State} {ts us : List Agent}

theorem State.hostView_eq_iff : s.hostView us = t.hostView us ↔
    s.txState = t.txState ∧ s.crcTx = t.crcTx ∧ s.seq = t.seq ∧ s.txLine = t.txLine ∧
    s.evt.filter (fun e => !e.fromReceiver) = t.evt.filter (fun e => !e.fromReceiver) ∧
    s.replies = t.replies ∧ s.cmdPort = t.cmdPort ∧ s.resets = t.resets ∧ s.params = t.params := by
  simp [State.hostView]

theorem State.lineView_eq_iff : s.lineView us = t.lineView us ↔
    s.rxState = t.rxState ∧ s.crcRx = t.crcRx ∧ s.rxBuf = t.rxBuf ∧ s.rxFcsLo = t.rxFcsLo ∧
    s.rxLine = t.rxLine ∧ s.evt.filter Event.fromReceiver = t.evt.filter Event.fromReceiver ∧
    s.resets = t.resets ∧ s.params = t.params := by
  simp [State.lineView]

/-- The two views hold the whole state but for the schedule and the order of events. -/
theorem State.sameButEventOrder_of_views (hts : s.turns = t.turns) (hhost : s.hostView us = t.hostView us)
    (hline : s.lineView us = t.lineView us) : s.sameButEventOrder t := by
  obtain ⟨htx, hctx, hseq, htl, hrefused, hrep, hport, hres, hpar⟩ := State.hostView_eq_iff.1 hhost
  obtain ⟨hrx, hcrx, hbuf, hfcs, hrl, hreceived, -, -⟩ := State.lineView_eq_iff.1 hline
  refine ⟨?_, hreceived, hrefused⟩
  simp [*]

/-! ### The views and the operations that append to `EVT` -/

@[simp] theorem hostView_refuse : (refuse s).hostView us = refuse (s.hostView us) := by
  simp [State.hostView, refuse_eq, Event.fromReceiver]

@[simp] theorem lineView_refuse : (refuse s).lineView us = s.lineView us := by
  simp [State.lineView, refuse_eq, Event.fromReceiver]

@[simp] theorem hostView_raise (k : Failure) (n : RxState) : (raise k n s).hostView us = s.hostView us := by
  simp [State.hostView, raise_eq, Event.fromReceiver]

@[simp] theorem lineView_raise (k : Failure) (n : RxState) :
    (raise k n s).lineView us = raise k n (s.lineView us) := by
  simp [State.lineView, raise_eq, Event.fromReceiver]

@[simp] theorem hostView_storeLogical (b : Byte) (n : RxState) : (storeLogical b n s).hostView us = s.hostView us := by
  unfold storeLogical
  split
  · exact hostView_raise _ _
  · rfl

@[simp] theorem lineView_storeLogical (b : Byte) (n : RxState) :
    (storeLogical b n s).lineView us = storeLogical b n (s.lineView us) := by
  have hfull : (s.lineView us).rxFull = s.rxFull := rfl
  unfold storeLogical
  rw [hfull]
  split
  · exact lineView_raise _ _
  · rfl

@[simp] theorem storeLogical_turns (b : Byte) (n : RxState) : (storeLogical b n s).turns = s.turns := by
  unfold storeLogical
  split <;> rfl

/-- R161: the verdict reads the line's side alone, and reports on `EVT` as the receiver. -/
theorem exec_rxFcsHi_views {b : Byte} (h : exec (.rxFcsHi b) s = .next t) :
    t.hostView us = s.hostView us ∧ exec (.rxFcsHi b) (s.lineView us) = .next (t.lineView us) := by
  have hfcs : (s.lineView us).fcsMatches b = s.fcsMatches b := rfl
  cases h
  simp only [exec, execRxFcsHi, hfcs]
  split
  · simp [State.hostView, State.lineView, event, List.filter, Event.fromReceiver]
  · simp

/-! ### Commands and line operations -/

/-- A command leaves the line's view alone and acts on the host's view as on the state. -/
theorem exec_command_views (hi : i.isCommand = true) (h : exec i s = .next t) (us : List Agent) :
    t.lineView us = s.lineView us ∧ exec i (s.hostView us) = .next (t.hostView us) := by
  cases exec_command_effect hi h with
  | repliesCrc | repliesSeq | advances => exact ⟨rfl, rfl⟩
  | opens hs => exact ⟨rfl, exec_txSof_of_txIdle hs⟩
  | appends hs => exact ⟨rfl, exec_txByte_of_txBody hs⟩
  | closes hs => exact ⟨rfl, exec_txEof_of_txBody hs⟩
  | refusesSof hs =>
    rw [hostView_refuse]
    exact ⟨lineView_refuse, exec_txSof_of_txBody hs⟩
  | refusesByte hs =>
    rw [hostView_refuse]
    exact ⟨lineView_refuse, exec_txByte_of_txIdle hs⟩
  | refusesEof hs =>
    rw [hostView_refuse]
    exact ⟨lineView_refuse, exec_txEof_of_txIdle hs⟩

/-- A line operation, in every state, leaves the host's view alone and acts on the line's view as on the state. -/
theorem exec_line_views (hi : i.isCommand = false) (h : exec i s = .next t) (us : List Agent) :
    t.hostView us = s.hostView us ∧ exec i (s.lineView us) = .next (t.lineView us) := by
  cases i
  case rxHuntSyn | rxHuntDle | rxHuntStx | rxHuntMiss | rxBodyDle | rxEscEtx | rxFcsLo => cases h; exact ⟨rfl, rfl⟩
  case rxEos | rxEscBad =>
    cases h
    rw [lineView_raise]
    exact ⟨hostView_raise _ _, rfl⟩
  case rxBodyData | rxEscDle =>
    cases h
    rw [lineView_storeLogical]
    exact ⟨hostView_storeLogical _ _, rfl⟩
  case rxFcsHi => exact exec_rxFcsHi_views h
  all_goals cases hi

/-- No operation looks ahead in the schedule or changes it (log entry 3). -/
theorem exec_turns (h : exec i s = .next t) : t.turns = s.turns := by
  cases i
  case txSof | txByte | txEof | rxFcsHi => cases h; split <;> rfl
  case rxBodyData | rxEscDle => cases h; exact storeLogical_turns _ _
  all_goals cases h; rfl

/-- R88: a symbol selects operations of format L only. -/
theorem isCommand_decodeSymbol (st : RxState) (x : LineSymbol) : (decodeSymbol st x).isCommand = false := by
  unfold decodeSymbol
  repeat' split
  all_goals rfl

/-- Settles O53, from the frame of a command and from the host's view, which a line operation leaves alone. -/
theorem directionsTouchDisjointState : Obligations.DirectionsTouchDisjointState := by
  refine ⟨fun i s t hi h => ?command, fun i s t hi h => ?line⟩
  case command =>
    obtain ⟨hs, hc, hb, hf, hl, -⟩ := (exec_command_effect hi h).frame
    exact ⟨hs, hc, hb, hf, hl⟩
  case line =>
    obtain ⟨hview, -⟩ := exec_line_views hi h []
    obtain ⟨htx, hc, hseq, hl, -, hrep, hport, -, -⟩ := State.hostView_eq_iff.1 hview
    exact ⟨htx, hc, hl, hseq, hrep, hport⟩

/-! ### Steps and runs -/

/-- On the host's turn the line's view stays, and the host's view makes the same step. -/
theorem step_host_views (hts : s.turns = .host :: ts) (h : step s = .next t) :
    t.turns = ts ∧ ∀ us, t.lineView us = s.lineView us ∧ step (s.hostView (.host :: us)) = .next (t.hostView us) := by
  have htsView (us) : (s.hostView (.host :: us)).turns = .host :: us := rfl
  cases hw : s.cmdPort with
  | nil =>
    cases (step_of_no_command hts hw).symm.trans h
    exact ⟨rfl, fun us => ⟨rfl, step_of_no_command (htsView us) hw⟩⟩
  | cons w ws =>
    cases hd : decodeCommand w with
    | ok i =>
      rw [step_of_command hts hw hd] at h
      have hviews := exec_command_views (isCommand_of_decodeCommand hd) h
      exact ⟨exec_turns h, fun us => ⟨(hviews us).1, (step_of_command (htsView us) hw hd).trans (hviews us).2⟩⟩
    | error e =>
      cases (step_of_reserved hts hw hd).symm.trans h
      refine ⟨rfl, fun us => ⟨lineView_refuse, ?_⟩⟩
      rw [hostView_refuse]
      exact step_of_reserved (htsView us) hw hd

/-- On the line's turn the host's view stays, and the line's view makes the same step. -/
theorem step_line_views (hts : s.turns = .line :: ts) (h : step s = .next t) :
    t.turns = ts ∧ ∀ us, t.hostView us = s.hostView us ∧ step (s.lineView (.line :: us)) = .next (t.lineView us) := by
  have htsView (us) : (s.lineView (.line :: us)).turns = .line :: us := rfl
  cases hx : s.rxLine with
  | nil =>
    cases (step_of_no_symbol hts hx).symm.trans h
    exact ⟨rfl, fun us => ⟨rfl, step_of_no_symbol (htsView us) hx⟩⟩
  | cons x xs =>
    rw [step_of_symbol hts hx] at h
    have hviews := exec_line_views (isCommand_decodeSymbol _ x) h
    exact ⟨exec_turns h, fun us => ⟨(hviews us).1, (step_of_symbol (htsView us) hx).trans (hviews us).2⟩⟩

/-- Seen from one side, a run of a schedule without a reset is the run of that side's turns alone. -/
theorem run_views (hts : s.turns = ts) (hreset : Agent.reset ∉ ts) (h : run ts.length s = .next t) :
    t.turns = [] ∧
    run (ts.count .host) (s.hostView (.replicate (ts.count .host) .host)) = .next (t.hostView []) ∧
    run (ts.count .line) (s.lineView (.replicate (ts.count .line) .line)) = .next (t.lineView []) := by
  induction ts generalizing s with
  | nil =>
    cases h
    exact ⟨hts, rfl, rfl⟩
  | cons a ts ih =>
    have hreset' : Agent.reset ∉ ts := fun hmem => hreset (List.mem_cons_of_mem a hmem)
    obtain ⟨u, hu⟩ := step_next s
    rw [List.length_cons, run_succ_of_next hu] at h
    cases a with
    | reset => exact absurd List.mem_cons_self hreset
    | host =>
      obtain ⟨hturns, hviews⟩ := step_host_views hts hu
      obtain ⟨hend, hhost, hline⟩ := ih hturns hreset' h
      rw [List.count_cons_self, List.count_cons_of_ne (by decide), List.replicate_succ,
        run_succ_of_next (hviews _).2, ← (hviews _).1]
      exact ⟨hend, hhost, hline⟩
    | line =>
      obtain ⟨hturns, hviews⟩ := step_line_views hts hu
      obtain ⟨hend, hhost, hline⟩ := ih hturns hreset' h
      rw [List.count_cons_self, List.count_cons_of_ne (by decide), List.replicate_succ,
        run_succ_of_next (hviews _).2, ← (hviews _).1]
      exact ⟨hend, hhost, hline⟩

/-- Settles O54: two orders of the same turns have as many turns of each side, so the runs of each side's turns alone,
which are the two runs' views, are the same. -/
theorem interleavingIndependent : Obligations.InterleavingIndependent := by
  intro s ts us hperm hreset
  obtain ⟨a, ha⟩ := run_next ts.length { s with turns := ts }
  obtain ⟨b, hb⟩ := run_next us.length { s with turns := us }
  refine ⟨a, b, ha, hb, ?_⟩
  obtain ⟨hturnsA, hhostA, hlineA⟩ := run_views (ts := ts) rfl hreset ha
  obtain ⟨hturnsB, hhostB, hlineB⟩ := run_views (ts := us) rfl (mt hperm.mem_iff.2 hreset) hb
  rw [hperm.count_eq] at hhostA hlineA
  have hhost : a.hostView [] = b.hostView [] := Host.Outcome.next.inj (hhostA.symm.trans hhostB)
  have hline : a.lineView [] = b.lineView [] := Host.Outcome.next.inj (hlineA.symm.trans hlineB)
  exact State.sameButEventOrder_of_views (hturnsA.trans hturnsB.symm) hhost hline

end Sys2Proof.Machine
end

section
/-! Formats H and L taken apart and put together: a line symbol is the end of the stream or the symbol of a byte, a
command word is its four fields; what each decodes to, and that it is the encoding of that. -/

namespace Sys2Proof.Machine

/-- The rows of R88 for the symbol of a byte, each with the bytes that the rows above it take excluded. -/
inductive ByteSelects : RxState → Byte → Instr → Prop where
  | huntSyn {st : RxState} (h : isHunt st = true) : ByteSelects st 0x16#8 .rxHuntSyn
  | huntDle : ByteSelects .hunt1 0x10#8 .rxHuntDle
  | huntStx : ByteSelects .hunt2 0x02#8 .rxHuntStx
  | huntMiss0 {b : Byte} (hsyn : b ≠ 0x16#8) : ByteSelects .hunt0 b (.rxHuntMiss b)
  | huntMiss1 {b : Byte} (hsyn : b ≠ 0x16#8) (hdle : b ≠ 0x10#8) : ByteSelects .hunt1 b (.rxHuntMiss b)
  | huntMiss2 {b : Byte} (hsyn : b ≠ 0x16#8) (hstx : b ≠ 0x02#8) : ByteSelects .hunt2 b (.rxHuntMiss b)
  | bodyDle : ByteSelects .body 0x10#8 .rxBodyDle
  | bodyData {b : Byte} (hdle : b ≠ 0x10#8) : ByteSelects .body b (.rxBodyData b)
  | escDle : ByteSelects .esc 0x10#8 .rxEscDle
  | escEtx : ByteSelects .esc 0x03#8 .rxEscEtx
  | escBad {b : Byte} (hdle : b ≠ 0x10#8) (hetx : b ≠ 0x03#8) : ByteSelects .esc b (.rxEscBad b)
  | fcsLo (b : Byte) : ByteSelects .fcs0 b (.rxFcsLo b)
  | fcsHi (b : Byte) : ByteSelects .fcs1 b (.rxFcsHi b)

variable {w v : CmdWord} {i j : Instr} {st : RxState} {x : LineSymbol} {b c : Byte}

/-! ### Line symbols (R81, R88) -/

/-- R81: a symbol that is not the end of the stream is the symbol of its byte. -/
theorem byteSymbol_symByte (h : symEos x = false) : byteSymbol (symByte x) = x := by
  revert h; revert x; decide

theorem byteSymbol_inj : byteSymbol b = byteSymbol c ↔ b = c :=
  ⟨fun h => by simpa using congrArg symByte h, congrArg byteSymbol⟩

/-- R81: the two kinds of line symbol. -/
theorem symEos_or_byteSymbol (x : LineSymbol) : symEos x = true ∨ ∃ b, x = byteSymbol b := by
  cases h : symEos x with
  | true => exact .inl rfl
  | false => exact .inr ⟨symByte x, (byteSymbol_symByte h).symm⟩

theorem decodeSymbol_of_symEos (h : symEos x = true) (st : RxState) : decodeSymbol st x = .rxEos := by
  simp [decodeSymbol, h]

theorem ByteSelects.decodeSymbol_eq (h : ByteSelects st b i) : decodeSymbol st (byteSymbol b) = i := by
  cases h with
  | huntSyn hst => cases st <;> cases hst <;> rfl
  | huntDle | huntStx | bodyDle | escDle | escEtx => rfl
  | huntMiss0 | huntMiss1 | huntMiss2 | bodyData | escBad | fcsLo | fcsHi => simp [decodeSymbol, *]

/-- R88: the receiver is total over bytes. -/
theorem byteSelects_decodeSymbol (st : RxState) (b : Byte) : ByteSelects st b (decodeSymbol st (byteSymbol b)) := by
  simp only [decodeSymbol, symEos_byteSymbol, symByte_byteSymbol, Bool.false_eq_true, if_false]
  cases st <;> dsimp only
  case hunt0 =>
    split
    case isTrue hsyn => subst hsyn; exact .huntSyn rfl
    case isFalse hsyn => exact .huntMiss0 hsyn
  case hunt1 =>
    split
    case isTrue hsyn => subst hsyn; exact .huntSyn rfl
    case isFalse hsyn =>
      split
      case isTrue hdle => subst hdle; exact .huntDle
      case isFalse hdle => exact .huntMiss1 hsyn hdle
  case hunt2 =>
    split
    case isTrue hsyn => subst hsyn; exact .huntSyn rfl
    case isFalse hsyn =>
      split
      case isTrue hstx => subst hstx; exact .huntStx
      case isFalse hstx => exact .huntMiss2 hsyn hstx
  case body =>
    split
    case isTrue hdle => subst hdle; exact .bodyDle
    case isFalse hdle => exact .bodyData hdle
  case esc =>
    split
    case isTrue hdle => subst hdle; exact .escDle
    case isFalse hdle =>
      split
      case isTrue hetx => subst hetx; exact .escEtx
      case isFalse hetx => exact .escBad hdle hetx
  case fcs0 => exact .fcsLo b
  case fcs1 => exact .fcsHi b

theorem ByteSelects.wf (h : ByteSelects st b i) : i.wf = true := by
  cases h <;> simp [Instr.wf, *]

theorem ByteSelects.selectedIn (h : ByteSelects st b i) : i.selectedIn st = true := by
  cases h with
  | huntSyn hst => cases st <;> cases hst <;> rfl
  | huntMiss1 _ hdle => simp [Instr.selectedIn, hdle]
  | huntMiss2 _ hstx => simp [Instr.selectedIn, hstx]
  | huntDle | huntStx | huntMiss0 | bodyDle | bodyData | escDle | escEtx | escBad | fcsLo | fcsHi => rfl

theorem ByteSelects.encode_eq (h : ByteSelects st b i) : encode i = .symbol (byteSymbol b) := by
  cases h <;> rfl

theorem selectedIn_rxHuntMiss_iff : (Instr.rxHuntMiss b).selectedIn st = true ↔
    st = .hunt0 ∨ (st = .hunt1 ∧ b ≠ 0x10#8) ∨ (st = .hunt2 ∧ b ≠ 0x02#8) := by
  simp [Instr.selectedIn, or_assoc]

/-- R88: every line operation is what its symbol decodes to, in each state that selects it. -/
theorem decodeSymbol_encode (hi : i.isCommand = false) (hwf : i.wf = true) (hst : i.selectedIn st = true) :
    ∃ x, encode i = .symbol x ∧ decodeSymbol st x = i := by
  cases i
  case rxEos => exact ⟨_, rfl, decodeSymbol_of_symEos symEos_eosSymbol st⟩
  case rxHuntSyn | rxHuntDle | rxHuntStx | rxBodyDle | rxEscDle | rxEscEtx =>
    refine ⟨_, rfl, ?_⟩
    cases st <;> cases hst <;> rfl
  case rxHuntMiss b =>
    have hsyn : b ≠ 0x16#8 := by simpa [Instr.wf] using hwf
    refine ⟨_, rfl, ByteSelects.decodeSymbol_eq ?_⟩
    rcases selectedIn_rxHuntMiss_iff.1 hst with rfl | ⟨rfl, hdle⟩ | ⟨rfl, hstx⟩
    · exact .huntMiss0 hsyn
    · exact .huntMiss1 hsyn hdle
    · exact .huntMiss2 hsyn hstx
  case rxBodyData b =>
    have hdle : b ≠ 0x10#8 := by simpa [Instr.wf] using hwf
    obtain rfl : st = .body := by simpa [Instr.selectedIn] using hst
    exact ⟨_, rfl, (ByteSelects.bodyData hdle).decodeSymbol_eq⟩
  case rxEscBad b =>
    obtain ⟨hdle, hetx⟩ : b ≠ 0x10#8 ∧ b ≠ 0x03#8 := by simpa [Instr.wf] using hwf
    obtain rfl : st = .esc := by simpa [Instr.selectedIn] using hst
    exact ⟨_, rfl, (ByteSelects.escBad hdle hetx).decodeSymbol_eq⟩
  case rxFcsLo b =>
    obtain rfl : st = .fcs0 := by simpa [Instr.selectedIn] using hst
    exact ⟨_, rfl, (ByteSelects.fcsLo b).decodeSymbol_eq⟩
  case rxFcsHi b =>
    obtain rfl : st = .fcs1 := by simpa [Instr.selectedIn] using hst
    exact ⟨_, rfl, (ByteSelects.fcsHi b).decodeSymbol_eq⟩
  all_goals cases hi

/-- Some receiver state selects each instruction: the first of its row's list, and any for a command. -/
theorem exists_selectedIn (i : Instr) : ∃ st, i.selectedIn st = true := by
  cases i
  case rxHuntDle => exact ⟨.hunt1, rfl⟩
  case rxHuntStx => exact ⟨.hunt2, rfl⟩
  case rxBodyDle | rxBodyData => exact ⟨.body, rfl⟩
  case rxEscDle | rxEscEtx | rxEscBad => exact ⟨.esc, rfl⟩
  case rxFcsLo => exact ⟨.fcs0, rfl⟩
  case rxFcsHi => exact ⟨.fcs1, rfl⟩
  all_goals exact ⟨.hunt0, rfl⟩

/-- Settles O2, from the round trips of the two formats. -/
theorem decodeOfEncode : Obligations.DecodeOfEncode := by
  intro i hwf
  refine ⟨exists_selectedIn i, fun st hst => ?_⟩
  cases hi : i.isCommand with
  | true =>
    obtain ⟨w, henc, hdec⟩ := decodeCommand_encode hi
    rw [henc]
    exact hdec
  | false =>
    obtain ⟨x, henc, hdec⟩ := decodeSymbol_encode hi hwf hst
    rw [henc]
    exact congrArg Except.ok hdec

/-! ### Command words (R80, R87, R89) -/

/-- R80: the four fields make up the whole word. -/
theorem fields_append (w : CmdWord) : cmdOp w ++ cmdRsv w ++ cmdAcc w ++ cmdData w = w := by
  simp only [cmdOp, cmdRsv, cmdAcc, cmdData]
  rw [BitVec.extractLsb'_append_extractLsb'_eq_extractLsb' (by rfl),
    BitVec.extractLsb'_append_extractLsb'_eq_extractLsb' (by rfl),
    BitVec.extractLsb'_append_extractLsb'_eq_extractLsb' (by rfl)]
  simp

theorem eq_iff_fields : w = v ↔
    cmdOp w = cmdOp v ∧ cmdRsv w = cmdRsv v ∧ cmdAcc w = cmdAcc v ∧ cmdData w = cmdData v := by
  refine ⟨fun h => by simp [h], fun ⟨hop, hrsv, hacc, hdata⟩ => ?_⟩
  rw [← fields_append w, hop, hrsv, hacc, hdata, fields_append]

theorem eq_cmdWord_iff {op : BitVec 4} {acc : Word16} {data : Byte} : w = cmdWord op acc data ↔
    cmdOp w = op ∧ cmdRsv w = 0#4 ∧ cmdAcc w = acc ∧ cmdData w = data := by
  simp [eq_iff_fields]

theorem withoutAcc_eq_ok_iff : withoutAcc w i = .ok j ↔ i = j ∧ cmdAcc w = 0#16 := by
  unfold withoutAcc
  split <;> simp [*]

theorem withoutOperands_eq_ok_iff : withoutOperands w i = .ok j ↔ i = j ∧ cmdAcc w = 0#16 ∧ cmdData w = 0#8 := by
  unfold withoutOperands
  split <;> simp [withoutAcc_eq_ok_iff, *]

/-- R87: a word that decodes is the encoding of the command it decodes to. -/
theorem encode_of_decodeCommand (h : decodeCommand w = .ok i) : encode i = .command w := by
  unfold decodeCommand at h
  split at h
  case isFalse => cases h
  case isTrue hrsv =>
    have word {op acc data} (hop : cmdOp w = op) (hacc : cmdAcc w = acc) (hdata : cmdData w = data) :
        Encoded.command (cmdWord op acc data) = .command w :=
      congrArg _ (eq_cmdWord_iff.2 ⟨hop, hrsv, hacc, hdata⟩).symm
    have plain {op k} (hop : cmdOp w = op) (hk : encode k = .command (cmdWord op 0#16 0#8))
        (h : withoutOperands w k = .ok i) : encode i = .command w := by
      obtain ⟨rfl, hacc, hdata⟩ := withoutOperands_eq_ok_iff.1 h
      exact hk.trans (word hop hacc hdata)
    split at h
    case isTrue hop => cases h; exact word hop rfl rfl
    split at h
    case isTrue hop => exact plain hop rfl h
    split at h
    case isTrue hop =>
      obtain ⟨rfl, hacc⟩ := withoutAcc_eq_ok_iff.1 h
      exact word hop hacc rfl
    split at h
    case isTrue hop => exact plain hop rfl h
    split at h
    case isTrue hop => exact plain hop rfl h
    split at h
    case isTrue hop => exact plain hop rfl h
    case isFalse => cases h

theorem isCommand_of_encode (h : encode i = .command w) : i.isCommand = true := by
  cases i
  case crcUpd | txSof | txByte | txEof | seqRd | seqInc => rfl
  all_goals cases h

/-- R87: the decoder of command words is the encoder read backwards. -/
theorem decodeCommand_eq_ok_iff : decodeCommand w = .ok i ↔ encode i = .command w := by
  refine ⟨encode_of_decodeCommand, fun h => ?_⟩
  obtain ⟨v, hv, hd⟩ := decodeCommand_encode (isCommand_of_encode h)
  cases hv.symm.trans h
  exact hd

/-- Settles O3, from the encodings of what command words and line symbols decode to. -/
theorem encodeOfDecode : Obligations.EncodeOfDecode := by
  refine ⟨fun w i h => ⟨isCommand_of_decodeCommand h, encode_of_decodeCommand h⟩,
    fun st x => ⟨isCommand_decodeSymbol st x, ?_⟩, fun st b => (byteSelects_decodeSymbol st b).encode_eq⟩
  rcases symEos_or_byteSymbol x with heos | ⟨b, rfl⟩
  · rw [decodeSymbol_of_symEos heos]
    exact ⟨rfl, rfl⟩
  · have hsel := byteSelects_decodeSymbol st b
    exact ⟨hsel.wf, hsel.selectedIn⟩

/-- Settles O1, by evaluating the decoders on the words and symbols written out. -/
theorem tableWordsDecode : Obligations.TableWordsDecode := by
  unfold Obligations.TableWordsDecode
  decide

end Sys2Proof.Machine
end

section
/-! The rows of the opcode table that an input selects: for a command word the row of the command it encodes, for a line
symbol the row of lowest priority number among those that apply in the receiver's state. -/

namespace Sys2Proof.Machine

variable {w v : CmdWord} {i : Instr} {st : RxState} {x y : LineSymbol} {b : Byte}

/-! ### Format H (R87) -/

theorem covers_iff_fields (r : CommandRow) : r.covers w = true ↔
    cmdOp w &&& cmdOp r.mask = cmdOp r.value ∧ cmdRsv w &&& cmdRsv r.mask = cmdRsv r.value ∧
    cmdAcc w &&& cmdAcc r.mask = cmdAcc r.value ∧ cmdData w &&& cmdData r.mask = cmdData r.value := by
  rw [CommandRow.covers, beq_iff_eq, eq_iff_fields]
  simp only [cmdOp, cmdRsv, cmdAcc, cmdData, BitVec.extractLsb'_and]

section
variable {o : OpName} {op : BitVec 4}

theorem covers_operandsFree_iff : (CommandRow.mk o (cmdWord op 0#16 0#8) 0xFF000000#32).covers w = true ↔
    ∃ acc data, w = cmdWord op acc data := by
  have hop (x : BitVec 4) : x &&& cmdOp 0xFF000000#32 = x := BitVec.and_allOnes
  have hrsv (x : BitVec 4) : x &&& cmdRsv 0xFF000000#32 = x := BitVec.and_allOnes
  have hacc (x : Word16) : x &&& cmdAcc 0xFF000000#32 = 0#16 := BitVec.and_zero
  have hdata (x : Byte) : x &&& cmdData 0xFF000000#32 = 0#8 := BitVec.and_zero
  simp [covers_iff_fields, eq_cmdWord_iff, hop, hrsv, hacc, hdata]

theorem covers_dataFree_iff : (CommandRow.mk o (cmdWord op 0#16 0#8) 0xFFFFFF00#32).covers w = true ↔
    ∃ data, w = cmdWord op 0#16 data := by
  have hop (x : BitVec 4) : x &&& cmdOp 0xFFFFFF00#32 = x := BitVec.and_allOnes
  have hrsv (x : BitVec 4) : x &&& cmdRsv 0xFFFFFF00#32 = x := BitVec.and_allOnes
  have hacc (x : Word16) : x &&& cmdAcc 0xFFFFFF00#32 = x := BitVec.and_allOnes
  have hdata (x : Byte) : x &&& cmdData 0xFFFFFF00#32 = 0#8 := BitVec.and_zero
  simp [covers_iff_fields, eq_cmdWord_iff, hop, hrsv, hacc, hdata]

theorem covers_wholeWord_iff : (CommandRow.mk o v 0xFFFFFFFF#32).covers w = true ↔ w = v := by
  have hall : w &&& 0xFFFFFFFF#32 = w := BitVec.and_allOnes
  simp [CommandRow.covers, hall]

/-- The rows that fix the whole word are those of the operations without operands. -/
theorem covers_wholeWord_iff_encode (hi : ∀ k, k.opName = o ↔ k = i) (hv : encode i = .command v) :
    (CommandRow.mk o v 0xFFFFFFFF#32).covers w = true ↔ ∃ k, k.opName = o ∧ encode k = .command w := by
  simp [covers_wholeWord_iff, hi, hv, eq_comm (a := w)]

end

/-- R87: a format-H row covers the encodings of its own operation and no other word. -/
theorem covers_iff_encode {r : CommandRow} (hr : r ∈ commandTable) :
    r.covers w = true ↔ ∃ i, i.opName = r.op ∧ encode i = .command w := by
  simp only [commandTable, List.mem_cons, List.not_mem_nil, or_false] at hr
  rcases hr with rfl | rfl | rfl | rfl | rfl | rfl
  · refine (covers_operandsFree_iff (op := 0x1#4)).trans ⟨?_, ?_⟩
    · rintro ⟨acc, data, rfl⟩
      exact ⟨.crcUpd acc data, rfl, rfl⟩
    · rintro ⟨i, ho, h⟩
      cases i <;> cases ho
      cases h
      exact ⟨_, _, rfl⟩
  · exact covers_wholeWord_iff_encode (i := .txSof) (fun k => by cases k <;> simp [Instr.opName]) rfl
  · refine (covers_dataFree_iff (op := 0x3#4)).trans ⟨?_, ?_⟩
    · rintro ⟨data, rfl⟩
      exact ⟨.txByte data, rfl, rfl⟩
    · rintro ⟨i, ho, h⟩
      cases i <;> cases ho
      cases h
      exact ⟨_, rfl⟩
  · exact covers_wholeWord_iff_encode (i := .txEof) (fun k => by cases k <;> simp [Instr.opName]) rfl
  · exact covers_wholeWord_iff_encode (i := .seqRd) (fun k => by cases k <;> simp [Instr.opName]) rfl
  · exact covers_wholeWord_iff_encode (i := .seqInc) (fun k => by cases k <;> simp [Instr.opName]) rfl

theorem commandTable_filter_of_ok (h : decodeCommand w = .ok i) :
    (commandTable.filter (·.covers w)).map CommandRow.op = [i.opName] := by
  have hrow : ∀ r ∈ commandTable, r.covers w = decide (r.op = i.opName) := by
    intro r hr
    rw [Bool.eq_iff_iff, covers_iff_encode hr, decide_eq_true_iff]
    simp only [← decodeCommand_eq_ok_iff, h, Except.ok.injEq, exists_eq_right', eq_comm]
  rw [List.filter_congr hrow]
  have hi := isCommand_of_decodeCommand h
  cases i
  case crcUpd | txSof | txByte | txEof | seqRd | seqInc => rfl
  all_goals cases hi

theorem commandTable_filter_of_error {e : DecodeError} (h : decodeCommand w = .error e) :
    commandTable.filter (·.covers w) = [] := by
  rw [List.filter_eq_nil_iff]
  intro r hr hcov
  obtain ⟨i, -, henc⟩ := (covers_iff_encode hr).1 hcov
  cases h.symm.trans (decodeCommand_eq_ok_iff.2 henc)

/-! ### Format L (R88) -/

theorem and_allBits (x : LineSymbol) : x &&& 0x1FF#9 = x := BitVec.and_allOnes

theorem and_eosBit_of_symEos (h : symEos x = true) : x &&& 0x100#9 = 0x100#9 := by
  revert h; revert x; decide

theorem ne_of_symEos (h : symEos x = true) (hy : symEos y = false) : x ≠ y := by
  rintro rfl
  cases h.symm.trans hy

/-- R81: an end of stream meets the pattern of `RX.EOS` and no other. -/
theorem selectedRows_of_symEos (h : symEos x = true) (st : RxState) :
    (selectedRows st x).map SymbolRow.op = [.rxEos] := by
  have hsyn : x ≠ 0x016#9 := ne_of_symEos h rfl
  have hdle : x ≠ 0x010#9 := ne_of_symEos h rfl
  have hstx : x ≠ 0x002#9 := ne_of_symEos h rfl
  have hetx : x ≠ 0x003#9 := ne_of_symEos h rfl
  cases st <;>
    simp [selectedRows, symbolTable, SymbolRow.covers, and_allBits, and_eosBit_of_symEos h, hsyn, hdle, hstx, hetx]

/-- R88: a byte that a row fixes selects it by priority; a byte that no row of the state fixes selects the row that
leaves the byte free. -/
theorem ByteSelects.selectedRows_eq (h : ByteSelects st b i) :
    (selectedRows st (byteSymbol b)).map SymbolRow.op = [i.opName] := by
  have hfree := Laws.RowPattern.byteSymbol_mask b
  have hsyn : byteSymbol b = 0x016#9 ↔ b = 0x16#8 := byteSymbol_inj (c := 0x16#8)
  have hdle : byteSymbol b = 0x010#9 ↔ b = 0x10#8 := byteSymbol_inj (c := 0x10#8)
  have hstx : byteSymbol b = 0x002#9 ↔ b = 0x02#8 := byteSymbol_inj (c := 0x02#8)
  have hetx : byteSymbol b = 0x003#9 ↔ b = 0x03#8 := byteSymbol_inj (c := 0x03#8)
  cases h with
  | huntSyn hst => cases st <;> cases hst <;> rfl
  | huntDle | huntStx | bodyDle | escDle | escEtx => rfl
  | huntMiss0 | huntMiss1 | huntMiss2 | bodyData | escBad | fcsLo | fcsHi =>
    simp [selectedRows, symbolTable, SymbolRow.covers, and_allBits, Instr.opName, *]

/-- Settles O4, from the rows that each kind of input selects. -/
theorem inputSelectsOneTableRow : Obligations.InputSelectsOneTableRow := by
  refine ⟨fun st x => ?_, fun w => ⟨fun i => commandTable_filter_of_ok, fun e => commandTable_filter_of_error⟩⟩
  rcases symEos_or_byteSymbol x with heos | ⟨b, rfl⟩
  · rw [selectedRows_of_symEos heos, decodeSymbol_of_symEos heos, Instr.opName]
  · exact (byteSelects_decodeSymbol st b).selectedRows_eq

end Sys2Proof.Machine
end

section
/-! Which command words are reserved and what a step does with one; how a step runs a table word that was placed; and
that a step always goes on. -/

namespace Sys2Proof.Machine

variable {w : CmdWord} {i : Instr}

/-! ### Reserved words (R89) -/

theorem withoutAcc_error_iff : (∃ e, withoutAcc w i = .error e) ↔ cmdAcc w ≠ 0#16 := by
  unfold withoutAcc
  split <;> simp [*]

theorem withoutOperands_error_iff : (∃ e, withoutOperands w i = .error e) ↔ cmdAcc w ≠ 0#16 ∨ cmdData w ≠ 0#8 := by
  unfold withoutOperands
  split <;> simp [withoutAcc_error_iff, *]

theorem reservedOp_iff (op : BitVec 4) :
    (op = 0#4 ∨ 7#4 ≤ op) ↔ op ≠ 1#4 ∧ op ≠ 2#4 ∧ op ≠ 3#4 ∧ op ≠ 4#4 ∧ op ≠ 5#4 ∧ op ≠ 6#4 := by
  revert op; decide

theorem decodeCommand_error_iff : (∃ e, decodeCommand w = .error e) ↔
    (cmdOp w = 0#4 ∨ 7#4 ≤ cmdOp w) ∨ cmdRsv w ≠ 0#4 ∨ (cmdAcc w ≠ 0#16 ∧ cmdOp w ≠ 1#4) ∨
      (cmdData w ≠ 0#8 ∧ cmdOp w ≠ 1#4 ∧ cmdOp w ≠ 3#4) := by
  rw [reservedOp_iff]
  unfold decodeCommand
  split
  case isFalse hrsv => simp [hrsv]
  case isTrue hrsv =>
    split
    case isTrue hop => simp [hrsv, hop]
    split
    case isTrue hop => simp [hrsv, hop, withoutOperands_error_iff]
    split
    case isTrue hop => simp [hrsv, hop, withoutAcc_error_iff]
    split
    case isTrue hop => simp [hrsv, hop, withoutOperands_error_iff]
    split
    case isTrue hop => simp [hrsv, hop, withoutOperands_error_iff]
    split
    case isTrue hop => simp [hrsv, hop, withoutOperands_error_iff]
    case isFalse => simp [*]

/-- Settles O5, from the list of reserved words and the step that takes one. -/
theorem reservedWordIsRefused : Obligations.ReservedWordIsRefused :=
  fun _ => ⟨decodeCommand_error_iff, fun _ he _ _ _ hts hw => step_of_reserved hts hw he⟩

/-! ### Table words -/

/-- A command word placed is taken off again by the next step, and runs. -/
theorem step_placeCommand (h : decodeCommand w = .ok i) (s : State) : step (placeCommand w s) = exec i s :=
  step_of_command rfl rfl h

/-- A symbol placed runs as in `tableState`; the receiver's state is changed only where it would not do so. -/
theorem step_placeSymbol (x : LineSymbol) (s : State) :
    ∃ st, step (placeSymbol x s) = exec (decodeSymbol (tableState x) x) { s with rxState := st } := by
  refine ⟨(placeSymbol x s).rxState, ?_⟩
  have hdec : decodeSymbol (placeSymbol x s).rxState x = decodeSymbol (tableState x) x := by
    unfold placeSymbol
    split <;> simp [*]
  rw [← hdec]
  exact step_of_symbol rfl rfl

/-- A table word that decodes is placed as the symbol or the command word it was read from (log entry 9). -/
theorem placeTableWord_of_decodeTableWord {nbits n : Nat} (h : decodeTableWord nbits n = some i) :
    (∃ x, decodeSymbol (tableState x) x = i ∧ placeTableWord nbits n = placeSymbol x) ∨
    (∃ w, decodeCommand w = .ok i ∧ placeTableWord nbits n = placeCommand w) := by
  unfold decodeTableWord at h
  split at h
  case isTrue hbits =>
    split at h
    case isTrue hn => exact .inl ⟨_, Option.some.inj h, funext fun s => by simp [placeTableWord, hbits, hn]⟩
    case isFalse => cases h
  case isFalse hbits =>
    split at h
    case isTrue hn =>
      split at h
      case h_1 hd => cases h; exact .inr ⟨_, hd, funext fun s => by simp [placeTableWord, hbits, hn]⟩
      case h_2 => cases h
    case isFalse => cases h

/-- Settles O9, from the step after a symbol and the step after a command word was placed. -/
theorem placedTableWordRunsNext : Obligations.PlacedTableWordRunsNext := by
  intro s nbits n i h
  unfold State.withFetchWord
  rcases placeTableWord_of_decodeTableWord h with ⟨x, rfl, hplace⟩ | ⟨w, hd, hplace⟩ <;> rw [hplace]
  · obtain ⟨st, hstep⟩ := step_placeSymbol x s
    refine ⟨_, hstep, fun hi => ?_, fun _ => rfl⟩
    cases hi.symm.trans (isCommand_decodeSymbol _ x)
  · exact ⟨s, step_placeCommand hd s, fun _ => rfl, fun _ => rfl⟩

/-- Settles O8, from the operations' and the steps' next states. -/
theorem stepNeverStops : Obligations.StepNeverStops := ⟨exec_next, step_next⟩

end Sys2Proof.Machine
end

section
/-! Symbols consumed outside any schedule (`rxFeed`): what a run of line turns consumes, and what the receiver makes of
each part of a wire frame, as equations for the whole state. -/

namespace Sys2Proof.Machine

variable {i : Instr} {s t : State} {st : RxState} {x : LineSymbol} {b : Byte}

/-! ### Line turns -/

theorem storeLogical_withInputs (b : Byte) (n : RxState) (ts : List Agent) (xs : List LineSymbol) :
    storeLogical b n { s with turns := ts, rxLine := xs } =
      { storeLogical b n s with turns := ts, rxLine := xs } := by
  unfold storeLogical
  split
  case isTrue hfull => rw [if_pos (show s.rxFull = true from hfull)]; rfl
  case isFalse hfull => rw [if_neg (show ¬ s.rxFull = true from hfull)]; rfl

theorem word_eq_append (hi lo : Byte) : word hi lo = hi ++ lo := by
  apply BitVec.eq_of_toNat_eq
  have hhi := hi.isLt
  have hlo := lo.isLt
  simp only [word, BitVec.toNat_append, BitVec.toNat_ofNat]
  rw [← Nat.shiftLeft_add_eq_or_of_lt hlo, Nat.shiftLeft_eq]
  omega

/-- R161: the two verdicts in one equation; they differ in the event. -/
theorem exec_rxFcsHi_eq (s : State) (b : Byte) : exec (.rxFcsHi b) s = .next { s with
    evt := s.evt ++ [if b ++ s.rxFcsLo = s.crcRx then .frameOk s.rxBuf else .failed .checksumMismatch]
    rxBuf := []
    rxState := .hunt0 } := by
  simp only [exec, execRxFcsHi, fcsMatches_iff, word_eq_append]
  split <;> rfl

/-- No operation of the line looks at the inputs not taken yet. -/
theorem exec_line_withInputs (hi : i.isCommand = false) (h : exec i s = .next t) (ts : List Agent)
    (xs : List LineSymbol) :
    exec i { s with turns := ts, rxLine := xs } = .next { t with turns := ts, rxLine := xs } := by
  cases i
  case rxEos | rxHuntSyn | rxHuntDle | rxHuntStx | rxHuntMiss | rxBodyDle | rxEscEtx | rxEscBad | rxFcsLo =>
    cases h; rfl
  case rxBodyData | rxEscDle => cases h; exact congrArg _ (storeLogical_withInputs _ _ _ _)
  case rxFcsHi b => cases (exec_rxFcsHi_eq s b).symm.trans h; exact exec_rxFcsHi_eq _ b
  all_goals cases hi

theorem rxFeed_cons_of_next (h : rxSymbol x s = .next t) (xs : List LineSymbol) :
    rxFeed s (x :: xs) = rxFeed t xs := by
  simp [rxFeed, h]

theorem rxFeed_append (s : State) (xs ys : List LineSymbol) :
    rxFeed s (xs ++ ys) = rxFeed (rxFeed s xs) ys := by
  induction xs generalizing s with
  | nil => rfl
  | cons x xs ih =>
    obtain ⟨t, ht⟩ := exec_next (decodeSymbol s.rxState x) s
    rw [List.cons_append, rxFeed_cons_of_next ht, rxFeed_cons_of_next ht, ih]

/-- R58, R163: line turns for symbols that wait on the line consume them, and nothing else happens. -/
theorem run_line_turns (s : State) (zs : List LineSymbol) (ts : List Agent) (xs : List LineSymbol) :
    run zs.length { s with turns := List.replicate zs.length .line ++ ts, rxLine := zs ++ xs } =
      .next { rxFeed s zs with turns := ts, rxLine := xs } := by
  induction zs generalizing s with
  | nil => rfl
  | cons z zs ih =>
    obtain ⟨t, ht⟩ := exec_next (decodeSymbol s.rxState z) s
    rw [rxFeed_cons_of_next ht, ← ih t]
    have hstep : step { s with turns := List.replicate (zs.length + 1) .line ++ ts, rxLine := z :: (zs ++ xs) } =
        .next { t with turns := List.replicate zs.length .line ++ ts, rxLine := zs ++ xs } :=
      (step_of_symbol rfl rfl).trans (exec_line_withInputs (isCommand_decodeSymbol _ z) ht _ _)
    exact run_succ_of_next hstep _

theorem run_of_line_turns {zs : List LineSymbol} {ts : List Agent} {xs : List LineSymbol}
    (hts : s.turns = List.replicate zs.length .line ++ ts) (hxs : s.rxLine = zs ++ xs) :
    run zs.length s = .next { rxFeed s zs with turns := ts, rxLine := xs } := by
  rw [← run_line_turns, ← hts, ← hxs]

/-! ### A frame on the line -/

theorem rxSymbol_of_selects (hst : s.rxState = st) (hsel : ByteSelects st b i) :
    rxSymbol (byteSymbol b) s = exec i s := by
  rw [rxSymbol, hst, hsel.decodeSymbol_eq]

theorem exec_rxBodyData_of_room (hroom : s.params.rxCap ≠ some s.rxBuf.length) :
    exec (.rxBodyData b) s = .next { s with rxBuf := s.rxBuf ++ [b], crcRx := crcUpdate s.crcRx b } := by
  rcases storeLogical_cases s b s.rxState with ⟨hfull, -⟩ | ⟨-, heq⟩
  · exact absurd hfull hroom
  · exact congrArg _ heq

theorem exec_rxEscDle_of_room (hroom : s.params.rxCap ≠ some s.rxBuf.length) :
    exec .rxEscDle s = .next { s with
      rxBuf := s.rxBuf ++ [0x10#8], crcRx := crcUpdate s.crcRx 0x10#8, rxState := .body } := by
  rcases storeLogical_cases s 0x10#8 .body with ⟨hfull, -⟩ | ⟨-, heq⟩
  · exact absurd hfull hroom
  · exact congrArg _ heq

/-- R151 to R153: a start marker opens a frame from every hunt state. -/
theorem rxFeed_startMarker (hs : isHunt s.rxState = true) :
    rxFeed s (startMarker.map byteSymbol) = { s with rxState := .body, rxBuf := [], crcRx := 0x0000#16 } := by
  have hsyn : rxSymbol (byteSymbol 0x16#8) s = .next { s with rxState := .hunt1 } :=
    rxSymbol_of_selects rfl (.huntSyn hs)
  exact rxFeed_cons_of_next hsyn _

/-- R155 to R157: one logical byte, sent once or twice, is stored and accumulated once. -/
theorem rxFeed_stuff_singleton (hs : s.rxState = .body) (hroom : s.params.rxCap ≠ some s.rxBuf.length) (b : Byte) :
    rxFeed s ((stuff [b]).map byteSymbol) = { s with rxBuf := s.rxBuf ++ [b], crcRx := crcUpdate s.crcRx b } := by
  by_cases hb : b = 0x10#8
  · subst hb
    have hdle : rxSymbol (byteSymbol 0x10#8) s = .next { s with rxState := .esc } :=
      rxSymbol_of_selects hs .bodyDle
    have hesc : rxSymbol (byteSymbol 0x10#8) { s with rxState := .esc } = .next { s with
        rxBuf := s.rxBuf ++ [0x10#8], crcRx := crcUpdate s.crcRx 0x10#8, rxState := .body } :=
      (rxSymbol_of_selects rfl .escDle).trans (exec_rxEscDle_of_room hroom)
    refine (rxFeed_cons_of_next hdle _).trans ((rxFeed_cons_of_next hesc _).trans ?_)
    simp [rxFeed, hs]
  · have hdata := (rxSymbol_of_selects hs (.bodyData hb)).trans (exec_rxBodyData_of_room hroom)
    rw [stuff_cons_of_ne hb]
    exact rxFeed_cons_of_next hdata _

/-- R130, R155 to R157: a stuffed list that `RX_CAP` admits is stored and accumulated as the list. -/
theorem rxFeed_stuff (ys : List Byte) (hs : s.rxState = .body)
    (hcap : ∀ cap, s.params.rxCap = some cap → s.rxBuf.length + ys.length ≤ cap) :
    rxFeed s ((stuff ys).map byteSymbol) =
      { s with rxBuf := s.rxBuf ++ ys, crcRx := crcBytes s.crcRx ys } := by
  induction ys generalizing s with
  | nil => simp [rxFeed]
  | cons y ys ih =>
    have hroom : s.params.rxCap ≠ some s.rxBuf.length := by
      intro hfull
      have hle := hcap _ hfull
      rw [List.length_cons] at hle
      omega
    have hsplit : stuff (y :: ys) = stuff [y] ++ stuff ys := stuff_append [y] ys
    rw [hsplit, List.map_append, rxFeed_append, rxFeed_stuff_singleton hs hroom]
    refine (ih (s := { s with rxBuf := s.rxBuf ++ [y], crcRx := crcUpdate s.crcRx y }) hs fun cap hc => ?_).trans ?_
    · have hle := hcap cap hc
      simp only [List.length_append, List.length_cons, List.length_nil] at hle ⊢
      omega
    · simp

/-- R156, R158: the end marker is accumulated as the one terminator byte. -/
theorem rxFeed_endMarker (hs : s.rxState = .body) :
    rxFeed s (endMarker.map byteSymbol) = { s with crcRx := crcUpdate s.crcRx 0x03#8, rxState := .fcs0 } := by
  have hdle : rxSymbol (byteSymbol 0x10#8) s = .next { s with rxState := .esc } :=
    rxSymbol_of_selects hs .bodyDle
  exact rxFeed_cons_of_next hdle _

/-- R160, R161: two bytes after the end marker are taken raw, whatever they are, and decide the verdict. -/
theorem rxFeed_trailer (hs : s.rxState = .fcs0) (lo hi : Byte) : rxFeed s ([lo, hi].map byteSymbol) = { s with
    rxFcsLo := lo
    evt := s.evt ++ [if hi ++ lo = s.crcRx then .frameOk s.rxBuf else .failed .checksumMismatch]
    rxBuf := []
    rxState := .hunt0 } := by
  have hlo : rxSymbol (byteSymbol lo) s = .next { s with rxFcsLo := lo, rxState := .fcs1 } :=
    rxSymbol_of_selects hs (.fcsLo lo)
  have hhi := (rxSymbol_of_selects (s := { s with rxFcsLo := lo, rxState := .fcs1 }) rfl (.fcsHi hi)).trans
    (exec_rxFcsHi_eq _ hi)
  exact (rxFeed_cons_of_next hlo _).trans (rxFeed_cons_of_next hhi _)

/-- A body on the line between its markers, with any two bytes for its checksum (R82, R83). -/
def wireWithTrailer (body : List Byte) (lo hi : Byte) : List Byte :=
  startMarker ++ stuff body ++ endMarker ++ [lo, hi]

/-- R82: with the body's own checksum, low byte first, it is the body's wire form. -/
theorem wireWithTrailer_bodyFcs (body : List Byte) :
    wireWithTrailer body (lo8 (bodyFcs body)) (hi8 (bodyFcs body)) = encodeBody body := rfl

/-- R164: what the receiver makes of a whole frame, from every hunt state. -/
theorem rxFeed_wireWithTrailer (hs : isHunt s.rxState = true) {body : List Byte}
    (hcap : ∀ cap, s.params.rxCap = some cap → body.length ≤ cap) (lo hi : Byte) :
    rxFeed s ((wireWithTrailer body lo hi).map byteSymbol) = { s with
      crcRx := crcBytes 0x0000#16 (body ++ [0x03#8])
      rxFcsLo := lo
      evt := s.evt ++ [if hi ++ lo = crcBytes 0x0000#16 (body ++ [0x03#8]) then .frameOk body
        else .failed .checksumMismatch]
      rxBuf := []
      rxState := .hunt0 } := by
  simp only [wireWithTrailer, List.map_append, rxFeed_append]
  rw [rxFeed_startMarker hs, rxFeed_stuff body rfl (by simpa using hcap), rxFeed_endMarker rfl]
  refine (rxFeed_trailer rfl lo hi).trans ?_
  simp [crcBytes_append]

/-- Settles O44: a run of line turns is what the receiver makes of the frame's symbols. -/
theorem trailerDecidesVerdict : Obligations.TrailerDecidesVerdict := by
  intro body lo hi s wire ts xs hs hcap hwire hts hxs
  obtain rfl : wire = wireWithTrailer body lo hi := hwire
  have hrun := run_of_line_turns (by rwa [List.length_map]) hxs
  rw [List.length_map, rxFeed_wireWithTrailer ((isHunt_iff _).2 hs) hcap] at hrun
  exact ⟨_, hrun, rfl, rfl, rfl, rfl, rfl⟩

end Sys2Proof.Machine
end

section
/-! Format W by length and by shape: what stuffing adds (R84, R130), and what cannot occur in a stuffed list (R85). -/

namespace Sys2Proof.Machine

/-- R130: stuffing adds one byte for each escape byte. -/
theorem length_stuff (xs : List Byte) : (stuff xs).length = xs.length + xs.count 0x10#8 := by
  induction xs with
  | nil => rfl
  | cons x xs ih =>
    by_cases hx : x = 0x10#8
    · subst hx
      rw [stuff_cons_dle, List.count_cons_self]
      simp only [List.length_cons, ih]
      omega
    · rw [stuff_cons_of_ne hx, List.count_cons_of_ne hx]
      simp only [List.length_cons, ih]
      omega

theorem length_encodeFrame (h p : List Byte) :
    (encodeFrame h p).length = 3 + h.length + p.length + (h ++ p).count 0x10#8 + 2 + 2 := by
  simp only [encodeFrame_eq_encodeBody, encodeBody, startMarker_eq, endMarker_eq, List.length_append,
    List.length_cons, List.length_nil, length_stuff]
  omega

/-- Settles O26: a body has at most as many escape bytes as bytes. -/
theorem frameWireLength : Obligations.FrameWireLength := by
  intro h p
  have hlen := length_encodeFrame h p
  have hcount : (h ++ p).count 0x10#8 ≤ (h ++ p).length := List.count_le_length
  rw [List.length_append] at hcount
  exact ⟨hlen, by omega, fun hp => by omega⟩

theorem getLast?_ne_of_cons {x d : Byte} {a : List Byte} (h : (x :: a).getLast? ≠ some d) :
    a.getLast? ≠ some d := by
  cases a with
  | nil => simp
  | cons y a => rwa [List.getLast?_cons_cons] at h

/-- R130: stuffing puts escape bytes down in pairs, so a maximal run of them is even: in what is before the run, or in
the run, a pair is taken off at a time. -/
theorem stuff_run_even {xs a b : List Byte} {n : Nat} (h : stuff xs = a ++ List.replicate n 0x10#8 ++ b)
    (ha : a.getLast? ≠ some 0x10#8) (hb : b.head? ≠ some 0x10#8) : n % 2 = 0 := by
  induction xs generalizing a n with
  | nil =>
    have hlen := congrArg List.length h
    simp only [stuff_nil, List.length_nil, List.length_append, List.length_replicate] at hlen
    omega
  | cons x xs ih =>
    by_cases hx : x = 0x10#8
    · subst hx
      rw [stuff_cons_dle] at h
      match a, n with
      | [], 0 => rfl
      | [], 1 =>
        have hbeq : 0x10#8 :: stuff xs = b := by simpa using h
        exact absurd rfl (hbeq ▸ hb)
      | [], n + 2 =>
        have heven := ih (a := []) (n := n) (by simpa [List.replicate_succ] using h) ha
        omega
      | [y], n =>
        obtain ⟨rfl, -⟩ := List.cons.inj h
        exact absurd rfl ha
      | y :: z :: a, n =>
        obtain ⟨-, htail⟩ := List.cons.inj h
        obtain ⟨-, hrest⟩ := List.cons.inj htail
        exact ih hrest (getLast?_ne_of_cons (getLast?_ne_of_cons ha))
    · rw [stuff_cons_of_ne hx] at h
      match a, n with
      | [], 0 => rfl
      | [], n + 1 =>
        obtain ⟨rfl, -⟩ := List.cons.inj h
        exact absurd rfl hx
      | y :: a, n =>
        obtain ⟨-, hrest⟩ := List.cons.inj h
        exact ih hrest (getLast?_ne_of_cons ha)

/-- Settles O25: a start marker in a stuffed list would hold a run of one escape byte. -/
theorem stuffedRunsEvenAndNoMarker : Obligations.StuffedRunsEvenAndNoMarker := by
  refine ⟨fun xs a b n => stuff_run_even, fun xs hmarker => ?_⟩
  obtain ⟨a, b, h⟩ := hmarker
  have hrun : stuff xs = (a ++ [0x16#8]) ++ List.replicate 1 0x10#8 ++ (0x02#8 :: b) := by simp [← h]
  have heven := stuff_run_even hrun (by simp) (by simp)
  omega

end Sys2Proof.Machine
end

section
/-! The checksum engine: one bit step bit by bit, from which come its linearity (R116), its equivalent forms (R115),
the residue (R118), its injectivity (R119), and what a frame with one body byte changed does to the receiver (R168). -/

namespace Sys2Proof.Machine

variable {c c' : Word16} {o o' : Byte} {d : Bool}

/-! ### One bit step (R110) -/

theorem getLsbD_crcBit (c : Word16) (d : Bool) (k : Nat) :
    (crcBit c d).getLsbD k = (c.getLsbD (k + 1) ^^ ((c.getLsbD 0 ^^ d) && (0xA001#16).getLsbD k)) := by
  unfold crcBit
  split
  case isTrue ht => rw [ht, Bool.true_and, BitVec.getLsbD_xor, BitVec.getLsbD_ushiftRight, Nat.add_comm]; rfl
  case isFalse ht =>
    rw [Bool.eq_false_of_not_eq_true ht, Bool.false_and, Bool.xor_false, BitVec.getLsbD_ushiftRight, Nat.add_comm]

/-- R110: bit 15 of the result is the difference that decides about `POLY`. -/
theorem getLsbD_crcBit_top (c : Word16) (d : Bool) : (crcBit c d).getLsbD 15 = (c.getLsbD 0 ^^ d) := by
  have hout : c.getLsbD 16 = false := BitVec.getLsbD_of_ge c 16 (Nat.le_refl 16)
  have hpoly : (0xA001#16).getLsbD 15 = true := rfl
  rw [getLsbD_crcBit, hout, hpoly, Bool.and_true, Bool.false_xor]

/-- Settles O13, from the bits of one step. -/
theorem crcBitBitByBit : Obligations.CrcBitBitByBit :=
  ⟨fun c d k _ => getLsbD_crcBit c d k, getLsbD_crcBit_top⟩

/-- A data bit equal to the low bit shifts it out: of a value already shifted by `k`, its bit `k`. -/
theorem crcBit_ushiftRight (c : Word16) (k : Nat) : crcBit (c >>> k) (c.getLsbD k) = c >>> (k + 1) := by
  rw [BitVec.shiftRight_add]
  simp [crcBit]

/-! ### Linearity (R116) -/

theorem crcBit_xor (c c' : Word16) (d d' : Bool) : crcBit (c ^^^ c') (d ^^ d') = crcBit c d ^^^ crcBit c' d' := by
  apply BitVec.eq_of_getLsbD_eq
  intro k _
  simp only [getLsbD_crcBit, BitVec.getLsbD_xor]
  cases (0xA001#16).getLsbD k
  case false => simp
  case true => simp only [Bool.and_true, Bool.xor_assoc, Bool.xor_left_comm]

theorem crcUpdate_xor (c c' : Word16) (o o' : Byte) :
    crcUpdate (c ^^^ c') (o ^^^ o') = crcUpdate c o ^^^ crcUpdate c' o' := by
  simp only [crcUpdate, BitVec.getLsbD_xor, crcBit_xor]

theorem crcBytes_zipWith_xor (c c' : Word16) {xs ys : List Byte} (h : xs.length = ys.length) :
    crcBytes (c ^^^ c') (List.zipWith (· ^^^ ·) xs ys) = crcBytes c xs ^^^ crcBytes c' ys := by
  induction xs generalizing c c' ys with
  | nil => rw [List.eq_nil_of_length_eq_zero h.symm]; rfl
  | cons x xs ih =>
    cases ys with
    | nil => cases h
    | cons y ys =>
      rw [List.zipWith_cons_cons, crcBytes_cons, crcUpdate_xor]
      exact ih _ _ (Nat.succ.inj h)

/-- Settles O15, from the linearity of one bit step. -/
theorem crcLinearOverXor : Obligations.CrcLinearOverXor :=
  ⟨crcUpdate_xor, fun c c' _ _ => crcBytes_zipWith_xor c c'⟩

/-! ### The other byte-at-a-time forms (R115) -/

@[simp] theorem getLsbD_zext16 (o : Byte) (k : Nat) : (zext16 o).getLsbD k = o.getLsbD k := by
  rw [zext16, BitVec.getLsbD_setWidth]
  by_cases hk : k < 16
  · simp [hk]
  · simp [BitVec.getLsbD_of_ge o k (by omega)]

/-- R115 (a): a step of the folded form takes the octet's low bit as data, and the rest of the octet stays folded in. -/
theorem foldStep_xor_zext16 (c : Word16) (o : Byte) :
    foldStep (c ^^^ zext16 o) = crcBit c (o.getLsbD 0) ^^^ zext16 (o >>> 1) := by
  have hstep : foldStep (c ^^^ zext16 o) = crcBit (c ^^^ zext16 o) false := by simp [foldStep, crcBit]
  apply BitVec.eq_of_getLsbD_eq
  intro k _
  simp only [hstep, getLsbD_crcBit, BitVec.getLsbD_xor, getLsbD_zext16, BitVec.getLsbD_ushiftRight, Bool.xor_false,
    Nat.add_comm 1 k, Bool.xor_assoc]
  rw [Bool.xor_comm (o.getLsbD (k + 1))]

theorem crcUpdateFolded_eq (c : Word16) (o : Byte) : crcUpdateFolded c o = crcUpdate c o := by
  have hout : zext16 (o >>> 8) = 0#16 := by rw [BitVec.ushiftRight_eq_zero (Nat.le_refl 8)]; rfl
  simp only [crcUpdateFolded, Nat.repeat, foldStep_xor_zext16, ← BitVec.shiftRight_add, BitVec.getLsbD_ushiftRight,
    Nat.reduceAdd, hout, BitVec.xor_zero]
  rfl

theorem getLsbD_lo8 (c : Word16) {k : Nat} (hk : k < 8) : (lo8 c).getLsbD k = c.getLsbD k := by
  simp [lo8, hk]

theorem lo8_xor_zext16 (c : Word16) (o : Byte) : lo8 (c ^^^ zext16 o) = lo8 c ^^^ o := by
  apply BitVec.eq_of_getLsbD_eq
  intro k hk
  simp only [getLsbD_lo8 _ hk, BitVec.getLsbD_xor, getLsbD_zext16]

/-- R118: the running value's own low byte shifts that byte out. -/
theorem crcUpdate_lo8 (c : Word16) : crcUpdate c (lo8 c) = c >>> 8 := by
  have hfirst : crcBit c (c.getLsbD 0) = c >>> 1 := crcBit_ushiftRight c 0
  simp only [crcUpdate, getLsbD_lo8, Nat.reduceLT, hfirst, crcBit_ushiftRight, Nat.reduceAdd]

/-- R115 (b), from linearity: the octet is the low byte, exclusive-ored with what the table is looked up at. -/
theorem crcUpdateByTable_eq (c : Word16) (o : Byte) : crcUpdateByTable c o = crcUpdate c o := by
  have hsplit : lo8 c ^^^ lo8 (c ^^^ zext16 o) = o := by
    rw [lo8_xor_zext16, ← BitVec.xor_assoc, BitVec.xor_self, BitVec.zero_xor]
  calc crcUpdateByTable c o
      = crcUpdate c (lo8 c) ^^^ crcUpdate 0#16 (lo8 (c ^^^ zext16 o)) := by rw [crcUpdate_lo8]; rfl
    _ = crcUpdate (c ^^^ 0#16) (lo8 c ^^^ lo8 (c ^^^ zext16 o)) := (crcUpdate_xor ..).symm
    _ = crcUpdate c o := by rw [hsplit, BitVec.xor_zero]

/-- Settles O14, from the two forms. -/
theorem crcByteFormsAgree : Obligations.CrcByteFormsAgree :=
  fun c o => ⟨crcUpdateFolded_eq c o, crcUpdateByTable_eq c o⟩

/-! ### Leading zero bytes and the residue (R117, R118) -/

theorem crcBytes_replicate_zero (n : Nat) : crcBytes 0x0000#16 (List.replicate n 0x00#8) = 0x0000#16 := by
  induction n with
  | zero => rfl
  | succ n ih => exact ih

/-- Settles O16: zero bytes leave the initial value as it is. -/
theorem leadingZerosInvisible : Obligations.LeadingZerosInvisible := by
  intro n xs
  rw [bodyFcs_eq, bodyFcs_eq, crcBytes_append, crcBytes_replicate_zero]

/-- R118: a running value followed by its own two bytes, low byte first, is shifted out. -/
theorem crcBytes_lo8_hi8 (c : Word16) : crcBytes c [lo8 c, hi8 c] = 0x0000#16 := by
  have hhi : hi8 c = lo8 (c >>> 8) := by
    apply BitVec.eq_of_getLsbD_eq
    intro k hk
    simp only [getLsbD_lo8 _ hk, hi8, BitVec.getLsbD_extractLsb', hk, decide_true, Bool.true_and,
      BitVec.getLsbD_ushiftRight]
  rw [crcBytes_cons, crcBytes_cons, crcBytes_nil, crcUpdate_lo8, hhi, crcUpdate_lo8, ← BitVec.shiftRight_add,
    BitVec.ushiftRight_eq_zero (Nat.le_refl 16)]

/-- Settles O17: the residue is the checksum followed by its own bytes. -/
theorem residueIsZero : Obligations.ResidueIsZero := by
  intro b
  rw [crcBytes_append, crcBytes_cons, ← bodyFcs_eq]
  exact crcBytes_lo8_hi8 (bodyFcs b)

/-! ### One changed byte (R119, R168) -/

/-- R110: nothing of the running value is lost in a bit step; its low bit is in bit 15 of the result. -/
theorem crcBit_left_inj : crcBit c d = crcBit c' d ↔ c = c' := by
  refine ⟨fun h => ?_, fun h => h ▸ rfl⟩
  have hlow : c.getLsbD 0 = c'.getLsbD 0 := by
    simpa only [getLsbD_crcBit_top, Bool.xor_left_inj] using congrArg (·.getLsbD 15) h
  apply BitVec.eq_of_getLsbD_eq
  intro k _
  cases k with
  | zero => exact hlow
  | succ k => simpa only [getLsbD_crcBit, hlow, Bool.xor_left_inj] using congrArg (·.getLsbD k) h

theorem crcUpdate_left_inj : crcUpdate c o = crcUpdate c' o ↔ c = c' := by
  simp only [crcUpdate, crcBit_left_inj]

theorem crcBytes_left_inj {xs : List Byte} : crcBytes c xs = crcBytes c' xs ↔ c = c' := by
  induction xs generalizing c c' with
  | nil => rfl
  | cons x xs ih => rw [crcBytes_cons, crcBytes_cons, ih, crcUpdate_left_inj]

/-- R115 (a): the octet may be folded into the running value, with a zero octet left to take. -/
theorem crcUpdate_xor_zext16 (c : Word16) (o : Byte) : crcUpdate (c ^^^ zext16 o) 0x00#8 = crcUpdate c o := by
  have hzero : zext16 0x00#8 = 0#16 := rfl
  rw [← crcUpdateFolded_eq, ← crcUpdateFolded_eq, crcUpdateFolded, hzero, BitVec.xor_zero, crcUpdateFolded]

theorem crcUpdate_right_inj : crcUpdate c o = crcUpdate c o' ↔ o = o' := by
  rw [← crcUpdate_xor_zext16 c o, ← crcUpdate_xor_zext16 c o', crcUpdate_left_inj, BitVec.xor_right_inj]
  refine ⟨fun h => BitVec.eq_of_getLsbD_eq fun k _ => ?_, congrArg zext16⟩
  simpa using congrArg (·.getLsbD k) h

/-- R119, for bodies cut at the byte in which they may differ. -/
theorem bodyFcs_changed_inj {a b : List Byte} {x y : Byte} :
    bodyFcs (a ++ x :: b) = bodyFcs (a ++ y :: b) ↔ x = y := by
  simp only [bodyFcs_eq, crcBytes_append, crcBytes_cons, crcUpdate_left_inj, crcBytes_left_inj, crcUpdate_right_inj]

/-- Settles O18, from the engine's injectivity in the running value and in the octet. -/
theorem oneChangedByteChangesChecksum : Obligations.OneChangedByteChangesChecksum :=
  fun _ _ _ _ hxy heq => hxy (bodyFcs_changed_inj.1 heq)

/-- Settles O45: the frame that arrives is the changed body's, and its trailer is the checksum of another body. -/
theorem changedBodyByteIsMismatch : Obligations.ChangedBodyByteIsMismatch := by
  intro a b x y s wire ts xs hxy _ hy hs hcap hwire hts hxs
  have hstuff : stuff (a ++ y :: b) = stuff a ++ [y] ++ stuff b := by
    rw [stuff_append, stuff_cons_of_ne hy, List.append_assoc, List.singleton_append]
  have hcap' : ∀ cap, s.params.rxCap = some cap → (a ++ y :: b).length ≤ cap := by
    intro cap hc
    have hle := hcap cap hc
    rw [List.length_append, List.length_cons]
    omega
  obtain ⟨t, hrun, hst, hbuf, -, -, hevt⟩ := trailerDecidesVerdict (a ++ y :: b) (lo8 (bodyFcs (a ++ x :: b)))
    (hi8 (bodyFcs (a ++ x :: b))) s wire ts xs hs hcap' (by simpa [hstuff] using hwire) hts hxs
  have hmismatch : hi8 (bodyFcs (a ++ x :: b)) ++ lo8 (bodyFcs (a ++ x :: b)) ≠
      crcBytes 0x0000#16 ((a ++ y :: b) ++ [0x03#8]) := by
    rw [← word_eq_append, word_hi8_lo8]
    exact oneChangedByteChangesChecksum a b x y hxy
  rw [if_neg hmismatch] at hevt
  exact ⟨t, hrun, hevt, hst, hbuf⟩

/-! ### The host command (R113) -/

/-- Settles O12: the word is the encoding of the command. -/
theorem crcUpdRepliesAndWritesNothing : Obligations.CrcUpdRepliesAndWritesNothing :=
  fun _ _ => ⟨decodeCommand_eq_ok_iff.2 rfl, fun _ => rfl⟩

end Sys2Proof.Machine
end

section
/-! The transmit side: the commands of a frame one by one (R131 to R133), which of them are refused (R138), what closes
a frame (R135), and a whole frame issued on host turns (R134, R136). -/

namespace Sys2Proof.Machine

variable {i : Instr} {s t : State}

/-! ### One command -/

theorem TxState.ne_txIdle_iff {st : TxState} : st ≠ .txIdle ↔ st = .txBody := by
  cases st <;> decide

theorem TxState.ne_txBody_iff {st : TxState} : st ≠ .txBody ↔ st = .txIdle := by
  cases st <;> decide

/-- Settles O19, from the two cases of `TX.SOF`. -/
theorem txSofOpensFrame : Obligations.TxSofOpensFrame :=
  ⟨decodeCommand_eq_ok_iff.2 rfl, fun _ => ⟨exec_txSof_of_txIdle,
    fun h => exec_txSof_of_txBody (TxState.ne_txIdle_iff.1 h)⟩⟩

/-- Settles O20: a byte accepted is appended stuffed. -/
theorem txByteSendsLogicalByte : Obligations.TxByteSendsLogicalByte := by
  intro data
  refine ⟨decodeCommand_eq_ok_iff.2 rfl, fun s => ⟨fun hs hdle => ?_, fun hs hne => ?_, fun hs => ?_⟩⟩
  · subst hdle
    exact exec_txByte_of_txBody hs
  · rw [exec_txByte_of_txBody hs, stuff_cons_of_ne hne, stuff_nil]
  · exact exec_txByte_of_txIdle (TxState.ne_txBody_iff.1 hs)

/-- Settles O21, from the two cases of `TX.EOF`. -/
theorem txEofClosesFrame : Obligations.TxEofClosesFrame := by
  refine ⟨decodeCommand_eq_ok_iff.2 rfl, ?_⟩
  rintro s _ rfl
  exact ⟨exec_txEof_of_txBody, fun hs => exec_txEof_of_txIdle (TxState.ne_txBody_iff.1 hs)⟩

/-! ### Refusals and the end of a frame -/

/-- R138: the commands that a transmitter state refuses. -/
def RefusedIn (st : TxState) (i : Instr) : Prop :=
  (i = .txSof ∧ st = .txBody) ∨ (∃ d, i = .txByte d ∧ st = .txIdle) ∨ (i = .txEof ∧ st = .txIdle)

theorem exec_of_refusedIn (h : RefusedIn s.txState i) : exec i s = .next (refuse s) := by
  rcases h with ⟨rfl, hs⟩ | ⟨d, rfl, hs⟩ | ⟨rfl, hs⟩
  · exact exec_txSof_of_txBody hs
  · exact exec_txByte_of_txIdle hs
  · exact exec_txEof_of_txIdle hs

/-- A command that is not refused leaves `EVT` alone. -/
theorem CommandEffect.evt (h : CommandEffect s i t) : t.evt = s.evt ∨ RefusedIn s.txState i := by
  cases h with
  | repliesCrc | repliesSeq | advances | opens | appends | closes => exact .inl rfl
  | refusesSof hs => exact .inr (.inl ⟨rfl, hs⟩)
  | refusesByte hs b => exact .inr (.inr (.inl ⟨b, rfl, hs⟩))
  | refusesEof hs => exact .inr (.inr (.inr ⟨rfl, hs⟩))

theorem exec_eq_refuse_iff (hi : i.isCommand = true) : exec i s = .next (refuse s) ↔ RefusedIn s.txState i := by
  refine ⟨fun h => ?_, exec_of_refusedIn⟩
  refine (exec_command_effect hi h).evt.resolve_left fun hevt => ?_
  simp at hevt

/-- Settles O22: a word is malformed or a command, and a command is refused as `exec_eq_refuse_iff` says. -/
theorem refusalsAreExactlyListed : Obligations.RefusalsAreExactlyListed := by
  intro s ts w ws hts hw
  cases hd : decodeCommand w with
  | error e => simp [step_of_reserved hts hw hd, refuse_eq]
  | ok i =>
    rw [step_of_command hts hw hd]
    refine (exec_eq_refuse_iff (isCommand_of_decodeCommand hd)).trans ?_
    simp [RefusedIn]

/-- R135: of the commands, `TX.EOF` alone closes a frame. -/
theorem CommandEffect.eq_txEof (h : CommandEffect s i t) (hs : s.txState = .txBody) (ht : t.txState = .txIdle) :
    i = .txEof := by
  cases h with
  | closes | refusesEof => rfl
  | opens hidle => cases hs.symm.trans hidle
  | repliesCrc | repliesSeq | advances | appends | refusesSof | refusesByte => cases hs.symm.trans ht

/-- Settles O23: every input that is no reset and no command leaves `TX_STATE` alone. -/
theorem openFrameEndsByEofOrReset : Obligations.OpenFrameEndsByEofOrReset := by
  intro s t hs h ht
  have hopen (heq : t.txState = s.txState) : False := by simp [heq, hs] at ht
  rcases step_cases h with ⟨-, rfl⟩ | ⟨ts, hts, -⟩ | ⟨ts, -, -, rfl⟩ | ⟨ts, w, ws, i, hts, hw, hd, he⟩ |
    ⟨ts, w, ws, e, -, -, -, rfl⟩ | ⟨ts, -, -, rfl⟩ | ⟨ts, x, xs, -, -, he⟩
  · exact (hopen rfl).elim
  · exact .inl ⟨ts, hts⟩
  · exact (hopen rfl).elim
  · obtain rfl := (exec_command_effect (isCommand_of_decodeCommand hd) he).eq_txEof hs ht
    exact .inr ⟨ts, w, ws, hts, hw, hd⟩
  · exact (hopen rfl).elim
  · exact (hopen rfl).elim
  · obtain ⟨htx, -⟩ := (exec_symbol_effect he rfl).frame
    exact (hopen htx).elim

/-! ### Stuffing -/

theorem head?_stuff (xs : List Byte) : (stuff xs).head? = xs.head? := by
  cases xs with
  | nil => rfl
  | cons x xs =>
    by_cases hx : x = 0x10#8
    · rw [hx, stuff_cons_dle]; rfl
    · rw [stuff_cons_of_ne hx]; rfl

theorem head?_eq_of_stuff_eq {xs ys : List Byte} (h : stuff xs = stuff ys) : xs.head? = ys.head? := by
  rw [← head?_stuff, h, head?_stuff]

/-- R130: the first byte of a stuffed list is the first logical byte, and so says how much to take off. -/
theorem stuff_injective : Function.Injective stuff := by
  intro xs ys h
  induction xs generalizing ys with
  | nil => exact (List.head?_eq_none_iff.1 (head?_eq_of_stuff_eq h).symm).symm
  | cons x xs ih =>
    cases ys with
    | nil => cases head?_eq_of_stuff_eq h
    | cons y ys =>
      cases head?_eq_of_stuff_eq h
      have hrest : stuff [x] ++ stuff xs = stuff [x] ++ stuff ys :=
        (stuff_append [x] xs).symm.trans (h.trans (stuff_append [x] ys))
      rw [ih (List.append_cancel_left hrest)]

/-- Settles O24, from the length of a stuffed list and the injectivity of stuffing. -/
theorem stuffLengthAndInjective : Obligations.StuffLengthAndInjective :=
  ⟨length_stuff, fun _ _ h => stuff_injective h⟩

/-! ### A frame on host turns -/

/-- No command looks at the inputs not taken yet. -/
theorem CommandEffect.exec_withInputs (h : CommandEffect s i t) (ts : List Agent) (ws : List CmdWord) :
    exec i { s with turns := ts, cmdPort := ws } = .next { t with turns := ts, cmdPort := ws } := by
  cases h with
  | repliesCrc | repliesSeq | advances => rfl
  | opens hs => exact exec_txSof_of_txIdle hs
  | appends hs b => exact exec_txByte_of_txBody hs
  | closes hs => exact exec_txEof_of_txBody hs
  | refusesSof hs => exact exec_txSof_of_txBody hs
  | refusesByte hs b => exact exec_txByte_of_txIdle hs
  | refusesEof hs => exact exec_txEof_of_txIdle hs

theorem commandWords_cons {w : CmdWord} (h : encode i = .command w) (prog : List Instr) :
    commandWords ((i :: prog).map encode) = w :: commandWords (prog.map encode) := by
  simp [commandWords, h]

/-- R61, R64: host turns for the words of a program run it as if it were issued command by command, and nothing else
happens. -/
theorem run_host_turns {prog : List Instr} (hprog : ∀ i ∈ prog, i.isCommand = true) (s : State) (ts : List Agent)
    (ws : List CmdWord) :
    run prog.length { s with
        turns := List.replicate prog.length .host ++ ts, cmdPort := commandWords (prog.map encode) ++ ws } =
      .next { issueAll prog s with turns := ts, cmdPort := ws } := by
  induction prog generalizing s with
  | nil => rfl
  | cons i prog ih =>
    obtain ⟨hi, hrest⟩ := List.forall_mem_cons.1 hprog
    obtain ⟨w, hw, hd⟩ := decodeCommand_encode hi
    obtain ⟨t, ht⟩ := exec_next i s
    have hstep : step { s with
        turns := List.replicate (prog.length + 1) .host ++ ts
        cmdPort := commandWords ((i :: prog).map encode) ++ ws } =
        .next { t with
          turns := List.replicate prog.length .host ++ ts, cmdPort := commandWords (prog.map encode) ++ ws } :=
      (step_of_command rfl (congrArg (· ++ ws) (commandWords_cons hw prog)) hd).trans
        ((exec_command_effect hi ht).exec_withInputs _ _)
    rw [issueAll, issue_eq hi ht, ← ih hrest t]
    exact run_succ_of_next hstep _

theorem isCommand_of_mem_txFrame {h p : List Byte} {prog : List Instr} (hp : txFrame h p = some prog) :
    ∀ i ∈ prog, i.isCommand = true := by
  unfold txFrame at hp
  split at hp
  case isFalse => cases hp
  case isTrue =>
    cases hp
    intro i hi
    simp only [List.mem_cons, List.mem_append, List.mem_map, List.not_mem_nil, or_false] at hi
    rcases hi with rfl | (⟨d, -, rfl⟩ | ⟨d, -, rfl⟩) | rfl <;> rfl

/-- Settles O27: the run is the frame issued command by command, which `issueAll_txFrame` says in full. -/
theorem txFrameEmitsEncode : Obligations.TxFrameEmitsEncode := by
  intro h p prog s ts ws hp hs hts hws
  have hrun := run_host_turns (isCommand_of_mem_txFrame hp) s ts ws
  rw [← hts, ← hws, issueAll_txFrame hp hs] at hrun
  exact hrun

end Sys2Proof.Machine
end

section
/-! The operations of the receive side one by one: which receiver state and symbol select each (R88), and its whole
effect (R151 to R162). -/

namespace Sys2Proof.Machine

variable {i : Instr} {s : State} {st : RxState} {x : LineSymbol} {b : Byte}

/-! ### Selection -/

theorem isCommand_of_encode_symbol (h : encode i = .symbol x) : i.isCommand = false := by
  refine Bool.eq_false_iff.2 fun hi => ?_
  obtain ⟨w, hw, -⟩ := decodeCommand_encode hi
  cases hw.symm.trans h

/-- R81: the bit `eos` alone selects `RX.EOS`. -/
theorem decodeSymbol_eq_rxEos_iff : decodeSymbol st x = .rxEos ↔ symEos x = true := by
  refine ⟨fun h => (symEos_or_byteSymbol x).resolve_right ?_, fun h => decodeSymbol_of_symEos h st⟩
  rintro ⟨b, rfl⟩
  cases h ▸ byteSelects_decodeSymbol st b

/-- R88: an operation that a byte selects is selected by its own byte alone, in the states of its row. -/
theorem decodeSymbol_eq_iff (henc : encode i = .symbol (byteSymbol b)) :
    decodeSymbol st x = i ↔ x = byteSymbol b ∧ i.wf = true ∧ i.selectedIn st = true := by
  constructor
  · rintro rfl
    rcases symEos_or_byteSymbol x with heos | ⟨c, rfl⟩
    · rw [decodeSymbol_of_symEos heos] at henc
      have heq : eosSymbol = byteSymbol b := Encoded.symbol.inj henc
      exact absurd (congrArg symEos heq) (by simp)
    · have hsel := byteSelects_decodeSymbol st c
      exact ⟨Encoded.symbol.inj (hsel.encode_eq.symm.trans henc), hsel.wf, hsel.selectedIn⟩
  · rintro ⟨rfl, hwf, hst⟩
    obtain ⟨y, hy, hdec⟩ := decodeSymbol_encode (isCommand_of_encode_symbol henc) hwf hst
    cases hy.symm.trans henc
    exact hdec

/-- R88, for a row that fixes the byte. -/
theorem decodeSymbol_eq_iff_of_fixed (hwf : i.wf = true) (henc : encode i = .symbol (byteSymbol b)) :
    decodeSymbol st x = i ↔ i.selectedIn st = true ∧ x = byteSymbol b := by
  rw [decodeSymbol_eq_iff henc, and_iff_right hwf, and_comm]

/-! ### The scan (R151 to R154) -/

/-- Settles O29, from the row's byte and states. -/
theorem rxHuntSynRestartsMatch : Obligations.RxHuntSynRestartsMatch :=
  ⟨fun _ _ => (decodeSymbol_eq_iff_of_fixed rfl rfl).trans (and_congr_left' (by simp [Instr.selectedIn])),
    fun _ => rfl⟩

/-- Settles O30, from the row's byte and state. -/
theorem rxHuntDleAdvances : Obligations.RxHuntDleAdvances :=
  ⟨fun _ _ => (decodeSymbol_eq_iff_of_fixed rfl rfl).trans (and_congr_left' (by simp [Instr.selectedIn])),
    fun _ => rfl⟩

/-- Settles O31, from the row's byte and state. -/
theorem rxHuntStxOpensFrame : Obligations.RxHuntStxOpensFrame :=
  ⟨fun _ _ => (decodeSymbol_eq_iff_of_fixed rfl rfl).trans (and_congr_left' (by simp [Instr.selectedIn])),
    fun _ => rfl⟩

/-- Settles O32: well-formedness excludes `16`, each state's condition the byte that continues its match. -/
theorem rxHuntMissDiscards : Obligations.RxHuntMissDiscards := by
  refine ⟨fun st x b => (decodeSymbol_eq_iff rfl).trans (and_congr_right' ?_), fun _ _ => rfl⟩
  have hwf : (Instr.rxHuntMiss b).wf = true ↔ b ≠ 0x16#8 := by simp [Instr.wf]
  rw [hwf, selectedIn_rxHuntMiss_iff]
  tauto

/-! ### The body (R155 to R159) -/

/-- R155, R157: a logical byte meets a full buffer. -/
theorem storeLogical_of_full (hfull : s.params.rxCap = some s.rxBuf.length) (b : Byte) (n : RxState) :
    storeLogical b n s = { s with evt := s.evt ++ [.failed .rxOverrun], rxBuf := [], rxState := .hunt0 } := by
  rcases storeLogical_cases s b n with ⟨-, heq⟩ | ⟨hroom, -⟩
  · exact heq
  · exact absurd hfull hroom

/-- Settles O33: a byte that is not escaped overruns or is stored. -/
theorem rxBodyDataStoresOrOverruns : Obligations.RxBodyDataStoresOrOverruns :=
  ⟨fun _ _ _ => (decodeSymbol_eq_iff rfl).trans
      (and_congr_right' (by simp [Instr.wf, Instr.selectedIn, and_comm])),
    fun b s => ⟨fun hfull => congrArg _ (storeLogical_of_full hfull b s.rxState), exec_rxBodyData_of_room⟩⟩

/-- Settles O34, from the row's byte and state. -/
theorem rxBodyDleEscapes : Obligations.RxBodyDleEscapes :=
  ⟨fun _ _ => (decodeSymbol_eq_iff_of_fixed rfl rfl).trans (and_congr_left' (by simp [Instr.selectedIn])),
    fun _ => rfl⟩

/-- Settles O35: a doubled escape byte overruns or is stored as one. -/
theorem rxEscDleUnstuffs : Obligations.RxEscDleUnstuffs :=
  ⟨fun _ _ => (decodeSymbol_eq_iff_of_fixed rfl rfl).trans (and_congr_left' (by simp [Instr.selectedIn])),
    fun _ => ⟨fun hfull => congrArg _ (storeLogical_of_full hfull 0x10#8 .body), exec_rxEscDle_of_room⟩⟩

/-- Settles O36, from the row's byte and state. -/
theorem rxEscEtxEndsBody : Obligations.RxEscEtxEndsBody :=
  ⟨fun _ _ => (decodeSymbol_eq_iff_of_fixed rfl rfl).trans (and_congr_left' (by simp [Instr.selectedIn])),
    fun _ => rfl⟩

/-- R150: in `HUNT0` only the first marker byte matches. -/
theorem hunt_hunt0 (b : Byte) : hunt .hunt0 b = if b = 0x16#8 then .hunt1 else .hunt0 := by
  simp [hunt]

/-- Settles O37: the byte is looked at again as in `HUNT0`. -/
theorem rxEscBadIsViolation : Obligations.RxEscBadIsViolation := by
  refine ⟨fun st x b => (decodeSymbol_eq_iff rfl).trans (and_congr_right' ?_), fun b s => ?_⟩
  · simp [Instr.wf, Instr.selectedIn, and_comm]
  · rw [← hunt_hunt0]
    rfl

/-! ### The checksum bytes and the end of the stream (R160 to R162) -/

/-- Settles O38, from the row's state; the row takes every byte. -/
theorem rxFcsLoLatches : Obligations.RxFcsLoLatches :=
  ⟨fun _ _ _ => (decodeSymbol_eq_iff rfl).trans (and_congr_right' (by simp [Instr.wf, Instr.selectedIn])),
    fun _ _ => rfl⟩

/-- Settles O39, from the two verdicts of `exec_rxFcsHi_eq`. -/
theorem rxFcsHiVerdict : Obligations.RxFcsHiVerdict :=
  ⟨fun _ _ _ => (decodeSymbol_eq_iff rfl).trans (and_congr_right' (by simp [Instr.wf, Instr.selectedIn])),
    fun b s => ⟨fun hok => by rw [exec_rxFcsHi_eq, if_pos hok], fun hbad => by rw [exec_rxFcsHi_eq, if_neg hbad]⟩⟩

/-- Settles O40, from the bit that selects `RX.EOS`. -/
theorem rxEosIsFrameIncomplete : Obligations.RxEosIsFrameIncomplete :=
  ⟨fun _ _ => decodeSymbol_eq_rxEos_iff, fun _ => rfl⟩

end Sys2Proof.Machine
end

section
/-! The receiver over a stretch of the line: the scan for a start marker (R150, R165), a whole frame (R164), and the
event that `RX.FRAME` returns (R163). -/

namespace Sys2Proof.Machine

variable {i : Instr} {s t : State} {st : RxState} {b : Byte} {bs : List Byte} {ts : List Agent}
  {xs : List LineSymbol}

/-! ### One byte of the scan (R150) -/

theorem hunt_eq_body_iff : hunt st b = .body ↔ st = .hunt2 ∧ b = 0x02#8 := by
  constructor
  · intro h
    unfold hunt at h
    split at h
    · cases h
    split at h
    · cases h
    split at h
    · assumption
    · cases h
  · rintro ⟨rfl, rfl⟩
    rfl

/-- The scan stays in a hunt state until it opens a frame. -/
theorem isHunt_hunt_of_ne_body (h : hunt st b ≠ .body) : isHunt (hunt st b) = true := by
  have hstx : ¬ (st = .hunt2 ∧ b = constants.stx) := mt hunt_eq_body_iff.2 h
  unfold hunt
  rw [if_neg hstx]
  split
  · rfl
  · split <;> rfl

/-- R151, R152, R154: a byte that does not complete the marker moves the scan and does nothing else. -/
theorem ByteSelects.exec_of_scan (h : ByteSelects st b i) (hst : isHunt st = true) (hne : hunt st b ≠ .body)
    (s : State) : exec i s = .next { s with rxState := hunt st b } := by
  cases h with
  | huntSyn | huntDle => rfl
  | huntStx => exact absurd rfl hne
  | huntMiss0 | huntMiss1 | huntMiss2 =>
    rw [rxHuntMissDiscards.2]
    simp [hunt, *]
  | bodyDle | bodyData | escDle | escEtx | escBad | fcsLo | fcsHi => cases hst

/-- R153: the byte that completes the marker opens a frame. -/
theorem ByteSelects.eq_rxHuntStx (h : ByteSelects st b i) (hbody : hunt st b = .body) : i = .rxHuntStx := by
  obtain ⟨rfl, rfl⟩ := hunt_eq_body_iff.1 hbody
  exact h.decodeSymbol_eq.symm

/-- Settles O41: the byte moves the scan or opens a frame. -/
theorem huntIsTheScan : Obligations.HuntIsTheScan := by
  intro s b hs
  have hsel := byteSelects_decodeSymbol s.rxState b
  by_cases hbody : hunt s.rxState b = .body
  · rw [hsel.eq_rxHuntStx hbody, hbody]
    exact ⟨_, rfl, rfl, rfl, rfl, rfl, rfl, rfl⟩
  · exact ⟨_, hsel.exec_of_scan ((isHunt_iff _).2 hs) hbody s, rfl, rfl, rfl, rfl, rfl, rfl⟩

/-! ### The scan over a list of bytes (R165) -/

/-- The part of the start marker that a state of the scan has matched; in `BODY` it is all of it. -/
def matched : RxState → List Byte
  | .hunt1 => [0x16#8]
  | .hunt2 => [0x16#8, 0x10#8]
  | .body => [0x16#8, 0x10#8, 0x02#8]
  | .hunt0 | .esc | .fcs0 | .fcs1 => []

/-- R150: a byte lengthens the match, or the scan falls back on a match that the byte ends. -/
theorem matched_hunt_suffix (st : RxState) (b : Byte) : matched (hunt st b) <:+ matched st ++ [b] := by
  unfold hunt
  split
  case isTrue hsyn => subst hsyn; exact List.suffix_append _ _
  split
  case isTrue hdle => obtain ⟨rfl, rfl⟩ := hdle; exact List.suffix_rfl
  split
  case isTrue hstx => obtain ⟨rfl, rfl⟩ := hstx; exact List.suffix_rfl
  case isFalse => exact List.nil_suffix

/-- The bytes scanned end in what the scan has matched, so a restarted match is never a false one. -/
theorem matched_scan_suffix (bs : List Byte) : matched (bs.foldl hunt .hunt0) <:+ bs := by
  induction bs using List.reverseRecOn with
  | nil => exact List.nil_suffix
  | append_singleton bs b ih =>
    rw [List.foldl_concat]
    exact (matched_hunt_suffix _ b).trans (List.suffix_append_self_iff.2 ih)

/-- R165: bytes without a start marker are scanned in silence. -/
theorem rxFeed_of_no_marker (hs : s.rxState = .hunt0) (hno : ¬ startMarker <:+: bs) :
    isHunt (bs.foldl hunt .hunt0) = true ∧
      rxFeed s (bs.map byteSymbol) = { s with rxState := bs.foldl hunt .hunt0 } := by
  induction bs using List.reverseRecOn with
  | nil => exact ⟨rfl, by rw [List.foldl_nil, ← hs]; rfl⟩
  | append_singleton bs b ih =>
    obtain ⟨hscan, hfeed⟩ := ih fun hbs => hno (hbs.trans (List.prefix_append bs [b]).isInfix)
    have hsuffix := matched_scan_suffix (bs ++ [b])
    rw [List.foldl_concat] at hsuffix ⊢
    have hne : hunt (bs.foldl hunt .hunt0) b ≠ .body := fun hbody => hno (hbody ▸ hsuffix).isInfix
    refine ⟨isHunt_hunt_of_ne_body hne, ?_⟩
    have hsel := byteSelects_decodeSymbol (bs.foldl hunt .hunt0) b
    have hsym := (rxSymbol_of_selects (s := { s with rxState := bs.foldl hunt .hunt0 }) rfl hsel).trans
      (hsel.exec_of_scan hscan hne _)
    rw [List.map_append, rxFeed_append, hfeed]
    exact rxFeed_cons_of_next hsym []

/-- Line turns for the symbols of bytes feed them to the receiver. -/
theorem run_of_line_bytes (hts : s.turns = List.replicate bs.length .line ++ ts)
    (hxs : s.rxLine = bs.map byteSymbol ++ xs) :
    run bs.length s = .next { rxFeed s (bs.map byteSymbol) with turns := ts, rxLine := xs } := by
  have hrun := run_of_line_turns (by rwa [List.length_map]) hxs
  rwa [List.length_map] at hrun

/-- Settles O42: what stands before the first marker is scanned in silence, and from whichever hunt state it leaves, the
marker opens a frame. -/
theorem scanFindsFirstMarker : Obligations.ScanFindsFirstMarker := by
  intro bs s ts xs hs hts hxs
  rw [run_of_line_bytes hts hxs]
  refine ⟨fun hno => ?silent, ?opens⟩
  case silent =>
    obtain ⟨hscan, hfeed⟩ := rxFeed_of_no_marker hs hno
    exact ⟨_, (isHunt_iff _).1 hscan, by rw [hfeed]⟩
  case opens =>
    rintro j rfl hno
    obtain ⟨hscan, hfeed⟩ := rxFeed_of_no_marker hs fun hj => hno (hj.trans (List.prefix_append j _).isInfix)
    have hopen := rxFeed_startMarker (s := { s with rxState := j.foldl hunt .hunt0 }) hscan
    rw [List.map_append, rxFeed_append, hfeed]
    exact congrArg (fun t : State => Host.Outcome.next { t with turns := ts, rxLine := xs }) hopen

/-! ### A whole frame (R164) -/

/-- R164: the body's own checksum is the trailer that the receiver accepts. -/
theorem rxFeed_encodeFrame (hs : isHunt s.rxState = true) {h p : List Byte}
    (hcap : ∀ cap, s.params.rxCap = some cap → (h ++ p).length ≤ cap) :
    rxFeed s ((encodeFrame h p).map byteSymbol) = { s with
      crcRx := fcs h p
      rxFcsLo := lo8 (fcs h p)
      evt := s.evt ++ [.frameOk (h ++ p)]
      rxBuf := []
      rxState := .hunt0 } := by
  have hfcs : hi8 (fcs h p) ++ lo8 (fcs h p) = crcBytes 0x0000#16 ((h ++ p) ++ [0x03#8]) := by
    rw [← word_eq_append, word_hi8_lo8]
    rfl
  rw [encodeFrame_eq_encodeBody, ← wireWithTrailer_bodyFcs]
  refine (rxFeed_wireWithTrailer hs hcap _ _).trans ?_
  rw [← fcs, if_pos hfcs]
  rfl

/-- Settles O43: the frame is fed to the receiver, which accepts it. -/
theorem frameRoundTrip : Obligations.FrameRoundTrip := by
  intro h p s ts xs hs hcap hts hxs
  rw [run_of_line_bytes hts hxs, rxFeed_encodeFrame ((isHunt_iff _).2 hs) hcap]
  exact ⟨_, rfl, rfl, rfl, rfl, rfl, rfl, rfl, rfl, rfl, rfl, rfl, rfl⟩

/-! ### The event that `RX.FRAME` returns (R163) -/

/-- R163, R254: the receiver has reported `e` after the events `before`, has dropped the attempted frame and hunts. -/
def Reported (before : List Event) (e : Event) (t : State) : Prop :=
  e.fromReceiver = true ∧ t.evt = before ++ [e] ∧ t.rxBuf = [] ∧
    (t.rxState = .hunt0 ∨ (t.rxState = .hunt1 ∧ e = .failed .escapeViolation))

theorem storeLogical_reported (b : Byte) (n : RxState) (s : State) :
    (storeLogical b n s).evt = s.evt ∨ ∃ e, Reported s.evt e (storeLogical b n s) := by
  rcases storeLogical_cases s b n with ⟨-, heq⟩ | ⟨-, heq⟩ <;> rw [heq]
  · exact .inr ⟨_, rfl, rfl, rfl, .inl rfl⟩
  · exact .inl rfl

/-- A line operation is silent or reports once (R151 to R162). -/
theorem exec_line_reported (hi : i.isCommand = false) (h : exec i s = .next t) :
    t.evt = s.evt ∨ ∃ e, Reported s.evt e t := by
  cases i
  case rxHuntSyn | rxHuntDle | rxHuntStx | rxHuntMiss | rxBodyDle | rxEscEtx | rxFcsLo => cases h; exact .inl rfl
  case rxBodyData | rxEscDle => cases h; exact storeLogical_reported _ _ _
  case rxEos => cases h; exact .inr ⟨_, rfl, rfl, rfl, .inl rfl⟩
  case rxEscBad b =>
    cases h
    refine .inr ⟨_, rfl, rfl, rfl, ?_⟩
    rw [raise_rxState, hunt_hunt0]
    split
    · exact .inr ⟨rfl, rfl⟩
    · exact .inl rfl
  case rxFcsHi b =>
    cases (exec_rxFcsHi_eq s b).symm.trans h
    refine .inr ⟨_, ?_, rfl, rfl, .inl rfl⟩
    split <;> rfl
  all_goals cases hi

/-- Settles O48, by induction on the symbols: those consumed in silence leave `EVT`, and the first that is not is the
last consumed. -/
theorem rxFrameResult : Obligations.RxFrameResult := by
  intro s t xs rest e h
  suffices hres : Reported s.evt e t ∧ ∃ used, used ≠ [] ∧ xs = used ++ rest by
    obtain ⟨⟨hfrom, hevt, hbuf, hst⟩, hused⟩ := hres
    exact ⟨hfrom, hevt, hbuf, hst, hused⟩
  induction xs generalizing s with
  | nil => cases h
  | cons x xs ih =>
    obtain ⟨u, hu⟩ := exec_next (decodeSymbol s.rxState x) s
    rcases exec_line_reported (isCommand_decodeSymbol _ x) hu with hsilent | ⟨f, hrep⟩
    · rw [rxFrame_cons_silent hu hsilent] at h
      obtain ⟨hrep, used, -, rfl⟩ := ih u h
      exact ⟨hsilent ▸ hrep, x :: used, List.cons_ne_nil _ _, rfl⟩
    · have ⟨_, hevt, _⟩ := hrep
      rw [rxFrame_cons_event hu hevt] at h
      cases h
      exact ⟨hrep, [x], List.cons_ne_nil _ _, rfl⟩

end Sys2Proof.Machine
end

section
/-! The sequence register (R190 to R195) and the host's procedures that advance it: `WAIT.ACK` (R202, R203) and a whole
session (R194, R204 to R214). -/

namespace Sys2Proof.Machine

variable {s t u : Session} {packages : List (List Byte)}

/-! ### The register's commands (R190 to R195) -/

/-- Settles O49: the word is the encoding of the command. -/
theorem seqRdReplies : Obligations.SeqRdReplies :=
  ⟨decodeCommand_eq_ok_iff.2 rfl, fun _ => rfl⟩

/-- Settles O50: the word is the encoding of the command. -/
theorem seqIncAdvances : Obligations.SeqIncAdvances :=
  ⟨decodeCommand_eq_ok_iff.2 rfl, fun _ => rfl⟩

theorem issueAll_replicate_seqInc (n : Nat) (s : State) :
    issueAll (List.replicate n .seqInc) s = { s with seq := s.seq + BitVec.ofNat 8 n } := by
  induction n generalizing s with
  | zero => simp [issueAll]
  | succ n ih =>
    rw [List.replicate_succ, issueAll, issue_seqInc, ih, inc8_eq, BitVec.add_assoc, Nat.add_comm n 1,
      BitVec.ofNat_add]

theorem commandWords_replicate_seqInc (n : Nat) :
    commandWords ((List.replicate n .seqInc).map encode) = List.replicate n 0x60000000#32 := by
  induction n with
  | zero => rfl
  | succ n ih => rw [List.replicate_succ, commandWords_cons (w := 0x60000000#32) rfl, ih, List.replicate_succ]

/-- Settles O51: the run is the increments issued one by one, which add `n`. -/
theorem seqCycle : Obligations.SeqCycle := by
  intro n s ts ws hts hws
  have hrun := run_host_turns (prog := List.replicate n .seqInc)
    (fun i hi => List.eq_of_mem_replicate hi ▸ rfl) s ts ws
  rw [List.length_replicate, commandWords_replicate_seqInc, ← hts, ← hws, issueAll_replicate_seqInc] at hrun
  have hsum : (s.seq + BitVec.ofNat 8 n).toNat = (s.seq.toNat + n) % 256 := by simp [BitVec.toNat_add]
  refine ⟨s.seq + BitVec.ofNat 8 n, hrun, hsum, ?_⟩
  rw [← BitVec.toNat_inj, hsum]
  have hlt : s.seq.toNat < 256 := s.seq.isLt
  omega

/-! ### `WAIT.ACK` (R202, R203) -/

/-- The dock frame that an event delivers, which `WAIT.ACK` acknowledges (R203). -/
def dockFrame : Event → Option (List Byte)
  | .frameOk b => if typeOf b = some 0x04#8 then some b else none
  | .failed _ => none
  | .cmdRefused => none

theorem dockFrame_eq_none {e : Event} (h : ∀ b, e = .frameOk b → typeOf b ≠ some 0x04#8) : dockFrame e = none := by
  cases e with
  | frameOk b => exact if_neg (h b rfl)
  | failed _ | cmdRefused => rfl

/-- Settles O59, by induction on the events: one that is not the acknowledgement goes before those of the rest, and
adds itself to the frames acknowledged exactly when it is a dock frame. -/
theorem waitNeedsMatchingAcknowledgement : Obligations.WaitNeedsMatchingAcknowledgement := by
  intro v evs h
  suffices hmatch : ∃ before body closed after, evs = before ++ (.frameOk body, closed) :: after ∧
      typeOf body = some 0x05#8 ∧ seqOf body = some v ∧
      (waitAck v evs).1 = before.filterMap (fun e => dockFrame e.1) from hmatch
  induction evs with
  | nil => cases h
  | cons ec evs ih =>
    obtain ⟨e, c⟩ := ec
    have hreact := waitReaction_ack v c e
    rw [waitAck_cons] at h ⊢
    cases hr : waitReaction (.ack v) c e <;> simp only [hr] at h hreact ⊢
    case acknowledgeDock body =>
      obtain ⟨rfl, htype⟩ := hreact
      obtain ⟨before, b, d, after, rfl, ht, hs, hacked⟩ := ih h
      exact ⟨(.frameOk body, c) :: before, b, d, after, rfl, ht, hs, by simp [dockFrame, htype, hacked]⟩
    case succeed body =>
      obtain ⟨rfl, ht, hs⟩ := hreact
      exact ⟨[], body, c, evs, rfl, ht, hs, rfl⟩
    case discard =>
      obtain ⟨before, b, d, after, rfl, ht, hs, hacked⟩ := ih h
      exact ⟨(e, c) :: before, b, d, after, rfl, ht, hs, by simp [dockFrame_eq_none hreact, hacked]⟩
    case failClosed => cases h

/-! ### A session that ends closed (R194, R211, R213) -/

theorem Ran.andThen_eq_done_iff {α β : Type} {x : Ran α} {f : α → Session → Ran β} {b : β} :
    x.andThen f = .done b t ↔ ∃ a u, x = .done a u ∧ f a u = .done b t := by
  cases x <;> simp [Ran.andThen]

/-- R213, R214: a transfer issues one `SEQ.INC` for its package-begin and one for each chunk. -/
theorem incsOf_transfer (pkg : List Byte) : incsOf (.transfer pkg) = 1 + (pkg.length + 255) / 256 := by
  simp [incsOf, transferPayloads, chunks, chunkCount, Nat.add_comm]

/-- R211: the acts of the disconnect step, given the current number. -/
def disconnectActs (v : Byte) : List HostAct :=
  .seqRd :: frameActs (.disconnect v) (seqHeader v disconnectPayload) disconnectPayload ++ [.release]

theorem count_seqInc_disconnectActs (v : Byte) : (disconnectActs v).count .seqInc = 0 := by
  simp [disconnectActs, frameActs, List.count_eq_zero]

theorem disconnect_effect (h : disconnect s = .done () t) :
    t.acts = s.acts ++ disconnectActs s.block.seq ∧ t.block.seq = s.block.seq := by
  rw [disconnect_eq] at h
  cases h
  refine ⟨?_, ?_⟩
  · simp [releaseStream, perform, disconnectActs]
  · obtain ⟨-, -, hseq, -⟩ := perform_frame_sameButTx (.disconnect s.block.seq)
      (seqHeader s.block.seq disconnectPayload) disconnectPayload { s with
        block := { s.block with replies := s.block.replies ++ [.byte s.block.seq] }
        acts := s.acts ++ [.seqRd] }
    exact hseq

/-- R216: a `run` that returns closed has completed its script. -/
theorem runSession_closed (h : runSession packages s = (some .closed, t)) :
    ∃ u, runScript 0 (session s.host packages) (startSession s) = .done () u ∧ t = { u with phase := .closed } := by
  unfold runSession at h
  cases hr : runScript 0 (session s.host packages) (startSession s) with
  | done a u =>
    rw [hr] at h
    cases h
    exact ⟨u, rfl, rfl⟩
  | stopped why u =>
    rw [hr] at h
    cases why <;> cases h

/-- R204 to R211: a completed script is the handshake, then the transfers, then the disconnect step. -/
theorem runScript_session_done {h : HostParams} (hr : runScript 0 (session h packages) s = .done () t) :
    ∃ u k w ph, runScript 0 (handshake h) s = .done () u ∧
      runScript k (packages.map .transfer) u = .done () w ∧ disconnect { w with phase := ph } = .done () t := by
  have hs := runScript_session h packages s
  rw [hr] at hs
  obtain ⟨w, ph, hbody, hdisc⟩ := hs
  rw [runScript_append, Ran.andThen_eq_done_iff] at hbody
  obtain ⟨_, u, hshake, htransfers⟩ := hbody
  exact ⟨u, _, w, ph, hshake, htransfers, hdisc⟩

/-- R194: the handshake of a `run` leaves the transmitter idle and three `SEQ.INC` among the acts. -/
theorem handshake_effect {h : HostParams} (hr : runScript 0 (handshake h) (startSession s) = .done () u) :
    u.block.txState = .txIdle ∧ u.acts.count .seqInc = 3 := by
  have hkeeps := handshake_keeps h (startSession s)
  rw [hr] at hkeeps
  obtain ⟨hidle, -, -, acts, hacts, hcount, -⟩ := hkeeps rfl
  refine ⟨hidle, ?_⟩
  rw [hacts, List.count_append, hcount]
  rfl

/-- R194, R213, R214: the transfers add acts that hold one `SEQ.INC` for each package-begin and each chunk. -/
theorem transfers_effect {k : Nat} (hr : runScript k (packages.map .transfer) s = .done () t)
    (hs : s.block.txState = .txIdle) :
    ∃ acts, t.acts = s.acts ++ acts ∧
      acts.count .seqInc = (packages.map fun pkg => 1 + (pkg.length + 255) / 256).sum := by
  have hkeeps := transfers_keep (fit := True) packages k s
  rw [hr] at hkeeps
  obtain ⟨-, -, -, acts, hacts, hcount, -⟩ := hkeeps hs
  refine ⟨acts, hacts, hcount.trans ?_⟩
  rw [List.map_map]
  exact congrArg List.sum (List.map_congr_left fun pkg _ => incsOf_transfer pkg)

/-- Settles O60: the script's three parts, each with what it adds to the acts. -/
theorem sessionIncrements : Obligations.SessionIncrements := by
  intro packages s t h
  obtain ⟨v, hrun, rfl⟩ := runSession_closed h
  obtain ⟨u, k, w, ph, hshake, htransfers, hdisc⟩ := runScript_session_done hrun
  obtain ⟨hidle, hthree⟩ := handshake_effect hshake
  obtain ⟨transfers, hacts, hcount⟩ := transfers_effect htransfers hidle
  obtain ⟨hlast, hseq⟩ := disconnect_effect hdisc
  have hall : v.acts = u.acts ++ transfers ++ disconnectActs v.block.seq := by rw [hlast, hseq, hacts]
  refine ⟨?_, u, transfers, disconnectActs v.block.seq, hshake, hthree, hcount, rfl,
    count_seqInc_disconnectActs _, hall⟩
  show v.acts.count .seqInc = _
  rw [hall, List.count_append, List.count_append, hthree, hcount, count_seqInc_disconnectActs, Nat.add_zero]

end Sys2Proof.Machine
end

section
/-! Chunking and padding of a package (R213, R293, C2). -/

namespace Sys2Proof.Machine

variable {pkg c : List Byte}

/-! ### The chunks of a package -/

theorem length_chunks (pkg : List Byte) : (chunks pkg).length = (pkg.length + 255) / 256 := by
  simp [chunks, chunkCount]

/-- A chunk is the stretch of 256 bytes at its index, cut off at the end of the package. -/
theorem mem_chunks_iff : c ∈ chunks pkg ↔
    ∃ k < (pkg.length + 255) / 256, (pkg.drop (k * 256)).take 256 = c := by
  simp [chunks, chunkCount]

theorem length_of_mem_chunks (hc : c ∈ chunks pkg) : 1 ≤ c.length ∧ c.length ≤ 256 := by
  obtain ⟨k, hk, rfl⟩ := mem_chunks_iff.1 hc
  rw [List.length_take, List.length_drop]
  omega

/-- The chunks but the last are those whose index has a chunk after it. -/
theorem mem_dropLast_chunks_iff : c ∈ (chunks pkg).dropLast ↔
    ∃ k < (pkg.length + 255) / 256 - 1, (pkg.drop (k * 256)).take 256 = c := by
  simp [chunks, chunkCount, List.dropLast_eq_take, ← List.map_take, List.take_range]

theorem length_of_mem_dropLast_chunks (hc : c ∈ (chunks pkg).dropLast) : c.length = 256 := by
  obtain ⟨k, hk, rfl⟩ := mem_dropLast_chunks_iff.1 hc
  rw [List.length_take, List.length_drop]
  omega

/-- The first `n` stretches of `m` elements concatenate to the first `n * m` elements. -/
theorem flatten_stretches {α : Type} (m n : Nat) (l : List α) :
    ((List.range n).map fun k => (l.drop (k * m)).take m).flatten = l.take (n * m) := by
  induction n with
  | zero => simp
  | succ n ih => simp [List.range_succ, ih, Nat.succ_mul, List.take_add]

theorem flatten_chunks (pkg : List Byte) : (chunks pkg).flatten = pkg := by
  have hcover : pkg.length ≤ chunkCount pkg.length * constants.maxChunk := by
    simp only [chunkCount, constants_maxChunk]
    omega
  rw [chunks, flatten_stretches, List.take_of_length_le hcover]

/-! ### The padding of a chunk -/

theorem length_padChunk (c : List Byte) : (padChunk c).length = c.length + (4 - c.length % 4) % 4 := by
  simp [padChunk, constants]

theorem prefix_padChunk (c : List Byte) : c <+: padChunk c := List.prefix_append ..

theorem eq_zero_of_mem_padding {z : Byte} (hz : z ∈ (padChunk c).drop c.length) : z = 0x00#8 := by
  rw [padChunk, List.drop_left] at hz
  exact List.eq_of_mem_replicate hz

/-- Settles O58: the chunks are the consecutive stretches of 256 bytes, and padding appends at most 3 zero bytes. -/
theorem chunksRebuildPackage : Obligations.ChunksRebuildPackage := by
  intro pkg
  refine ⟨length_chunks pkg, flatten_chunks pkg, fun c hc => ?_, fun c => length_of_mem_dropLast_chunks⟩
  obtain ⟨hpos, hmax⟩ := length_of_mem_chunks hc
  have hpad := length_padChunk c
  exact ⟨hpos, hmax, by omega, padChunk_length_le hc, prefix_padChunk c, by omega, fun z => eq_zero_of_mem_padding⟩

end Sys2Proof.Machine
end

section
/-! Exceptions: what an input appends to `EVT` (R250, R260), and the failure sequence of the receiver (R254). -/

namespace Sys2Proof.Machine

variable {i : Instr} {s t : State} {x : LineSymbol} {b : Byte} {k : Failure}

/-! ### The events of one step (R260) -/

/-- R138, R256: a command is silent, or it is refused and does nothing else. -/
theorem exec_command_silent_or_refused (hi : i.isCommand = true) (h : exec i s = .next t) :
    t.evt = s.evt ∨ t = refuse s := by
  refine (exec_command_effect hi h).evt.imp_right fun hrefused => ?_
  cases (exec_of_refusedIn hrefused).symm.trans h
  rfl

/-- Settles O47: a command is silent or refused, a reserved word is refused, a symbol is silent or reports once, and an
agent that supplies nothing leaves `EVT` alone. -/
theorem oneEventPerStep : Obligations.OneEventPerStep := by
  intro s t h hreset
  rcases step_cases h with ⟨-, rfl⟩ | ⟨ts, hts, -⟩ | ⟨ts, -, -, rfl⟩ | ⟨ts, w, ws, i, hts, -, hd, he⟩ |
    ⟨ts, w, ws, e, hts, -, -, rfl⟩ | ⟨ts, -, -, rfl⟩ | ⟨ts, x, xs, hts, -, he⟩
  · exact .inl rfl
  · exact absurd hts (hreset ts)
  · exact .inl rfl
  · rcases exec_command_silent_or_refused (isCommand_of_decodeCommand hd) he with hsilent | rfl
    · exact .inl hsilent
    · exact .inr ⟨.cmdRefused, rfl, .inl ⟨rfl, ts, hts⟩⟩
  · exact .inr ⟨.cmdRefused, rfl, .inl ⟨rfl, ts, hts⟩⟩
  · exact .inl rfl
  · rcases exec_line_reported (isCommand_decodeSymbol _ x) he with hsilent | ⟨e, hfrom, hevt, -⟩
    · exact .inl hsilent
    · exact .inr ⟨e, hevt, .inr ⟨hfrom, ts, hts⟩⟩

/-! ### The failure sequence (R254) -/

/-- R254: the line operation `i` that fails with `k` raises `k` and does nothing else; the receiver goes to `HUNT0`, and
from `RX.ESC.BAD` the scan looks at the byte again (R159). -/
def RaisedBy (i : Instr) (k : Failure) (s t : State) : Prop :=
  (k ≠ .escapeViolation ∧ t = raise k .hunt0 s) ∨
    (k = .escapeViolation ∧ ∃ b, i = .rxEscBad b ∧ t = raise k (hunt .hunt0 b) s)

/-- A logical byte fails by an overrun only (R155, R157). -/
theorem storeLogical_of_failed {n : RxState} (hevt : (storeLogical b n s).evt = s.evt ++ [.failed k]) :
    k = .rxOverrun ∧ storeLogical b n s = raise .rxOverrun .hunt0 s := by
  rcases storeLogical_cases s b n with ⟨-, heq⟩ | ⟨-, heq⟩ <;> rw [heq] at hevt
  · exact ⟨by simpa using hevt.symm, heq⟩
  · simp at hevt

/-- Which line operations fail, and what they do then (R155, R157, R159, R161, R162). -/
theorem exec_line_of_failed (hi : i.isCommand = false) (h : exec i s = .next t)
    (hevt : t.evt = s.evt ++ [.failed k]) : RaisedBy i k s t := by
  cases i
  case rxHuntSyn | rxHuntDle | rxHuntStx | rxHuntMiss | rxBodyDle | rxEscEtx | rxFcsLo =>
    cases h
    simp at hevt
  case rxBodyData | rxEscDle =>
    cases h
    obtain ⟨rfl, heq⟩ := storeLogical_of_failed hevt
    exact .inl ⟨nofun, heq⟩
  case rxEos =>
    cases h
    obtain rfl : k = .frameIncomplete := by simpa using hevt.symm
    exact .inl ⟨nofun, rfl⟩
  case rxEscBad b =>
    cases h
    obtain rfl : k = .escapeViolation := by simpa using hevt.symm
    exact .inr ⟨rfl, b, rfl, rfl⟩
  case rxFcsHi b =>
    rw [exec_rxFcsHi_eq] at h
    split at h <;> cases h
    · simp at hevt
    · obtain rfl : k = .checksumMismatch := by simpa using hevt.symm
      exact .inl ⟨nofun, rfl⟩
  all_goals cases hi

/-- R159: the byte that `RX.ESC.BAD` looks at again is that of the symbol. -/
theorem symByte_of_decodeSymbol_eq_rxEscBad {st : RxState} (h : decodeSymbol st x = .rxEscBad b) : symByte x = b := by
  obtain ⟨rfl, -⟩ := (rxEscBadIsViolation.1 st x b).1 h
  exact symByte_byteSymbol b

/-- Settles O46: the operation the symbol selects raises the failure. -/
theorem failureSequenceIsAll : Obligations.FailureSequenceIsAll := by
  intro s t ts x xs k hts hxs h hevt
  rw [step_of_symbol hts hxs] at h
  rcases exec_line_of_failed (isCommand_decodeSymbol _ x) h hevt with ⟨hk, rfl⟩ | ⟨rfl, b, hi, rfl⟩
  · rw [if_neg hk]
    rfl
  · obtain rfl := symByte_of_decodeSymbol_eq_rxEscBad hi
    rw [if_pos rfl]
    rfl

end Sys2Proof.Machine
end

section
/-! The two equations of `step` that take no word and no symbol: nothing is scheduled (R291), and the reset input is
asserted (R280). -/

namespace Sys2Proof.Machine

variable {s : State} {ts : List Agent}

theorem step_of_no_turn (hts : s.turns = []) : step s = .next s := by
  simp [step, fetch, hts]

theorem step_of_reset (hts : s.turns = .reset :: ts) : step s = .next (resetInput { s with turns := ts }) := by
  simp [step, fetch, hts]

/-- Settles O7, from the equations of `step` for no turn, for no command word and for no symbol. -/
theorem stepWaitsWithoutInput : Obligations.StepWaitsWithoutInput :=
  ⟨fun _ => step_of_no_turn, fun _ _ => step_of_no_command, fun _ _ => step_of_no_symbol⟩

/-- Settles O11: the step is `resetInput` of the state with the turn used up, which sets the registers (R34) and keeps
the inputs not taken yet (R281). -/
theorem resetInputReturnsToResetState : Obligations.ResetInputReturnsToResetState := by
  intro s ts hts
  refine ⟨resetInput { s with turns := ts }, step_of_reset hts, ?_⟩
  exact ⟨resetInput_txState _, resetInput_rxState _, resetInput_rxBuf _, resetInput_seq _, resetInput_evt _,
    resetInput_txLine _, resetInput_rxLine _, resetInput_params _, resetInput_replies _, resetInput_cmdPort _,
    resetInput_turns _⟩

end Sys2Proof.Machine
end
